-- ==== Sys2Proof/Word.lean ====
section
/-! DEFINITION. The word types of the core: every register, command word and binary32 pattern is
32 bits (R8, R9, R48). Bit 0 is the least significant bit. -/

namespace Sys2Proof

/-- A 32-bit word; a binary32 value is kept as its bit pattern (R9, R15: `bits` and `val` are the
identity on patterns). -/
abbrev Word := BitVec 32

/-- A byte lane of the host bus (R66). -/
abbrev Byte := BitVec 8

/-- A 16-bit sample (R46, R214). -/
abbrev Half := BitVec 16

end Sys2Proof
end

