-- ==== Sys2Proof/Config.lean ====
section
/-! DEFINITION. The configuration parameters of R6 (00_scope.md). `Params` is the argument a model
takes (R18); `Config.params` is this hardware's: the values R6 gives, and for each OPEN parameter an
opaque constant inside its legal range, of which nothing more can be proved (log entry 2). -/

namespace Sys2Proof

/-- `SUBNORMAL_MODE` (R6, R11). -/
inductive SubnormalMode where
  /-- Subnormal operands read as zero and subnormal results are flushed; this hardware's value. -/
  | flush
  /-- IEEE 754 gradual underflow. -/
  | preserve
deriving DecidableEq, Repr, Inhabited

/-- `FIR_REALIZATION` (R6, R25, R113): how the FIR history is held; architecturally invisible. -/
inductive FirRealization where
  /-- The history is shifted at each sample. -/
  | linear
  /-- The history is a ring with a write index. -/
  | circular
deriving DecidableEq, Repr, Inhabited

/-- The parameters of R6. `IIR_STAGES` is exactly 2 (R28) and has no field. -/
structure Params where
  /-- `FIR_N`: tap count and history length, 1..4096. -/
  firN : Nat
  /-- `REV_LEN`: ring length of each reverb, 1..8192. -/
  revLen : Nat
  /-- `REV_DELAY[0]`: read offset of REV0, 0..REV_LEN. -/
  revDelay0 : Nat
  /-- `REV_DELAY[1]`: read offset of REV1, 0..REV_LEN. -/
  revDelay1 : Nat
  /-- `FS`: sample rate in Hz. -/
  fs : Nat
  /-- `ENV_ATTACK_MS_RST`. -/
  attackMsRst : Word
  /-- `ENV_DECAY_MS_RST`. -/
  decayMsRst : Word
  /-- `ENV_SUSTAIN_RST`. -/
  sustainRst : Word
  /-- `ENV_RELEASE_MS_RST`. -/
  releaseMsRst : Word
  /-- `PCM_SCALE`: binary32 in (0, 32767]. -/
  pcmScale : Word
  /-- `BASE`: host-bus base address of the register block. -/
  base : Nat
  /-- `SUBNORMAL_MODE`. -/
  subnormal : SubnormalMode
  /-- `FIR_REALIZATION`. -/
  realization : FirRealization
deriving DecidableEq, Repr

/-- `IIR_STAGES`: exactly 2 (R6, R28). -/
def Params.iirStages : Nat := 2

namespace Config

/-- OPEN `FIR_N`, less one: 1..4096 (R6, D34). -/
opaque firNPred : Fin 4096

/-- OPEN `REV_DELAY[0]`: 0..REV_LEN (R6, D20). -/
opaque revDelay0 : Fin 2401

/-- OPEN `REV_DELAY[1]`: 0..REV_LEN (R6, D20). -/
opaque revDelay1 : Fin 2401

/-- OPEN `ENV_ATTACK_MS_RST` (R31, D16). -/
opaque attackMsRst : Word

/-- OPEN `ENV_DECAY_MS_RST` (R31, D16). -/
opaque decayMsRst : Word

/-- OPEN `ENV_SUSTAIN_RST` (R32, D17). -/
opaque sustainRst : Word

/-- OPEN `ENV_RELEASE_MS_RST` (R31, D16). -/
opaque releaseMsRst : Word

/-- OPEN `PCM_SCALE`, as its pattern less one: the positive binary32 patterns up to 32767.0
(`0x46FFFE00`) are exactly 1..0x46FFFE00 (R6, D29). -/
opaque pcmScalePred : Fin 0x46FFFE00

/-- OPEN `BASE` (R6, D21). -/
opaque base : Nat

/-- `FIR_REALIZATION`: either (R6, D8). -/
opaque realization : FirRealization

/-- FREE VALUE: what `truncToInt` gives for an infinity of the given sign. R15 defines it for finite
values and NaN only; no legal configuration reaches it (log entry 10). -/
opaque truncInfinity : Bool → Int

/-- The parameters of this hardware (R6). -/
def params : Params where
  firN := firNPred.val + 1
  revLen := 2400
  revDelay0 := revDelay0.val
  revDelay1 := revDelay1.val
  fs := 44100
  attackMsRst := attackMsRst
  decayMsRst := decayMsRst
  sustainRst := sustainRst
  releaseMsRst := releaseMsRst
  pcmScale := BitVec.ofNat 32 (pcmScalePred.val + 1)
  base := base
  subnormal := .flush
  realization := realization

end Config

end Sys2Proof
end

