-- ==== Sys2Proof/Syntax.lean ====
section
/-! DEFINITION. The commands of the core (R84): one constructor per row of spec/opcode_table.json. The
operand `D` is not part of a command word; it is read from `DATA` when the command runs (R61, R82). -/

namespace Sys2Proof

/-- Field `CH` of the `REV_*` commands (R81): the reverb the command names. -/
inductive Channel where
  /-- `CH = 0`: REV0, left. -/
  | left
  /-- `CH = 1`: REV1, right. -/
  | right
deriving DecidableEq, Repr

/-- A state element of the index space of R64, named by field `IDX` of `RD` and `WR`. The index fields
have the widths of R64's windows; which indices are mapped depends on `FIR_N` and `REV_LEN`. -/
inductive Element where
  /-- `0x0000 + k`: `FIR_H[k]`. -/
  | firH (k : BitVec 12)
  /-- `0x1000 + k`: `FIR_X[k]`, k = 0 newest. -/
  | firX (k : BitVec 12)
  /-- `0x2000 + j`: `IIR_C[j]`. -/
  | iirC (j : Fin 10)
  /-- `0x2010 + j`: `IIR_W[j]`. -/
  | iirW (j : Fin 4)
  /-- `0x3000`: `ENV_PHASE`. -/
  | envPhase
  /-- `0x3001`: `ENV_LEVEL`. -/
  | envLevel
  /-- `0x3002`: `ENV_ATTACK_MS`. -/
  | envAttackMs
  /-- `0x3003`: `ENV_DECAY_MS`. -/
  | envDecayMs
  /-- `0x3004`: `ENV_SUSTAIN`. -/
  | envSustain
  /-- `0x3005`: `ENV_RELEASE_MS`. -/
  | envReleaseMs
  /-- `0x3006`: `ENV_ATTACK_INC`. -/
  | envAttackInc
  /-- `0x3007`: `ENV_DECAY_DEC`. -/
  | envDecayDec
  /-- `0x3008`: `ENV_RELEASE_DEC`. -/
  | envReleaseDec
  /-- `0x3009`: `f32(FS)`. -/
  | sampleRate
  /-- `0x4000 + 0x10*c`: `REV_WI[c]`. -/
  | revWi (c : Channel)
  /-- `0x4001 + 0x10*c`: `REV_DELAY[c]`. -/
  | revDelay (c : Channel)
  /-- `0x4002 + 0x10*c`: `REV_FB[c]`. -/
  | revFb (c : Channel)
  /-- `0x4003 + 0x10*c`: `REV_MIX[c]`. -/
  | revMix (c : Channel)
  /-- `0x5000`: `OUT_L`. -/
  | outL
  /-- `0x5001`: `OUT_R`. -/
  | outR
  /-- `0x5002`: `OUT_PCM`. -/
  | outPcm
  /-- `0x6000`: `FIR_N`. -/
  | cfgFirN
  /-- `0x6001`: `IIR_STAGES`. -/
  | cfgIirStages
  /-- `0x6002`: `REV_LEN`. -/
  | cfgRevLen
  /-- `0x8000 + i` and `0xA000 + i`: `REV_BUF[0][i]` and `REV_BUF[1][i]`. -/
  | revBuf (c : Channel) (i : BitVec 13)
deriving DecidableEq, Repr

/-- The 17 commands (R84). -/
inductive Instr where
  /-- `NOP` (R230). -/
  | nop
  /-- `RD` (R231). -/
  | rd (e : Element)
  /-- `WR` (R232). -/
  | wr (e : Element)
  /-- `FIR_PROC` (R110). -/
  | firProc
  /-- `IIR_PROC` (R130). -/
  | iirProc
  /-- `IIR_RESET` (R136). -/
  | iirReset
  /-- `ENV_NOTE_ON` (R150). -/
  | envOn
  /-- `ENV_NOTE_OFF` (R152). -/
  | envOff
  /-- `ENV_TICK` (R154). -/
  | envTick
  /-- `ENV_SET_ATTACK` (R175). -/
  | envAtk
  /-- `ENV_SET_DECAY` (R176). -/
  | envDec
  /-- `ENV_SET_SUSTAIN` (R178). -/
  | envSus
  /-- `ENV_SET_RELEASE` (R177). -/
  | envRel
  /-- `REV_PROC` (R190). -/
  | revProc (c : Channel)
  /-- `REV_SET_FB` (R196). -/
  | revFb (c : Channel)
  /-- `REV_SET_MIX` (R198). -/
  | revMix (c : Channel)
  /-- `PIPE_STEP` (R210). -/
  | pipeStep
deriving DecidableEq, Repr

end Sys2Proof
end

