-- ==== Sys2Proof/Machine/IndexMap.lean ====
section
/-! DEFINITION. Which elements of the state index space `RD` and `WR` may name (R64). -/

namespace Sys2Proof

/-- The element is RD-mapped (R64): the array elements inside the configured lengths, and every fixed
element. -/
def Element.mapped (p : Params) : Element → Bool
  | .firH k => decide (k.toNat < p.firN)
  | .firX k => decide (k.toNat < p.firN)
  | .revBuf _ i => decide (i.toNat < p.revLen)
  | _ => true

/-- The element's WR column is "yes" (R64, R232): the FIR taps and the IIR coefficients. -/
def Element.writable : Element → Bool
  | .firH _ => true
  | .iirC _ => true
  | _ => false

end Sys2Proof
end

