-- ==== Sys2Proof/WellFormed.lean ====
section
/-! DEFINITION. Which configurations are legal (R6) and which commands are legal under a configuration
(R64, R87): legality depends on the command word, `FIR_N` and `REV_LEN` only (R282). -/

namespace Sys2Proof

/-- The legal ranges of R6. `FS` is exactly representable in binary32 when all its significant bits
fit in 24; a positive binary32 value up to 32767.0 is a pattern in 1..0x46FFFE00. -/
abbrev Params.Legal (p : Params) : Prop :=
  (1 ≤ p.firN ∧ p.firN ≤ 4096) ∧ (1 ≤ p.revLen ∧ p.revLen ≤ 8192) ∧
  p.revDelay0 ≤ p.revLen ∧ p.revDelay1 ≤ p.revLen ∧
  (1 ≤ p.fs ∧ p.fs < 2 ^ 128 ∧ p.fs % 2 ^ (Nat.log2 p.fs - 23) = 0) ∧
  (1 ≤ p.pcmScale.toNat ∧ p.pcmScale.toNat ≤ 0x46FFFE00)

/-- The command is legal under the configuration (R87): `RD` names an RD-mapped element and `WR` a
WR-mapped one; every other command is legal. -/
def Instr.wf (p : Params) : Instr → Bool
  | .rd e => e.mapped p
  | .wr e => e.mapped p && e.writable
  | _ => true

end Sys2Proof
end

