-- ==== Sys2Proof/Decode.lean ====
section
/-! DEFINITION. The command encoding (30_encoding.md): the fields of `CMD32`, the total decoder that
rejects every illegal word by name (R83, R87), the encoder written from the same tables, and the
match and mask form of R85. -/

namespace Sys2Proof

/-- Why a word is no legal command (R87). Raised by the decoder; the machine answers each with
`IllegalCommand` (R281). -/
inductive DecodeError where
  /-- `OP` is not in the opcode map (R88). -/
  | reservedOpcode (op : BitVec 8)
  /-- `CH` is not in the row's CH column. -/
  | badChannel (ch : BitVec 8)
  /-- `IDX` is not 0 where the row says 0. -/
  | badIndex (idx : BitVec 16)
  /-- `RD` of an index that is not RD-mapped. -/
  | notReadable (idx : BitVec 16)
  /-- `WR` of an index that is not WR-mapped. -/
  | notWritable (idx : BitVec 16)
  /-- Fewer than four bytes were given; the command port moves whole words (R62). -/
  | shortWord
deriving DecidableEq, Repr

/-- Field `OP`, bits [31:24] (R81). -/
def opField (w : Word) : BitVec 8 := w.extractLsb' 24 8

/-- Field `CH`, bits [23:16] (R81). -/
def chField (w : Word) : BitVec 8 := w.extractLsb' 16 8

/-- Field `IDX`, bits [15:0] (R81). -/
def idxField (w : Word) : BitVec 16 := w.extractLsb' 0 16

/-- Assemble `CMD32` from its fields (R81). -/
def cmdWord (op ch : BitVec 8) (idx : BitVec 16) : Word := op ++ ch ++ idx

/-- The indices of R64 that name one element each. -/
def fixedElements : List (BitVec 16 × Element) :=
  [(0x3000, .envPhase), (0x3001, .envLevel), (0x3002, .envAttackMs), (0x3003, .envDecayMs),
   (0x3004, .envSustain), (0x3005, .envReleaseMs), (0x3006, .envAttackInc), (0x3007, .envDecayDec),
   (0x3008, .envReleaseDec), (0x3009, .sampleRate)] ++
  [(0x4000, .revWi .left), (0x4001, .revDelay .left), (0x4002, .revFb .left), (0x4003, .revMix .left),
   (0x4010, .revWi .right), (0x4011, .revDelay .right), (0x4012, .revFb .right),
   (0x4013, .revMix .right)] ++
  [(0x5000, .outL), (0x5001, .outR), (0x5002, .outPcm),
   (0x6000, .cfgFirN), (0x6001, .cfgIirStages), (0x6002, .cfgRevLen)]

/-- The element whose window of R64 holds the index, mapped under the configuration or not. -/
def elementAt (idx : BitVec 16) : Option Element :=
  let n := idx.toNat
  if n < 0x1000 then some (.firH (BitVec.ofNat 12 n))
  else if n < 0x2000 then some (.firX (BitVec.ofNat 12 (n - 0x1000)))
  else if h : 0x2000 ≤ n ∧ n < 0x200A then some (.iirC ⟨n - 0x2000, by omega⟩)
  else if h : 0x2010 ≤ n ∧ n < 0x2014 then some (.iirW ⟨n - 0x2010, by omega⟩)
  else if n < 0x8000 then fixedElements.lookup idx
  else if n < 0xA000 then some (.revBuf .left (BitVec.ofNat 13 (n - 0x8000)))
  else if n < 0xC000 then some (.revBuf .right (BitVec.ofNat 13 (n - 0xA000)))
  else none

/-- The element an `RD` of this index reads, if the index is RD-mapped (R64). -/
def decodeRead (p : Params) (idx : BitVec 16) : Option Element :=
  (elementAt idx).filter (Element.mapped p)

/-- The element a `WR` of this index writes, if the index is WR-mapped (R64). -/
def decodeWrite (p : Params) (idx : BitVec 16) : Option Element :=
  (elementAt idx).filter fun e => e.mapped p && e.writable

/-- What a row of R84 demands of `CH` and `IDX`. -/
inductive RowShape where
  /-- `CH = 0`, `IDX = 0`. -/
  | plain (i : Instr)
  /-- `CH = 0`, `IDX` RD-mapped. -/
  | read
  /-- `CH = 0`, `IDX` WR-mapped. -/
  | write
  /-- `CH` 0 or 1, `IDX = 0`. -/
  | channel (f : Channel → Instr)

/-- The opcode map of R84. -/
def rowOf (op : BitVec 8) : Option RowShape :=
  match op.toNat with
  | 0x00 => some (.plain .nop)
  | 0x01 => some .read
  | 0x02 => some .write
  | 0x10 => some (.plain .firProc)
  | 0x20 => some (.plain .iirProc)
  | 0x21 => some (.plain .iirReset)
  | 0x30 => some (.plain .envOn)
  | 0x31 => some (.plain .envOff)
  | 0x32 => some (.plain .envTick)
  | 0x38 => some (.plain .envAtk)
  | 0x39 => some (.plain .envDec)
  | 0x3A => some (.plain .envSus)
  | 0x3B => some (.plain .envRel)
  | 0x40 => some (.channel .revProc)
  | 0x41 => some (.channel .revFb)
  | 0x42 => some (.channel .revMix)
  | 0x50 => some (.plain .pipeStep)
  | _ => none

/-- The channel a `CH` field names: 0 is REV0, 1 is REV1 (R81). -/
def channelOf (ch : BitVec 8) : Option Channel :=
  match ch.toNat with
  | 0x00 => some .left
  | 0x01 => some .right
  | _ => none

/-- Decode a command word (R83): total, first `OP`, then `CH`, then `IDX`. -/
def decode (p : Params) (w : Word) : Except DecodeError Instr :=
  let ch := chField w
  let idx := idxField w
  match rowOf (opField w) with
  | none => .error (.reservedOpcode (opField w))
  | some (.plain i) =>
    if ch ≠ 0 then .error (.badChannel ch) else if idx ≠ 0 then .error (.badIndex idx) else .ok i
  | some .read =>
    if ch ≠ 0 then .error (.badChannel ch)
    else match decodeRead p idx with
      | some e => .ok (.rd e)
      | none => .error (.notReadable idx)
  | some .write =>
    if ch ≠ 0 then .error (.badChannel ch)
    else match decodeWrite p idx with
      | some e => .ok (.wr e)
      | none => .error (.notWritable idx)
  | some (.channel f) =>
    match channelOf ch with
    | none => .error (.badChannel ch)
    | some c => if idx ≠ 0 then .error (.badIndex idx) else .ok (f c)

/-- The word of four byte lanes, lane 0 first (R66: byte address `BASE + 4*r + b` carries bits
[8b+7:8b]). -/
def wordOfLanes (b0 b1 b2 b3 : Byte) : Word := b3 ++ b2 ++ b1 ++ b0

/-- Byte lane `b` of a word: bits [8b+7:8b] (R66). -/
def byteLane (w : Word) (b : Fin 4) : Byte := w.extractLsb' (8 * b.val) 8

/-- Decode the command in the first four bytes of a little-endian byte sequence (R66), with the rest. -/
def decodeBytes (p : Params) : List Byte → Except DecodeError (Instr × List Byte)
  | b0 :: b1 :: b2 :: b3 :: rest => (decode p (wordOfLanes b0 b1 b2 b3)).map (·, rest)
  | _ => .error .shortWord

/-- The command of the row whose bits are `w`, read under this hardware's configuration. Every row of
the table is one 32-bit word (R80). -/
def decodeTableWord (nbits w : Nat) : Option Instr :=
  if nbits ≤ 32 ∧ w < 2 ^ 32 then (decode Config.params (BitVec.ofNat 32 w)).toOption else none

/-- The `CH` value that names a channel (R81). -/
def channelNumber : Channel → Nat
  | .left => 0
  | .right => 1

/-- The index of an element in the state index space (R64). -/
def elementIndex : Element → BitVec 16
  | .firH k => BitVec.ofNat 16 k.toNat
  | .firX k => BitVec.ofNat 16 (0x1000 + k.toNat)
  | .iirC j => BitVec.ofNat 16 (0x2000 + j.val)
  | .iirW j => BitVec.ofNat 16 (0x2010 + j.val)
  | .envPhase => 0x3000
  | .envLevel => 0x3001
  | .envAttackMs => 0x3002
  | .envDecayMs => 0x3003
  | .envSustain => 0x3004
  | .envReleaseMs => 0x3005
  | .envAttackInc => 0x3006
  | .envDecayDec => 0x3007
  | .envReleaseDec => 0x3008
  | .sampleRate => 0x3009
  | .revWi c => BitVec.ofNat 16 (0x4000 + 0x10 * channelNumber c)
  | .revDelay c => BitVec.ofNat 16 (0x4001 + 0x10 * channelNumber c)
  | .revFb c => BitVec.ofNat 16 (0x4002 + 0x10 * channelNumber c)
  | .revMix c => BitVec.ofNat 16 (0x4003 + 0x10 * channelNumber c)
  | .outL => 0x5000
  | .outR => 0x5001
  | .outPcm => 0x5002
  | .cfgFirN => 0x6000
  | .cfgIirStages => 0x6001
  | .cfgRevLen => 0x6002
  | .revBuf c i => BitVec.ofNat 16 (0x8000 + 0x2000 * channelNumber c + i.toNat)

/-- The operation code of a command (R84). -/
def opcodeOf : Instr → BitVec 8
  | .nop => 0x00
  | .rd _ => 0x01
  | .wr _ => 0x02
  | .firProc => 0x10
  | .iirProc => 0x20
  | .iirReset => 0x21
  | .envOn => 0x30
  | .envOff => 0x31
  | .envTick => 0x32
  | .envAtk => 0x38
  | .envDec => 0x39
  | .envSus => 0x3A
  | .envRel => 0x3B
  | .revProc _ => 0x40
  | .revFb _ => 0x41
  | .revMix _ => 0x42
  | .pipeStep => 0x50

/-- The `CH` field of a command (R84). -/
def chOf : Instr → BitVec 8
  | .revProc c => BitVec.ofNat 8 (channelNumber c)
  | .revFb c => BitVec.ofNat 8 (channelNumber c)
  | .revMix c => BitVec.ofNat 8 (channelNumber c)
  | _ => 0

/-- The `IDX` field of a command (R84). -/
def idxOf : Instr → BitVec 16
  | .rd e => elementIndex e
  | .wr e => elementIndex e
  | _ => 0

/-- Encode a command (R81, R84). -/
def encode (i : Instr) : Word := cmdWord (opcodeOf i) (chOf i) (idxOf i)

/-- The match value of a command's row (R85). -/
def matchOf (i : Instr) : Word := cmdWord (opcodeOf i) 0 0

/-- The mask of a command's row (R85): all bits, less `IDX` for `RD` and `WR`, less bit 16 for the
`REV_*` rows. -/
def maskOf : Instr → Word
  | .rd _ => 0xFFFF0000
  | .wr _ => 0xFFFF0000
  | .revProc _ => 0xFFFEFFFF
  | .revFb _ => 0xFFFEFFFF
  | .revMix _ => 0xFFFEFFFF
  | _ => 0xFFFFFFFF

/-- Whether the command reads its operand `D` (R84, column D). -/
def usesData : Instr → Bool
  | .wr _ | .firProc | .iirProc | .envAtk | .envDec | .envSus | .envRel => true
  | .revProc _ | .revFb _ | .revMix _ | .pipeStep => true
  | .nop | .rd _ | .iirReset | .envOn | .envOff | .envTick => false

/-- Whether the command writes `RESULT` (R84, column RESULT; R86). -/
def writesResult : Instr → Bool
  | .rd _ | .firProc | .iirProc | .envTick | .revProc _ | .pipeStep => true
  | .nop | .wr _ | .iirReset | .envOn | .envOff => false
  | .envAtk | .envDec | .envSus | .envRel | .revFb _ | .revMix _ => false

end Sys2Proof
end

