-- ==== Sys2Proof/Machine/Float.lean ====
section
/-! DEFINITION. IEEE 754 binary32 arithmetic on bit patterns (R9-R13, R15): round to nearest, ties to
even, one rounding per operator, subnormals by mode, default NaN. Every finite binary32 magnitude is a
whole number of units of 2^-149, so an operator converts to that exact number, computes exactly on
integers, and rounds once (log entry 14). -/

namespace Sys2Proof.Machine

/-- The default NaN (R12). -/
def f32NaN : Word := 0x7FC00000

/-- `+0.0`. -/
def f32Zero : Word := 0x00000000

/-- `1.0`. -/
def f32One : Word := 0x3F800000

/-- `-1.0`. -/
def f32NegOne : Word := 0xBF800000

/-- `2.0`. -/
def f32Two : Word := 0x40000000

/-- `-2.0`. -/
def f32NegTwo : Word := 0xC0000000

/-- `10.0`. -/
def f32Ten : Word := 0x41200000

/-- `-10.0`. -/
def f32NegTen : Word := 0xC1200000

/-- `1000.0`. -/
def f32Thousand : Word := 0x447A0000

/-- The binary32 value nearest 0.98 (R40). -/
def f32Gain : Word := 0x3F7AE148

/-- What a pattern means: a NaN, a signed infinity, or a sign and a magnitude in units of 2^-149. -/
inductive FloatView where
  | nan
  | inf (neg : Bool)
  | fin (neg : Bool) (mag : Nat)
deriving DecidableEq, Repr

/-- Sign bit [31] (R9). -/
def signBit (w : Word) : Bool := w.msb

/-- Biased exponent [30:23] (R9). -/
def expField (w : Word) : Nat := w.toNat / 2 ^ 23 % 2 ^ 8

/-- Fraction [22:0] (R9). -/
def fracField (w : Word) : Nat := w.toNat % 2 ^ 23

/-- Read a pattern as a value (R9, R15 `val`). -/
def unpack (w : Word) : FloatView :=
  if expField w = 255 then (if fracField w = 0 then .inf (signBit w) else .nan)
  else if expField w = 0 then .fin (signBit w) (fracField w)
  else .fin (signBit w) ((2 ^ 23 + fracField w) * 2 ^ (expField w - 1))

/-- The pattern with this sign and these low 31 bits. -/
def withSign (neg : Bool) (pattern : Nat) : Word :=
  BitVec.ofNat 32 (if neg then 2 ^ 31 + pattern else pattern)

/-- The operand rule of R11: under FLUSH a subnormal operand is a zero of its sign. -/
def daz (m : SubnormalMode) (w : Word) : Word :=
  match m with
  | .flush => if expField w = 0 then withSign (signBit w) 0 else w
  | .preserve => w

/-- The value is a NaN. -/
def isNaN (w : Word) : Bool := unpack w = .nan

/-- How many low bits of a magnitude fall below its 24 significant bits. -/
def excessBits (q : Nat) : Nat := if q < 2 ^ 24 then 0 else Nat.log2 q - 23

/-- The low 31 bits nearest the exact magnitude `num / den` (units of 2^-149), ties to even (R10),
before overflow and flushing. -/
def roundPattern (num den : Nat) : Nat :=
  let k := excessBits (num / den)
  let d := den * 2 ^ k
  let q := num / d
  let r := num % d
  let up := if d < 2 * r ∨ (d = 2 * r ∧ q % 2 = 1) then 1 else 0
  k * 2 ^ 23 + q + up

/-- Round an exact result (R10), overflow to an infinity, and under FLUSH replace a result that is
subnormal after rounding by a zero of its sign (R11). -/
def roundResult (m : SubnormalMode) (neg : Bool) (num den : Nat) : Word :=
  let p := roundPattern num den
  if 0x7F800000 ≤ p then withSign neg 0x7F800000
  else if m = .flush ∧ p < 2 ^ 23 then withSign neg 0
  else withSign neg p

/-- A signed magnitude as an integer. -/
def signedMag (neg : Bool) (mag : Nat) : Int := if neg then -(mag : Int) else (mag : Int)

/-- `a + b` (R10-R12). -/
def fadd (m : SubnormalMode) (a b : Word) : Word :=
  match unpack (daz m a), unpack (daz m b) with
  | .nan, _ => f32NaN
  | _, .nan => f32NaN
  | .inf s, .inf t => if s = t then withSign s 0x7F800000 else f32NaN
  | .inf s, .fin _ _ => withSign s 0x7F800000
  | .fin _ _, .inf t => withSign t 0x7F800000
  | .fin s x, .fin t y =>
    let z := signedMag s x + signedMag t y
    if z = 0 then withSign (s && t) 0 else roundResult m (decide (z < 0)) z.natAbs 1

/-- `a - b` (R10-R12): addition of `b` with its sign bit turned. -/
def fsub (m : SubnormalMode) (a b : Word) : Word := fadd m a (b ^^^ 0x80000000)

/-- `a * b` (R10-R12). -/
def fmul (m : SubnormalMode) (a b : Word) : Word :=
  match unpack (daz m a), unpack (daz m b) with
  | .nan, _ => f32NaN
  | _, .nan => f32NaN
  | .inf s, .inf t => withSign (s ^^ t) 0x7F800000
  | .inf s, .fin t y => if y = 0 then f32NaN else withSign (s ^^ t) 0x7F800000
  | .fin s x, .inf t => if x = 0 then f32NaN else withSign (s ^^ t) 0x7F800000
  | .fin s x, .fin t y => roundResult m (s ^^ t) (x * y) (2 ^ 149)

/-- `a / b` (R10-R12). -/
def fdiv (m : SubnormalMode) (a b : Word) : Word :=
  match unpack (daz m a), unpack (daz m b) with
  | .nan, _ => f32NaN
  | _, .nan => f32NaN
  | .inf _, .inf _ => f32NaN
  | .inf s, .fin t _ => withSign (s ^^ t) 0x7F800000
  | .fin s _, .inf t => withSign (s ^^ t) 0
  | .fin s x, .fin t y =>
    if y = 0 then (if x = 0 then f32NaN else withSign (s ^^ t) 0x7F800000)
    else roundResult m (s ^^ t) (x * 2 ^ 149) y

/-- The order of the values: `none` for a NaN; an infinity is beyond every finite magnitude. -/
def orderKey (m : SubnormalMode) (w : Word) : Option Int :=
  match unpack (daz m w) with
  | .nan => none
  | .inf s => some (signedMag s (2 ^ 277))
  | .fin s x => some (signedMag s x)

/-- `a < b`; false if an operand is a NaN (R12). -/
def flt (m : SubnormalMode) (a b : Word) : Bool :=
  match orderKey m a, orderKey m b with
  | some x, some y => decide (x < y)
  | _, _ => false

/-- `a <= b`; false if an operand is a NaN (R12). -/
def fle (m : SubnormalMode) (a b : Word) : Bool :=
  match orderKey m a, orderKey m b with
  | some x, some y => decide (x ≤ y)
  | _, _ => false

/-- The saturation primitive (R13). -/
def sat (m : SubnormalMode) (v lo hi : Word) : Word :=
  let v := daz m v
  let v := if isNaN v then f32Zero else v
  if flt m v lo then lo else if flt m hi v then hi else v

/-- `f32(n)`: the binary32 value nearest an integer (R15). -/
def f32OfInt (n : Int) : Word := roundResult .preserve (decide (n < 0)) (n.natAbs * 2 ^ 149) 1

/-- `truncToInt(v)` (R15): the integer part, toward zero; 0 for a NaN. R15 gives no value for an
infinity: a free value (log entry 10). -/
def truncToInt (v : Word) : Int :=
  match unpack v with
  | .nan => 0
  | .inf s => Config.truncInfinity s
  | .fin s x => signedMag s (x / 2 ^ 149)

end Sys2Proof.Machine
end

