-- ==== Sys2Proof/Machine/Units.lean ====
section
/-! DEFINITION. The state of each unit of the core (10_state.md), one structure per owner of R47, and
what the outside world can do to the core (R295). Plain data. -/

namespace Sys2Proof.Machine

/-- `ENV_PHASE` (R29). Values 6 and 7 are never produced (U13) and have no constructor. -/
inductive Phase where
  | init
  | noteOff
  | attack
  | decay
  | sustain
  | release
deriving DecidableEq, Repr

/-- The FIR unit (R22, R24, R25). -/
structure FirUnit where
  /-- `FIR_H`: the taps, `FIR_N` of them. -/
  h : List Word
  /-- The stored history `B`, `FIR_N` words: under LINEAR the history itself, under CIRCULAR the ring. -/
  ring : List Word
  /-- The hidden ring index `p` of CIRCULAR, of the newest sample; 0 and unused under LINEAR. -/
  pos : Nat
deriving DecidableEq, Repr

/-- The IIR unit (R26, R27). -/
structure IirUnit where
  /-- `IIR_C`: section s holds b0, b1, b2, -a1, -a2 at 5s..5s+4. -/
  c : Vector Word 10
  /-- `IIR_W`: section s holds w[n-1], w[n-2] at 2s, 2s+1. -/
  w : Vector Word 4
deriving DecidableEq, Repr

/-- The envelope unit and its increment timer (R29-R33). -/
structure EnvUnit where
  /-- `ENV_PHASE`. -/
  phase : Phase
  /-- `ENV_LEVEL`. -/
  level : Word
  /-- `ENV_ATTACK_MS`. -/
  attackMs : Word
  /-- `ENV_DECAY_MS`. -/
  decayMs : Word
  /-- `ENV_SUSTAIN`. -/
  sustain : Word
  /-- `ENV_RELEASE_MS`. -/
  releaseMs : Word
  /-- `ENV_ATTACK_INC`. -/
  attackInc : Word
  /-- `ENV_DECAY_DEC`. -/
  decayDec : Word
  /-- `ENV_RELEASE_DEC`. -/
  releaseDec : Word
deriving DecidableEq, Repr

/-- One reverb (R35, R36, R38, R39). -/
structure RevUnit where
  /-- `REV_BUF[c]`: the ring, `REV_LEN` words. -/
  buf : List Word
  /-- `REV_WI[c]`: the write index, 0..REV_LEN-1. -/
  wi : Nat
  /-- `REV_FB[c]`. -/
  fb : Word
  /-- `REV_MIX[c]`. -/
  mix : Word
deriving DecidableEq, Repr

/-- A host access of one whole word (R62). The offset is the byte address less `BASE`, a mathematical
integer; outside 0..0x1F it does not select the core (log entry 7). -/
inductive PortAccess where
  /-- The host writes a word. -/
  | write (offset : Int) (w : Word)
  /-- The host reads a word. -/
  | read (offset : Int)
deriving DecidableEq, Repr

/-- One input of the core: what the host, the sample port or the platform does next (R70, R295). -/
inductive Input where
  /-- A host access (R60). -/
  | host (a : PortAccess)
  /-- A sample-port pulse with this `sp_x` (R212). -/
  | pulse (x : Word)
  /-- A host access and a pulse in the same cycle: the pulse is ordered first (R70, R286). -/
  | coincident (a : PortAccess) (x : Word)
  /-- The reset input, asserted and released (R311). -/
  | reset
deriving DecidableEq, Repr

end Sys2Proof.Machine
end

