-- ==== Sys2Proof/Machine/Timer.lean ====
section
/-! DEFINITION. The increment timer (43_envelope_timer.md, R170-R173): the per-sample steps derived
from the time constants, with the sample rate as the time base. -/

namespace Sys2Proof.Machine

/-- `Samples(t_ms)` with the one-sample guard (R171, R173). -/
def samples (p : Params) (t : Word) : Word :=
  let n := fdiv p.subnormal (fmul p.subnormal t (f32OfInt p.fs)) f32Thousand
  if isNaN n || flt p.subnormal n f32One then f32One else n

/-- The attack step of R172: `1.0 / Samples(attack)`. -/
def attackStep (p : Params) (attackMs : Word) : Word :=
  fdiv p.subnormal f32One (samples p attackMs)

/-- The decay step of R172: `(1.0 - sustain) / Samples(decay)`. -/
def decayStep (p : Params) (sustain decayMs : Word) : Word :=
  fdiv p.subnormal (fsub p.subnormal f32One sustain) (samples p decayMs)

/-- The release step of R172: `sustain / Samples(release)`. -/
def releaseStep (p : Params) (sustain releaseMs : Word) : Word :=
  fdiv p.subnormal sustain (samples p releaseMs)

/-- `RecomputeIncrements` (R172): all three steps from the current parameters. -/
def recomputeIncrements (p : Params) (e : EnvUnit) : EnvUnit :=
  { e with
    attackInc := attackStep p e.attackMs
    decayDec := decayStep p e.sustain e.decayMs
    releaseDec := releaseStep p e.sustain e.releaseMs }

end Sys2Proof.Machine
end

