-- ==== Sys2Proof/Machine/State.lean ====
section
/-! DEFINITION. The state of the core (10_state.md, R310), the reasons a step can stop, and the state
after reset. Plain data. -/

namespace Sys2Proof.Machine

/-- Why a step stops with a fault. The core has no fault: its one exception, `IllegalCommand`, is a
step with an effect (R280, R281, R283), and every other condition is a defined result. The type has no
constructor, so no step can fault. -/
inductive Fault where
deriving DecidableEq, Repr

/-- Why a command has no meaning in the model. -/
inductive Refusal where
  /-- Raised only by an arm of `exec` whose command has no meaning yet, with its mnemonic; safe. -/
  | notModelled (mnemonic : String)
deriving DecidableEq, Repr

end Sys2Proof.Machine

namespace Sys2Proof.Machine

/-- The state of the core, with the configuration it runs under, the inputs still to come and the
words the host has read. -/
structure State where
  /-- The configuration parameters (R6), the model's argument; no step changes it (log entry 1). -/
  cfg : Params
  /-- The FIR unit (R22, R24, R25). -/
  fir : FirUnit
  /-- The IIR unit (R26, R27). -/
  iir : IirUnit
  /-- The envelope unit and its timer (R29-R33). -/
  env : EnvUnit
  /-- REV0, left (R35-R39). -/
  rev0 : RevUnit
  /-- REV1, right (R35-R39). -/
  rev1 : RevUnit
  /-- `DATA` (R41). -/
  data : Word
  /-- `RESULT` (R42). -/
  result : Word
  /-- `STATUS` (R43); bit 0 is `ILL`. -/
  status : Word
  /-- `OUT_L` (R45). -/
  outL : Word
  /-- `OUT_R` (R45). -/
  outR : Word
  /-- `OUT_PCM` (R46). -/
  outPcm : Word
  /-- The inputs still to come, first one first (R326, log entry 3). -/
  inputs : List Input
  /-- The words the host has read along the way, oldest first (R326, log entry 9). -/
  readLog : List Word
deriving DecidableEq, Repr

/-- The state after reset under a configuration (R310), nothing pending and nothing read. -/
def State.resetFor (p : Params) : State where
  cfg := p
  fir := { h := List.replicate p.firN 0, ring := List.replicate p.firN 0, pos := 0 }
  iir := { c := Vector.replicate 10 0, w := Vector.replicate 4 0 }
  env := recomputeIncrements p
    { phase := .init
      level := 0
      attackMs := p.attackMsRst
      decayMs := p.decayMsRst
      sustain := sat p.subnormal p.sustainRst f32Zero f32One
      releaseMs := p.releaseMsRst
      attackInc := 0
      decayDec := 0
      releaseDec := 0 }
  rev0 := { buf := List.replicate p.revLen 0, wi := 0, fb := 0, mix := 0 }
  rev1 := { buf := List.replicate p.revLen 0, wi := 0, fb := 0, mix := 0 }
  data := 0
  result := 0
  status := 0
  outL := 0
  outR := 0
  outPcm := 0
  inputs := []
  readLog := []

/-- The state of this hardware after reset (R310). -/
def State.reset : State := State.resetFor Config.params

end Sys2Proof.Machine
end

