-- ==== Sys2Proof/Machine/Ops.lean ====
section
/-! DEFINITION. The named operations over the core's internal arrays and unit registers (R14, R63), and
the one exception `IllegalCommand` (R281). There is no return from it (R288). -/

namespace Sys2Proof.Machine

/-- `(a - b) mod n` on mathematical integers, non-negative (R8, R25, R191). -/
def subMod (a b n : Nat) : Nat := (((a : Int) - (b : Int)) % (n : Int)).toNat

/-- The reverb unit of a channel. -/
def State.rev (s : State) : Channel → RevUnit
  | .left => s.rev0
  | .right => s.rev1

/-- Replace the reverb unit of a channel. -/
def State.setRev (s : State) : Channel → RevUnit → State
  | .left, u => { s with rev0 := u }
  | .right, u => { s with rev1 := u }

/-- `REV_DELAY[c]` (R37). -/
def revDelayOf (p : Params) : Channel → Nat
  | .left => p.revDelay0
  | .right => p.revDelay1

/-- Where the stored history keeps `FIR_X[k]`: at `k` under LINEAR, at `(p - k) mod FIR_N` under
CIRCULAR (R25). -/
def firSlot (p : Params) (pos k : Nat) : Nat :=
  match p.realization with
  | .linear => k
  | .circular => subMod pos k p.firN

/-- An internal array (R63). -/
inductive Space where
  | firH
  | firX
  | iirC
  | iirW
  | revBuf (c : Channel)
deriving DecidableEq, Repr

/-- How many elements a space has (R63). -/
def spaceLength (p : Params) : Space → Nat
  | .firH => p.firN
  | .firX => p.firN
  | .iirC => 10
  | .iirW => 4
  | .revBuf _ => p.revLen

/-- `MemRead(space, i)` (R63). An index out of range, which no rule computes, reads 0 (log entry 13). -/
def State.memRead (s : State) (sp : Space) (i : Nat) : Word :=
  match sp with
  | .firH => s.fir.h.getD i 0
  | .firX => s.fir.ring.getD (firSlot s.cfg s.fir.pos i) 0
  | .iirC => s.iir.c.toList.getD i 0
  | .iirW => s.iir.w.toList.getD i 0
  | .revBuf c => (s.rev c).buf.getD i 0

/-- `MemWrite(space, i, v)` (R63). A write out of range, which no rule makes, changes nothing (log
entry 13). -/
def State.memWrite (s : State) (sp : Space) (i : Nat) (v : Word) : State :=
  match sp with
  | .firH => { s with fir := { s.fir with h := s.fir.h.set i v } }
  | .firX => { s with fir := { s.fir with ring := s.fir.ring.set (firSlot s.cfg s.fir.pos i) v } }
  | .iirC => { s with iir := { s.iir with c := s.iir.c.setIfInBounds i v } }
  | .iirW => { s with iir := { s.iir with w := s.iir.w.setIfInBounds i v } }
  | .revBuf c => s.setRev c { s.rev c with buf := (s.rev c).buf.set i v }

/-- `FIR_X[k]`, the architectural view of the history (R24, R25). -/
def State.firX (s : State) (k : Nat) : Word := s.memRead .firX k

/-- The canonical form of the core's memory: every array has exactly its configured length, and the
hidden ring index and the write indices are in range (R25, R36, R63). -/
def Memory.wf (s : State) : Bool :=
  decide (s.fir.h.length = s.cfg.firN) && decide (s.fir.ring.length = s.cfg.firN) &&
  decide (s.fir.pos < s.cfg.firN) &&
  decide (s.rev0.buf.length = s.cfg.revLen) && decide (s.rev0.wi < s.cfg.revLen) &&
  decide (s.rev1.buf.length = s.cfg.revLen) && decide (s.rev1.wi < s.cfg.revLen)

/-- `RESULT <- v` (R14). -/
def State.setResult (s : State) (v : Word) : State := { s with result := v }

/-- `raise IllegalCommand` (R281): `STATUS.ILL <- 1` and nothing else. -/
def State.raiseIllegal (s : State) : State := { s with status := s.status ||| 1 }

/-- A command that completes. -/
def done (s : State) : Host.Outcome State Fault Refusal := .next s

/-- The wire `sp_l` (R212). -/
def State.spL (s : State) : Word := s.outL

/-- The wire `sp_r` (R212). -/
def State.spR (s : State) : Word := s.outR

/-- The wire `sp_pcm` (R212). -/
def State.spPcm (s : State) : Word := s.outPcm

end Sys2Proof.Machine
end

