-- ==== Sys2Proof/Machine/Flags.lean ====
section
/-! DEFINITION. The status register (R43). The core has no condition codes (R44); the one flag is
`STATUS.ILL`, set by `IllegalCommand` (R281) and cleared by a host write of 1. -/

namespace Sys2Proof.Machine

/-- `STATUS.ILL`, bit 0 (R43). -/
def State.ill (s : State) : Bool := s.status.getLsbD 0

/-- What a host read of `STATUS` returns: the reserved bits [31:1] read as 0 (R43). -/
def State.readStatus (s : State) : Word := s.status &&& 1

/-- A host write of `v` to `STATUS`: `ILL <- ILL and not v[0]`; writes to the reserved bits are ignored
(R43). -/
def State.writeStatus (s : State) (v : Word) : State := { s with status := s.status &&& ~~~(v &&& 1) }

end Sys2Proof.Machine
end

