-- ==== Sys2Proof/Machine/Operands.lean ====
section
/-! DEFINITION. The operand forms: the operand word `D` of a command (R82) and the state elements `RD`
and `WR` name (R64, R231, R232). -/

namespace Sys2Proof.Machine

/-- The operand word `D`: the whole of `DATA` (R61, R82). -/
def State.operand (s : State) : Word := s.data

/-- `zext_32` of an integer element (R231). -/
def zextWord (n : Nat) : Word := BitVec.ofNat 32 n

/-- The encoding of `ENV_PHASE` (R29). -/
def phaseNumber : Phase → Nat
  | .init => 0
  | .noteOff => 1
  | .attack => 2
  | .decay => 3
  | .sustain => 4
  | .release => 5

/-- The word `RD` delivers for an element: a binary32 element bit for bit, an integer zero-extended
(R64, R231). -/
def State.readElement (s : State) : Element → Word
  | .firH k => s.memRead .firH k.toNat
  | .firX k => s.memRead .firX k.toNat
  | .iirC j => s.memRead .iirC j.val
  | .iirW j => s.memRead .iirW j.val
  | .envPhase => zextWord (phaseNumber s.env.phase)
  | .envLevel => s.env.level
  | .envAttackMs => s.env.attackMs
  | .envDecayMs => s.env.decayMs
  | .envSustain => s.env.sustain
  | .envReleaseMs => s.env.releaseMs
  | .envAttackInc => s.env.attackInc
  | .envDecayDec => s.env.decayDec
  | .envReleaseDec => s.env.releaseDec
  | .sampleRate => f32OfInt s.cfg.fs
  | .revWi c => zextWord (s.rev c).wi
  | .revDelay c => zextWord (revDelayOf s.cfg c)
  | .revFb c => (s.rev c).fb
  | .revMix c => (s.rev c).mix
  | .outL => s.outL
  | .outR => s.outR
  | .outPcm => s.outPcm
  | .cfgFirN => zextWord s.cfg.firN
  | .cfgIirStages => zextWord Params.iirStages
  | .cfgRevLen => zextWord s.cfg.revLen
  | .revBuf c i => s.memRead (.revBuf c) i.toNat

/-- Store a coefficient bit for bit (R232); `none` for an element that is not WR-mapped. -/
def State.writeElement (s : State) (v : Word) : Element → Option State
  | .firH k => if k.toNat < s.cfg.firN then some (s.memWrite .firH k.toNat v) else none
  | .iirC j => some (s.memWrite .iirC j.val v)
  | _ => none

end Sys2Proof.Machine
end

