-- ==== Sys2Proof/Machine/Access.lean ====
section
/-! DEFINITION. The access commands `NOP`, `RD` and `WR` (46_access.md). -/

namespace Sys2Proof.Machine

/-- `NOP` (R230): no state changes. -/
def execNop (s : State) : Host.Outcome State Fault Refusal := done s

/-- `RD` (R231): the element into `RESULT`; an element that is not RD-mapped raises
`IllegalCommand`. -/
def execRd (e : Element) (s : State) : Host.Outcome State Fault Refusal :=
  if e.mapped s.cfg then done (s.setResult (s.readElement e)) else done s.raiseIllegal

/-- `WR` (R232): `D` into the coefficient, bit for bit; any other element raises `IllegalCommand`. -/
def execWr (e : Element) (s : State) : Host.Outcome State Fault Refusal :=
  match s.writeElement s.operand e with
  | some t => done t
  | none => done s.raiseIllegal

end Sys2Proof.Machine
end

