-- ==== Sys2Proof/Machine/EnvParams.lean ====
section
/-! DEFINITION. The envelope's parameter commands (43_envelope_timer.md): each stores its parameter and
recomputes all three steps in one atomic step (R72, R172). The phase, the level and `RESULT` are not
touched (R179). -/

namespace Sys2Proof.Machine

/-- Give the envelope unit new parameters and recompute its steps (R172). -/
def withEnvParams (s : State) (e : EnvUnit) : State := { s with env := recomputeIncrements s.cfg e }

/-- `ENV_SET_ATTACK` (R175): the attack time, bit for bit. -/
def execEnvAtk (s : State) : Host.Outcome State Fault Refusal :=
  done (withEnvParams s { s.env with attackMs := s.operand })

/-- `ENV_SET_DECAY` (R176): the decay time, bit for bit. -/
def execEnvDec (s : State) : Host.Outcome State Fault Refusal :=
  done (withEnvParams s { s.env with decayMs := s.operand })

/-- `ENV_SET_SUSTAIN` (R178): the sustain level, saturated to [0, 1]. -/
def execEnvSus (s : State) : Host.Outcome State Fault Refusal :=
  done (withEnvParams s { s.env with sustain := sat s.cfg.subnormal s.operand f32Zero f32One })

/-- `ENV_SET_RELEASE` (R177): the release time, bit for bit. -/
def execEnvRel (s : State) : Host.Outcome State Fault Refusal :=
  done (withEnvParams s { s.env with releaseMs := s.operand })

end Sys2Proof.Machine
end

