-- ==== Sys2Proof/Machine/Iir.lean ====
section
/-! DEFINITION. The IIR cascade unit (41_iir.md): `IIR_PROC` and `IIR_RESET`. -/

namespace Sys2Proof.Machine

/-- The new history value of a section (R131, R133): `w = sat((v + na1*w1) + na2*w2, -10, 10)`. -/
def biquadHistory (m : SubnormalMode) (na1 na2 w1 w2 v : Word) : Word :=
  sat m (fadd m (fadd m v (fmul m na1 w1)) (fmul m na2 w2)) f32NegTen f32Ten

/-- The output of a section (R131, R135): `y = sat(((b0*w) + (b1*w1)) + (b2*w2), -10, 10)`. -/
def biquadOutput (m : SubnormalMode) (b0 b1 b2 w w1 w2 : Word) : Word :=
  sat m (fadd m (fadd m (fmul m b0 w) (fmul m b1 w1)) (fmul m b2 w2)) f32NegTen f32Ten

/-- One section of the cascade (R130): the output, with the section's two-sample history shifted. -/
def iirSection (sec : Nat) (v : Word) (s : State) : State × Word :=
  let m := s.cfg.subnormal
  let w1 := s.memRead .iirW (2 * sec)
  let w2 := s.memRead .iirW (2 * sec + 1)
  let w := biquadHistory m (s.memRead .iirC (5 * sec + 3)) (s.memRead .iirC (5 * sec + 4)) w1 w2 v
  let y := biquadOutput m (s.memRead .iirC (5 * sec)) (s.memRead .iirC (5 * sec + 1))
    (s.memRead .iirC (5 * sec + 2)) w w1 w2
  ((s.memWrite .iirW (2 * sec + 1) w1).memWrite .iirW (2 * sec) w, y)

/-- The cascade (R130): the input clamped once (R132), section 0 first, its output into section 1
(R135). -/
def iirStep (x : Word) (s : State) : State × Word :=
  let r0 := iirSection 0 (sat s.cfg.subnormal x f32NegTwo f32Two) s
  iirSection 1 r0.2 r0.1

/-- `IIR_PROC` (R130). -/
def execIirProc (s : State) : Host.Outcome State Fault Refusal :=
  let r := iirStep s.operand s
  done (r.1.setResult r.2)

/-- `IIR_RESET` (R136): all four history values to `+0.0`. -/
def execIirReset (s : State) : Host.Outcome State Fault Refusal :=
  done ((List.range 4).foldl (fun t j => t.memWrite .iirW j f32Zero) s)

end Sys2Proof.Machine
end

