-- ==== Sys2Proof/Machine/Envelope.lean ====
section
/-! DEFINITION. The envelope's events (42_envelope.md): `ENV_NOTE_ON`, `ENV_NOTE_OFF`, `ENV_TICK`, and
the tick it shares with the chain. -/

namespace Sys2Proof.Machine

/-- The phase arm of a tick (R154, R155): the level before the final clamp, and the next phase. -/
def envArm (m : SubnormalMode) (e : EnvUnit) : Word × Phase :=
  match e.phase with
  | .init => (f32Zero, .init)
  | .noteOff => (f32Zero, .noteOff)
  | .attack =>
    let l := fadd m e.level e.attackInc
    if fle m f32One l then (f32One, .decay) else (l, .attack)
  | .decay =>
    let l := fsub m e.level e.decayDec
    if fle m l e.sustain then (e.sustain, .sustain) else (l, .decay)
  | .sustain => (e.sustain, .sustain)
  | .release =>
    let l := fsub m e.level e.releaseDec
    if fle m l f32Zero then (f32Zero, .init) else (l, .release)

/-- `EnvTick` (R154): one phase arm, then the final clamp of the level into [0, 1] (R157). -/
def envTick (m : SubnormalMode) (e : EnvUnit) : EnvUnit :=
  let r := envArm m e
  { e with level := sat m r.1 f32Zero f32One, phase := r.2 }

/-- The phase after a note-off (R152): Release, but no change in Init and NoteOff. -/
def noteOffPhase : Phase → Phase
  | .init => .init
  | .noteOff => .noteOff
  | .attack => .release
  | .decay => .release
  | .sustain => .release
  | .release => .release

/-- `ENV_NOTE_ON` (R150): the phase to Attack; the level keeps its value. -/
def execEnvOn (s : State) : Host.Outcome State Fault Refusal :=
  done { s with env := { s.env with phase := .attack } }

/-- `ENV_NOTE_OFF` (R152). -/
def execEnvOff (s : State) : Host.Outcome State Fault Refusal :=
  done { s with env := { s.env with phase := noteOffPhase s.env.phase } }

/-- `ENV_TICK` (R154): the level after the tick into `RESULT`. -/
def execEnvTick (s : State) : Host.Outcome State Fault Refusal :=
  let e := envTick s.cfg.subnormal s.env
  done ({ s with env := e }.setResult e.level)

end Sys2Proof.Machine
end

