-- ==== Sys2Proof/Machine/Fir.lean ====
section
/-! DEFINITION. The FIR filter unit (40_fir.md): `FIR_PROC`, and the step it shares with the chain. -/

namespace Sys2Proof.Machine

/-- Take a sample into the history (R110, R113): LINEAR shifts the oldest sample out; CIRCULAR advances
the ring index and overwrites the oldest. The sample is stored bit for bit. -/
def firPush (p : Params) (x : Word) (u : FirUnit) : FirUnit :=
  match p.realization with
  | .linear => { u with ring := (x :: u.ring).take p.firN }
  | .circular =>
    let pos := (u.pos + 1) % p.firN
    { u with ring := u.ring.set pos x, pos := pos }

/-- The sum of R110: from `+0.0`, ascending k, the product and the sum rounded each (R112). -/
def firSum (s : State) : Word :=
  (List.range s.cfg.firN).foldl
    (fun acc k => fadd s.cfg.subnormal acc (fmul s.cfg.subnormal (s.memRead .firH k) (s.firX k)))
    f32Zero

/-- `FirStep` (R110). -/
def firStep (x : Word) (s : State) : State × Word :=
  let t := { s with fir := firPush s.cfg x s.fir }
  (t, firSum t)

/-- `FIR_PROC` (R110). -/
def execFirProc (s : State) : Host.Outcome State Fault Refusal :=
  let r := firStep s.operand s
  done (r.1.setResult r.2)

end Sys2Proof.Machine
end

