-- ==== Sys2Proof/Machine/Reverb.lean ====
section
/-! DEFINITION. The reverb units (44_reverb.md): `REV_PROC`, `REV_SET_FB`, `REV_SET_MIX`, and the step
`REV_PROC` shares with the chain. -/

namespace Sys2Proof.Machine

/-- The delayed sample (R190, R191): read at `(write_index - delay) mod REV_LEN`. -/
def delayedSample (len delay : Nat) (u : RevUnit) : Word := u.buf.getD (subMod u.wi delay len) 0

/-- `sat(x + (gain * d), -1.0, 1.0)`: the stored value with the feedback gain, the output with the mix
(R190, R195). -/
def mixed (m : SubnormalMode) (x gain d : Word) : Word :=
  sat m (fadd m x (fmul m gain d)) f32NegOne f32One

/-- A reverb's step (R190): the delayed sample is read before the write (R192), the write index advances
by one modulo `REV_LEN` (R194). -/
def revUnitStep (m : SubnormalMode) (len delay : Nat) (x : Word) (u : RevUnit) : RevUnit × Word :=
  let d := delayedSample len delay u
  ({ u with buf := u.buf.set u.wi (mixed m x u.fb d), wi := (u.wi + 1) % len }, mixed m x u.mix d)

/-- `RevStep(c, x)` (R190). -/
def revStep (c : Channel) (x : Word) (s : State) : State × Word :=
  let r := revUnitStep s.cfg.subnormal s.cfg.revLen (revDelayOf s.cfg c) x (s.rev c)
  (s.setRev c r.1, r.2)

/-- `REV_PROC` (R190). -/
def execRevProc (c : Channel) (s : State) : Host.Outcome State Fault Refusal :=
  let r := revStep c s.operand s
  done (r.1.setResult r.2)

/-- `REV_SET_FB` (R196): the feedback gain, saturated to [0, 0.98]. -/
def execRevFb (c : Channel) (s : State) : Host.Outcome State Fault Refusal :=
  done (s.setRev c { s.rev c with fb := sat s.cfg.subnormal s.operand f32Zero f32Gain })

/-- `REV_SET_MIX` (R198): the wet mix, saturated to [0, 1]. -/
def execRevMix (c : Channel) (s : State) : Host.Outcome State Fault Refusal :=
  done (s.setRev c { s.rev c with mix := sat s.cfg.subnormal s.operand f32Zero f32One })

end Sys2Proof.Machine
end

