-- ==== Sys2Proof/Machine/Pipeline.lean ====
section
/-! DEFINITION. The per-sample chain (45_pipeline.md): FIR, envelope multiply, REV0 and REV1, PCM output;
`PIPE_STEP` and the sample port run the same chain (R217). The IIR is no part of it (R215). -/

namespace Sys2Proof.Machine

/-- Clamp an integer into the signed 16-bit range (R214). -/
def clamp16 (p : Int) : Int := if p > 32767 then 32767 else if p < -32768 then -32768 else p

/-- `Pcm16` (R214): scale, truncate toward zero, saturate, keep 16 bits in two's complement. -/
def pcm16 (p : Params) (o : Word) : Half :=
  BitVec.ofInt 16 (clamp16 (truncToInt (fmul p.subnormal o p.pcmScale)))

/-- `OUT_PCM` of a pair of outputs: left in [15:0], right in [31:16] (R46, R210). -/
def packPcm (p : Params) (l r : Word) : Word := pcm16 p r ++ pcm16 p l

/-- `ChainStep` (R210): the FIR first, then the envelope tick whose level multiplies, then REV0, then
REV1 (R211). -/
def chainStep (x : Word) (s : State) : State :=
  let f := firStep x s
  let e := envTick s.cfg.subnormal f.1.env
  let m := fmul s.cfg.subnormal f.2 e.level
  let l := revStep .left m { f.1 with env := e }
  let r := revStep .right m l.1
  { r.1 with outL := l.2, outR := r.2, outPcm := packPcm s.cfg l.2 r.2 }

/-- `PIPE_STEP` (R210). -/
def execPipeStep (s : State) : Host.Outcome State Fault Refusal :=
  let t := chainStep s.operand s
  done (t.setResult t.outPcm)

end Sys2Proof.Machine
end

