-- ==== Sys2Proof/Machine/Dispatch.lean ====
section
/-! DEFINITION. The meaning of each command, one arm a constructor. -/

namespace Sys2Proof.Machine

def exec (i : Instr) (s : State) : Host.Outcome State Fault Refusal :=
  match i with
  | .nop => Sys2Proof.Machine.execNop s
  | .rd e => Sys2Proof.Machine.execRd e s
  | .wr e => Sys2Proof.Machine.execWr e s
  | .firProc => Sys2Proof.Machine.execFirProc s
  | .iirProc => Sys2Proof.Machine.execIirProc s
  | .iirReset => Sys2Proof.Machine.execIirReset s
  | .envOn => Sys2Proof.Machine.execEnvOn s
  | .envOff => Sys2Proof.Machine.execEnvOff s
  | .envTick => Sys2Proof.Machine.execEnvTick s
  | .envAtk => Sys2Proof.Machine.execEnvAtk s
  | .envDec => Sys2Proof.Machine.execEnvDec s
  | .envSus => Sys2Proof.Machine.execEnvSus s
  | .envRel => Sys2Proof.Machine.execEnvRel s
  | .revProc c => Sys2Proof.Machine.execRevProc c s
  | .revFb c => Sys2Proof.Machine.execRevFb c s
  | .revMix c => Sys2Proof.Machine.execRevMix c s
  | .pipeStep => Sys2Proof.Machine.execPipeStep s

end Sys2Proof.Machine
end

