-- ==== Sys2Proof/Machine/Port.lean ====
section
/-! DEFINITION. What an input does (R60-R62, R70, R212, R311): the host port's eight registers, the
sample-port pulse, and the reset input. -/

namespace Sys2Proof.Machine

/-- The registers of the host port (R61). -/
inductive PortReg where
  /-- Offset 0x00. -/
  | cmd
  /-- Offset 0x04. -/
  | data
  /-- Offset 0x08. -/
  | result
  /-- Offset 0x0C. -/
  | status
  /-- Offset 0x10. -/
  | outL
  /-- Offset 0x14. -/
  | outR
  /-- Offset 0x18. -/
  | outPcm
  /-- Offset 0x1C. -/
  | reserved
deriving DecidableEq, Repr

/-- Register number `r` of the block (R61). -/
def portRegOf (r : Nat) : PortReg :=
  match r with
  | 0 => .cmd
  | 1 => .data
  | 2 => .result
  | 3 => .status
  | 4 => .outL
  | 5 => .outR
  | 6 => .outPcm
  | _ => .reserved

/-- The register an offset from `BASE` selects: bits [1:0] are ignored, and an offset outside 0..0x1F
does not select the core (R62). -/
def portSelect (offset : Int) : Option PortReg :=
  if 0 ≤ offset ∧ offset ≤ 0x1F then some (portRegOf (offset.toNat / 4)) else none

/-- The offset of a host-bus byte address (R62: `addr - BASE`). -/
def busOffset (p : Params) (addr : Nat) : Int := (addr : Int) - (p.base : Int)

/-- What a host read of a port register returns (R61). -/
def State.portRead (s : State) : PortReg → Word
  | .cmd => 0
  | .data => s.data
  | .result => s.result
  | .status => s.readStatus
  | .outL => s.outL
  | .outR => s.outR
  | .outPcm => s.outPcm
  | .reserved => 0

/-- A host write of `CMD` (R61): decode, then execute as one atomic step; an illegal word raises
`IllegalCommand` before any effect (R281, R282). -/
def runCommand (w : Word) (s : State) : Host.Outcome State Fault Refusal :=
  match decode s.cfg w with
  | .ok i => exec i s
  | .error _ => .next s.raiseIllegal

/-- A host write of a port register (R61). -/
def portWrite (r : PortReg) (w : Word) (s : State) : Host.Outcome State Fault Refusal :=
  match r with
  | .cmd => runCommand w s
  | .data => .next { s with data := w }
  | .status => .next (s.writeStatus w)
  | .result => .next s
  | .outL => .next s
  | .outR => .next s
  | .outPcm => .next s
  | .reserved => .next s

/-- A host access (R61, R62). A read of a selected register gives the host its word and changes nothing
in the core; an access that does not select the core does nothing. -/
def portAccess (a : PortAccess) (s : State) : Host.Outcome State Fault Refusal :=
  match a with
  | .write offset w =>
    match portSelect offset with
    | some r => portWrite r w s
    | none => .next s
  | .read offset =>
    match portSelect offset with
    | some r => .next { s with readLog := s.readLog ++ [s.portRead r] }
    | none => .next s

/-- The reset input (R310, R311): every state element to its reset value; the configuration, the inputs
still to come and what the host has read are not state of the core. -/
def resetCore (s : State) : State :=
  { State.resetFor s.cfg with inputs := s.inputs, readLog := s.readLog }

/-- Take one input as one atomic step (R70). Of a coincident pair the pulse is this step and the host
access is left as the next input. -/
def takeInput (i : Input) (s : State) : Host.Outcome State Fault Refusal :=
  match i with
  | .host a => portAccess a s
  | .pulse x => .next (chainStep x s)
  | .coincident a x => .next { chainStep x s with inputs := .host a :: s.inputs }
  | .reset => .next (resetCore s)

/-- The host's write of a command word to `CMD`. -/
def commandInput (w : Word) : Input := .host (.write 0x00 w)

end Sys2Proof.Machine
end

