-- ==== Sys2Proof/Machine/Step.lean ====
section
/-! DEFINITION. One step of the core (R70): it takes the next input. The core fetches nothing (R21, R75):
a command comes from the host's write of `CMD`. -/

namespace Sys2Proof.Machine

/-- One step. With no input to come the core holds all its state (R297, log entry 4). -/
def step (s : State) : Host.Outcome State Fault Refusal :=
  match s.inputs with
  | [] => .next s
  | i :: rest => takeInput i { s with inputs := rest }

/-- The state in which the host's next access writes this command word to `CMD`, so that the next step
runs it (log entry 6). -/
def State.withFetchWord (s : State) (_nbits w : Nat) : State :=
  { s with inputs := commandInput (BitVec.ofNat 32 w) :: s.inputs }

end Sys2Proof.Machine
end

