-- ==== Sys2Proof/Machine/Assembler.lean ====
section
/-! DEFINITION. The command language (R90-R94): what each line emits as host port accesses, the operand
spellings, and the disassembly of a word. The core runs no program; a list of lines is what a host
does. -/

namespace Sys2Proof.Machine

/-- How an operand `D` is written (R91). -/
inductive OperandText where
  /-- `0x` and eight hex digits: the raw pattern. -/
  | pattern (w : Word)
  /-- A decimal literal, as its sign and its exact value `num / den`. -/
  | decimal (neg : Bool) (num den : Nat)
deriving DecidableEq, Repr

/-- The word an operand spelling stands for: a decimal literal is rounded to the nearest binary32, ties
to even (R91). -/
def operandWord : OperandText → Word
  | .pattern w => w
  | .decimal neg num den => roundResult .preserve neg (num * 2 ^ 149) den

/-- A line of the command language (R90, R92, R93). -/
inductive Line where
  /-- A command that takes no operand. -/
  | plain (i : Instr)
  /-- A command with its operand. -/
  | withOperand (i : Instr) (d : OperandText)
  /-- `.illegal`: any other word written to `CMD` (R94). -/
  | word (w : Word)
  /-- `rev.fb2 D`. -/
  | revFb2 (d : OperandText)
  /-- `rev.mix2 D`. -/
  | revMix2 (d : OperandText)
  /-- `fir.load v0, ..., v(N-1)`. -/
  | firLoad (vs : List OperandText)
  /-- `iir.load c0, ..., c9`. -/
  | iirLoad (vs : Vector OperandText 10)
  /-- `env.adsr A, Dt, S, R`. -/
  | envAdsr (a dt s r : OperandText)
  /-- `clr.ill`. -/
  | clrIll
  /-- `rd.out`. -/
  | rdOut
  /-- `port.w OFFSET, VALUE`. -/
  | portW (offset : Nat) (v : Word)
  /-- `port.r OFFSET`. -/
  | portR (offset : Nat)
deriving Repr

/-- A command's host writes (R92): `DATA` then `CMD` for a command with an operand, only `CMD` for one
without. -/
def emitCommand (i : Instr) (d : Word) : List PortAccess :=
  if usesData i then [.write 0x04 d, .write 0x00 (encode i)] else [.write 0x00 (encode i)]

/-- The host accesses a line emits (R90, R92, R93). -/
def emitLine : Line → List PortAccess
  | .plain i => [.write 0x00 (encode i)]
  | .withOperand i d => emitCommand i (operandWord d)
  | .word w => [.write 0x00 w]
  | .revFb2 d => emitCommand (.revFb .left) (operandWord d) ++ emitCommand (.revFb .right) (operandWord d)
  | .revMix2 d =>
    emitCommand (.revMix .left) (operandWord d) ++ emitCommand (.revMix .right) (operandWord d)
  | .firLoad vs =>
    vs.zipIdx.flatMap fun v => emitCommand (.wr (.firH (BitVec.ofNat 12 v.2))) (operandWord v.1)
  | .iirLoad vs =>
    (List.finRange 10).flatMap fun j => emitCommand (.wr (.iirC j)) (operandWord vs[j])
  | .envAdsr a dt s r =>
    emitCommand .envAtk (operandWord a) ++ emitCommand .envDec (operandWord dt) ++
    emitCommand .envSus (operandWord s) ++ emitCommand .envRel (operandWord r)
  | .clrIll => [.write 0x0C 1]
  | .rdOut => [.read 0x10, .read 0x14]
  | .portW offset v => [.write offset v]
  | .portR offset => [.read offset]

/-- The inputs a list of lines gives the core, no pulse among them. -/
def emitLines (ls : List Line) : List Input := (ls.flatMap emitLine).map .host

/-- `n` hex digits of a number, most significant first. -/
def hexDigits (n v : Nat) : String :=
  String.ofList ((List.range n).map fun i => "0123456789ABCDEF".toList.getD (v / 16 ^ (n - 1 - i) % 16) '0')

/-- A word as `0x` and eight hex digits. -/
def hexWord (w : Word) : String := "0x" ++ hexDigits 8 w.toNat

/-- The symbolic name of an index (R91). -/
def symbolicName : Element → String
  | .firH k => "FIR_H+" ++ toString k.toNat
  | .firX k => "FIR_X+" ++ toString k.toNat
  | .iirC j => "IIR_C+" ++ toString j.val
  | .iirW j => "IIR_W+" ++ toString j.val
  | .envPhase => "ENV_PHASE"
  | .envLevel => "ENV_LEVEL"
  | .envAttackMs => "ENV_ATTACK_MS"
  | .envDecayMs => "ENV_DECAY_MS"
  | .envSustain => "ENV_SUSTAIN"
  | .envReleaseMs => "ENV_RELEASE_MS"
  | .envAttackInc => "ENV_ATTACK_INC"
  | .envDecayDec => "ENV_DECAY_DEC"
  | .envReleaseDec => "ENV_RELEASE_DEC"
  | .sampleRate => "FS"
  | .revWi c => "REV_WI+" ++ toString (channelNumber c)
  | .revDelay c => "REV_DELAY+" ++ toString (channelNumber c)
  | .revFb c => "REV_FB+" ++ toString (channelNumber c)
  | .revMix c => "REV_MIX+" ++ toString (channelNumber c)
  | .outL => "OUT_L"
  | .outR => "OUT_R"
  | .outPcm => "OUT_PCM"
  | .cfgFirN => "CFG_FIR_N"
  | .cfgIirStages => "CFG_IIR_STAGES"
  | .cfgRevLen => "CFG_REV_LEN"
  | .revBuf c i => "REV" ++ toString (channelNumber c) ++ "_BUF+" ++ toString i.toNat

/-- The mnemonic of a command (R90). -/
def mnemonic : Instr → String
  | .nop => "nop"
  | .rd _ => "rd"
  | .wr _ => "wr"
  | .firProc => "fir.proc"
  | .iirProc => "iir.proc"
  | .iirReset => "iir.reset"
  | .envOn => "env.on"
  | .envOff => "env.off"
  | .envTick => "env.tick"
  | .envAtk => "env.atk"
  | .envDec => "env.dec"
  | .envSus => "env.sus"
  | .envRel => "env.rel"
  | .revProc _ => "rev.proc"
  | .revFb _ => "rev.fb"
  | .revMix _ => "rev.mix"
  | .pipeStep => "pipe.step"

/-- The operands of a command as printed (R94): `IDX` in hex, `CH` as a number, `D` as a pattern. -/
def operandTexts (i : Instr) (d : Word) : List String :=
  let field : List String := match i with
    | .rd e => ["0x" ++ hexDigits 4 (elementIndex e).toNat]
    | .wr e => ["0x" ++ hexDigits 4 (elementIndex e).toNat]
    | .revProc c => [toString (channelNumber c)]
    | .revFb c => [toString (channelNumber c)]
    | .revMix c => [toString (channelNumber c)]
    | _ => []
  if usesData i then field ++ [hexWord d] else field

/-- Disassemble a word, with the `DATA` word that preceded it (R94). -/
def disassemble (p : Params) (w d : Word) : String :=
  match decode p w with
  | .ok i =>
    match operandTexts i d with
    | [] => mnemonic i
    | ts => mnemonic i ++ " " ++ String.intercalate ", " ts
  | .error _ => ".illegal " ++ hexWord w

end Sys2Proof.Machine
end

