-- ==== Sys2Proof/Safety.lean ====
section
/-! DEFINITION. What the spec promises of every state of a run: value ranges, derived steps, reserved bits
(R27, R30, R32, R33, R35, R38, R39, R43, R45, R46). Claims are stated in these terms. -/

namespace Sys2Proof.Machine

/-- The value is no NaN and lies in [lo, hi], compared as R11 and R12 compare. -/
def inRange (m : SubnormalMode) (lo v hi : Word) : Prop := fle m lo v = true ∧ fle m v hi = true

/-- `IIR_W` in [-10, 10] (R27, R134). -/
def IirUnit.Bounded (m : SubnormalMode) (u : IirUnit) : Prop :=
  ∀ j : Fin 4, inRange m f32NegTen u.w[j] f32Ten

/-- `ENV_LEVEL` and `ENV_SUSTAIN` in [0, 1] (R30, R32). -/
def EnvUnit.Bounded (m : SubnormalMode) (u : EnvUnit) : Prop :=
  inRange m f32Zero u.level f32One ∧ inRange m f32Zero u.sustain f32One

/-- `REV_BUF` in [-1, 1], `REV_FB` in [0, 0.98], `REV_MIX` in [0, 1] (R35, R38, R39). -/
def RevUnit.Bounded (m : SubnormalMode) (u : RevUnit) : Prop :=
  (∀ v ∈ u.buf, inRange m f32NegOne v f32One) ∧
  inRange m f32Zero u.fb f32Gain ∧ inRange m f32Zero u.mix f32One

/-- Every bounded state element is inside its bounds (R27, R30, R32, R35, R38, R39, R45). -/
def State.Bounded (s : State) : Prop :=
  s.iir.Bounded s.cfg.subnormal ∧ s.env.Bounded s.cfg.subnormal ∧
  s.rev0.Bounded s.cfg.subnormal ∧ s.rev1.Bounded s.cfg.subnormal ∧
  inRange s.cfg.subnormal f32NegOne s.outL f32One ∧ inRange s.cfg.subnormal f32NegOne s.outR f32One

/-- The three steps are what R172 derives from the parameters (R33). -/
def State.StepsDerived (s : State) : Prop := recomputeIncrements s.cfg s.env = s.env

/-- `OUT_PCM` is derived from `OUT_L` and `OUT_R` (R46), and the reserved bits of `STATUS` are 0
(R43). -/
def State.PortConsistent (s : State) : Prop :=
  s.outPcm = packPcm s.cfg s.outL s.outR ∧ s.status &&& 0xFFFFFFFE = 0

/-- The invariant of the core: a legal configuration, arrays of their configured lengths with indices in
range, and every promise above. -/
def State.Inv (s : State) : Prop :=
  s.cfg.Legal ∧ Memory.wf s = true ∧ s.Bounded ∧ s.StepsDerived ∧ s.PortConsistent

/-- `n` steps, each of which answers a next state, lead from `s` to `t`. -/
def Reaches : Nat → State → State → Prop
  | 0, s, t => s = t
  | n + 1, s, t => ∃ u, step s = .next u ∧ Reaches n u t

/-- A run so far without an illegal command: `ILL` is clear (R43, R281). -/
def State.NoIllegal (s : State) : Prop := s.ill = false

end Sys2Proof.Machine
end

