-- ==== Sys2Proof/Certificates/Slice0/Obligations.lean ====
section
/-! DEFINITION. The statements for the provers. Each says which rule of spec/ it formalises. -/

namespace Sys2Proof.Claims

open Sys2Proof.Machine

/-- R171 with R173's guard: the sample count of a time. -/
def sampleCount (p : Params) (t : Word) : Word :=
  let n := fdiv p.subnormal (fmul p.subnormal t (f32OfInt p.fs)) 0x447A0000
  if isNaN n = true ∨ flt p.subnormal n 0x3F800000 = true then 0x3F800000 else n

/-- The state of R310's table under a configuration, row by row. -/
def ResetTable (p : Params) (t : State) : Prop :=
  t.cfg = p ∧
  (t.fir.h = List.replicate p.firN 0 ∧ t.fir.ring = List.replicate p.firN 0 ∧ t.fir.pos = 0 ∧
    ∀ k, k < p.firN → t.firX k = 0) ∧
  ((∀ j : Fin 10, t.iir.c[j] = 0) ∧ ∀ j : Fin 4, t.iir.w[j] = 0) ∧
  (t.env.phase = .init ∧ t.env.level = 0 ∧ t.env.attackMs = p.attackMsRst ∧
    t.env.decayMs = p.decayMsRst ∧ t.env.releaseMs = p.releaseMsRst ∧
    t.env.sustain = sat p.subnormal p.sustainRst f32Zero f32One) ∧
  (t.env.attackInc = fdiv p.subnormal f32One (sampleCount p t.env.attackMs) ∧
    t.env.decayDec =
      fdiv p.subnormal (fsub p.subnormal f32One t.env.sustain) (sampleCount p t.env.decayMs) ∧
    t.env.releaseDec = fdiv p.subnormal t.env.sustain (sampleCount p t.env.releaseMs)) ∧
  (p.fs = 44100 → t.readElement .sampleRate = 0x472C4400) ∧
  (∀ c : Channel, (t.rev c).buf = List.replicate p.revLen 0 ∧ (t.rev c).wi = 0 ∧
    (t.rev c).fb = 0 ∧ (t.rev c).mix = 0) ∧
  t.data = 0 ∧ t.result = 0 ∧ t.status = 0 ∧ t.ill = false ∧ t.outL = 0 ∧ t.outR = 0 ∧ t.outPcm = 0

/-- R29's encoding of the phases. -/
def phaseWord : Phase → Word
  | .init => 0x00000000
  | .noteOff => 0x00000001
  | .attack => 0x00000002
  | .decay => 0x00000003
  | .sustain => 0x00000004
  | .release => 0x00000005

/-- R64's table by number: the word `RD` of index `n` delivers, or `none` where `n` is unmapped. -/
def tableRead (s : State) (n : Nat) : Option Word :=
  if n < s.cfg.firN then some (s.memRead .firH n)
  else if 0x1000 ≤ n ∧ n < 0x1000 + s.cfg.firN then some (s.firX (n - 0x1000))
  else if 0x2000 ≤ n ∧ n < 0x200A then some (s.memRead .iirC (n - 0x2000))
  else if 0x2010 ≤ n ∧ n < 0x2014 then some (s.memRead .iirW (n - 0x2010))
  else if n = 0x3000 then some (phaseWord s.env.phase)
  else if n = 0x3001 then some s.env.level
  else if n = 0x3002 then some s.env.attackMs
  else if n = 0x3003 then some s.env.decayMs
  else if n = 0x3004 then some s.env.sustain
  else if n = 0x3005 then some s.env.releaseMs
  else if n = 0x3006 then some s.env.attackInc
  else if n = 0x3007 then some s.env.decayDec
  else if n = 0x3008 then some s.env.releaseDec
  else if n = 0x3009 then some (f32OfInt s.cfg.fs)
  else if n = 0x4000 then some (BitVec.ofNat 32 s.rev0.wi)
  else if n = 0x4001 then some (BitVec.ofNat 32 s.cfg.revDelay0)
  else if n = 0x4002 then some s.rev0.fb
  else if n = 0x4003 then some s.rev0.mix
  else if n = 0x4010 then some (BitVec.ofNat 32 s.rev1.wi)
  else if n = 0x4011 then some (BitVec.ofNat 32 s.cfg.revDelay1)
  else if n = 0x4012 then some s.rev1.fb
  else if n = 0x4013 then some s.rev1.mix
  else if n = 0x5000 then some s.outL
  else if n = 0x5001 then some s.outR
  else if n = 0x5002 then some s.outPcm
  else if n = 0x6000 then some (BitVec.ofNat 32 s.cfg.firN)
  else if n = 0x6001 then some 2
  else if n = 0x6002 then some (BitVec.ofNat 32 s.cfg.revLen)
  else if 0x8000 ≤ n ∧ n < 0x8000 + s.cfg.revLen then some (s.memRead (.revBuf .left) (n - 0x8000))
  else if 0xA000 ≤ n ∧ n < 0xA000 + s.cfg.revLen then some (s.memRead (.revBuf .right) (n - 0xA000))
  else none

/-- The index is RD-mapped, by number (R64). -/
def readMapped (p : Params) (n : Nat) : Prop :=
  n < p.firN ∨ (0x1000 ≤ n ∧ n < 0x1000 + p.firN) ∨ (0x2000 ≤ n ∧ n < 0x200A) ∨
  (0x2010 ≤ n ∧ n < 0x2014) ∨ (0x3000 ≤ n ∧ n ≤ 0x3009) ∨ (0x4000 ≤ n ∧ n ≤ 0x4003) ∨
  (0x4010 ≤ n ∧ n ≤ 0x4013) ∨ (0x5000 ≤ n ∧ n ≤ 0x5002) ∨ (0x6000 ≤ n ∧ n ≤ 0x6002) ∨
  (0x8000 ≤ n ∧ n < 0x8000 + p.revLen) ∨ (0xA000 ≤ n ∧ n < 0xA000 + p.revLen)

/-- The index is WR-mapped, by number (R64, R232). -/
def writeMapped (p : Params) (n : Nat) : Prop := n < p.firN ∨ (0x2000 ≤ n ∧ n < 0x200A)

/-- The operation codes of R84 whose rows demand `CH = 0` and `IDX = 0`. -/
def plainOpcodes : List (BitVec 8) :=
  [0x00, 0x10, 0x20, 0x21, 0x30, 0x31, 0x32, 0x38, 0x39, 0x3A, 0x3B, 0x50]

/-- The word is one of R84's commands, by its fields (R87). -/
def legalWord (p : Params) (w : Word) : Prop :=
  (opField w ∈ plainOpcodes ∧ chField w = 0 ∧ idxField w = 0) ∨
  (opField w = 0x01 ∧ chField w = 0 ∧ readMapped p (idxField w).toNat) ∨
  (opField w = 0x02 ∧ chField w = 0 ∧ writeMapped p (idxField w).toNat) ∨
  (opField w ∈ [0x40, 0x41, 0x42] ∧ (chField w = 0 ∨ chField w = 1) ∧ idxField w = 0)

/-- Only element `i` of space `sp` may differ, and it holds `v`: every other element of every space, and
everything that is in no space, is as before. -/
def OneElementWritten (s t : State) (sp : Space) (i : Nat) (v : Word) : Prop :=
  t.memRead sp i = v ∧
  (∀ sq j, j < spaceLength s.cfg sq → (sq, j) ≠ (sp, i) → t.memRead sq j = s.memRead sq j) ∧
  t.cfg = s.cfg ∧ t.fir.pos = s.fir.pos ∧ t.env = s.env ∧
  (t.rev0.wi = s.rev0.wi ∧ t.rev0.fb = s.rev0.fb ∧ t.rev0.mix = s.rev0.mix) ∧
  (t.rev1.wi = s.rev1.wi ∧ t.rev1.fb = s.rev1.fb ∧ t.rev1.mix = s.rev1.mix) ∧
  t.data = s.data ∧ t.result = s.result ∧ t.status = s.status ∧
  t.outL = s.outL ∧ t.outR = s.outR ∧ t.outPcm = s.outPcm ∧
  t.inputs = s.inputs ∧ t.readLog = s.readLog

/-- Two states with the same architectural view: equal but for the FIR realization and how it keeps the
history, with the same `FIR_X` (R25). -/
def SameView (s t : State) : Prop :=
  s.cfg.Legal ∧ Memory.wf s = true ∧ Memory.wf t = true ∧
  { t with
    cfg := { t.cfg with realization := s.cfg.realization }
    fir := { t.fir with ring := s.fir.ring, pos := s.fir.pos } } = s ∧
  ∀ k, k < s.cfg.firN → t.firX k = s.firX k

/-- The value is a zero of either sign. -/
def isZero (w : Word) : Prop := w = 0x00000000 ∨ w = 0x80000000

/-- The subnormal patterns: exponent field 0 and a nonzero fraction (R9). -/
def isSubnormal (w : Word) : Prop := expField w = 0 ∧ fracField w ≠ 0

/-- The value of a finite pattern as a whole number of units of 2^-149; `none` for a NaN or an infinity
(R9). -/
def realOf (w : Word) : Option Int :=
  if expField w = 255 then none
  else
    let mag : Int := if expField w = 0 then fracField w else (2 ^ 23 + fracField w) * 2 ^ (expField w - 1)
    some (if signBit w then -mag else mag)

/-- The infinity of a sign: `true` is negative. -/
def infinity (neg : Bool) : Word := if neg then 0xFF800000 else 0x7F800000

/-- `r` is finite, no binary32 value is nearer to `exact / den`, and where another value is as near, the
fraction of `r` is even (R10). -/
def NearestTo (r : Word) (den exact : Int) : Prop :=
  ∃ v, realOf r = some v ∧ ∀ (w : Word) (u : Int), realOf w = some u →
    (v * den - exact).natAbs ≤ (u * den - exact).natAbs ∧
    ((v * den - exact).natAbs = (u * den - exact).natAbs → u ≠ v → fracField r % 2 = 0)

/-- `r` is `exact / den` rounded (R10), with sign `neg`: below the midpoint past the largest finite value a
nearest value, and from that midpoint on an infinity. -/
def RoundsTo (r : Word) (den exact : Int) (neg : Bool) : Prop :=
  (exact.natAbs < (2 ^ 25 - 1) * 2 ^ 252 * den.natAbs → NearestTo r den exact ∧ signBit r = neg) ∧
  ((2 ^ 25 - 1) * 2 ^ 252 * den.natAbs ≤ exact.natAbs → r = infinity neg)

/-- The sign of a sum: that of the exact sum, and of a zero sum `-` only where both operands are `-`
(R10). -/
def sumSign (sum : Int) (aNeg bNeg : Bool) : Bool := if sum = 0 then aNeg && bNeg else decide (sum < 0)

/-- One unit in the last place of a finite pattern, in units of 2^-149 (R163). -/
def ulpOf (w : Word) : Int := 2 ^ (max (expField w) 1 - 1)

/-- `FS` is a positive integer that binary32 represents exactly (R6). -/
def ExactRate (p : Params) : Prop :=
  1 ≤ p.fs ∧ p.fs < 2 ^ 128 ∧ p.fs % 2 ^ (Nat.log2 p.fs - 23) = 0

/-- A time that gives no more than one sample (R173): a NaN, a negative time, or `t * FS <= 1000`. -/
def ShortTime (p : Params) (t : Word) : Prop :=
  isNaN t = true ∨ signBit t = true ∨ ∃ x, realOf t = some x ∧ x * p.fs ≤ 1000 * 2 ^ 149

/-- The level and phase a tick's phase arm gives (R155): one clause a row, the conditions as R156
compares. -/
def PhaseArm (m : SubnormalMode) (e : EnvUnit) (l : Word) (ph : Phase) : Prop :=
  ((e.phase = .init ∨ e.phase = .noteOff) → l = 0x00000000 ∧ ph = e.phase) ∧
  (e.phase = .attack → fle m 0x3F800000 (fadd m e.level e.attackInc) = true →
    l = 0x3F800000 ∧ ph = .decay) ∧
  (e.phase = .attack → fle m 0x3F800000 (fadd m e.level e.attackInc) = false →
    l = fadd m e.level e.attackInc ∧ ph = .attack) ∧
  (e.phase = .decay → fle m (fsub m e.level e.decayDec) e.sustain = true →
    l = e.sustain ∧ ph = .sustain) ∧
  (e.phase = .decay → fle m (fsub m e.level e.decayDec) e.sustain = false →
    l = fsub m e.level e.decayDec ∧ ph = .decay) ∧
  (e.phase = .sustain → l = e.sustain ∧ ph = .sustain) ∧
  (e.phase = .release → fle m (fsub m e.level e.releaseDec) 0x00000000 = true →
    l = 0x00000000 ∧ ph = .init) ∧
  (e.phase = .release → fle m (fsub m e.level e.releaseDec) 0x00000000 = false →
    l = fsub m e.level e.releaseDec ∧ ph = .release)

/-- The envelope with its three steps recomputed from these parameters (R172). -/
def stepsRecomputed (p : Params) (e : EnvUnit) : EnvUnit :=
  { e with
    attackInc := fdiv p.subnormal 0x3F800000 (sampleCount p e.attackMs)
    decayDec := fdiv p.subnormal (fsub p.subnormal 0x3F800000 e.sustain) (sampleCount p e.decayMs)
    releaseDec := fdiv p.subnormal e.sustain (sampleCount p e.releaseMs) }

/-- The commands that write each unit's state (R47, R63). -/
def writesFir : Instr → Bool
  | .wr _ | .firProc | .pipeStep => true
  | _ => false

/-- The commands that write the IIR's state. -/
def writesIir : Instr → Bool
  | .wr _ | .iirProc | .iirReset => true
  | _ => false

/-- The commands that write the envelope's state. -/
def writesEnv : Instr → Bool
  | .envOn | .envOff | .envTick | .envAtk | .envDec | .envSus | .envRel | .pipeStep => true
  | _ => false

/-- The commands that write a reverb's state: its own `REV_*` commands and the chain. -/
def writesRev (c : Channel) : Instr → Bool
  | .revProc d | .revFb d | .revMix d => decide (c = d)
  | .pipeStep => true
  | _ => false

/-- The commands that write the outputs. -/
def writesOutputs : Instr → Bool
  | .pipeStep => true
  | _ => false

end Sys2Proof.Claims

open Sys2Proof Sys2Proof.Machine Sys2Proof.Claims

/-- R61, R70: a host write to `CMD` of a word that decodes to a command is one step, that command's
meaning, with the input taken and nothing else around it. -/
def Obligations.StepRunsCommandWrittenToCmd : Prop :=
  ∀ (s : State) (offset : Int) (w : Word) (rest : List Input) (i : Instr),
    s.inputs = .host (.write offset w) :: rest → 0 ≤ offset → offset ≤ 3 → decode s.cfg w = .ok i →
    step s = exec i { s with inputs := rest }

/-- R85: words written out from the opcode map decode to their commands. -/
def Obligations.HandEncodedWordsDecode : Prop :=
  ∀ p : Params, p.Legal → 4 ≤ p.firN →
    decode p 0x02000003 = .ok (.wr (.firH 3)) ∧ decode p 0x02002003 = .ok (.wr (.iirC 3)) ∧
    decode p 0x01003009 = .ok (.rd .sampleRate) ∧ decode p 0x10000000 = .ok .firProc ∧
    decode p 0x21000000 = .ok .iirReset ∧ decode p 0x3A000000 = .ok .envSus ∧
    decode p 0x40010000 = .ok (.revProc .right) ∧ decode p 0x50000000 = .ok .pipeStep

/-- R310, R311: the state after reset is R310's table, for this hardware's reset state and for the
reset input from any state. -/
def Obligations.ResetLeavesTheListedValues : Prop :=
  ResetTable Config.params State.reset ∧
  ∀ (s : State) (rest : List Input), s.inputs = .reset :: rest →
    ∃ t, step s = .next t ∧ ResetTable s.cfg t ∧ t.inputs = rest ∧ t.readLog = s.readLog

/-- The reset state of this hardware meets the invariant (R310, R27-R46). -/
def Obligations.ResetMeetsTheInvariant : Prop := State.reset.Inv

/-- R230: `NOP` is the all-zero word, changes nothing, and any other word with `OP = 0x00` is illegal. -/
def Obligations.NopChangesNothing : Prop :=
  (∀ p : Params, decode p 0x00000000 = .ok .nop) ∧ (∀ s : State, exec .nop s = .next s) ∧
  ∀ (p : Params) (w : Word) (i : Instr), opField w = 0x00 → w ≠ 0 → decode p w ≠ .ok i

/-- R231: `RD` of every index of R64 delivers its element into `RESULT` (the phase as R29 numbers it) and
changes nothing else; an unmapped index, or a nonzero `CH`, is illegal. -/
def Obligations.RdDeliversEveryMappedElement : Prop :=
  (∀ (s : State) (e : Element), e.mapped s.cfg = true →
    exec (.rd e) s = .next { s with result := s.readElement e }) ∧
  (∀ (s : State) (idx : BitVec 16), s.cfg.Legal →
    runCommand (0x01#8 ++ 0x00#8 ++ idx) s =
      match tableRead s idx.toNat with
      | some v => .next { s with result := v }
      | none => .next { s with status := s.status ||| 1 }) ∧
  (∀ (s : State) (ch : BitVec 8) (idx : BitVec 16), ch ≠ 0 →
    runCommand (0x01#8 ++ ch ++ idx) s = .next { s with status := s.status ||| 1 }) ∧
  ∀ p : Params, p.Legal → p.fs = 44100 →
    runCommand 0x01003009 (State.resetFor p) = .next { State.resetFor p with result := 0x472C4400 } ∧
    runCommand 0x01003000 (State.resetFor p) = .next (State.resetFor p)

/-- R232: `WR` stores `DATA` bit for bit into the coefficient its index names, disturbs nothing else,
and is illegal for every other index and for a nonzero `CH`. -/
def Obligations.WrStoresCoefficientBitForBit : Prop :=
  (∀ (s : State) (k : BitVec 12), Memory.wf s = true → k.toNat < s.cfg.firN →
    ∃ t, exec (.wr (.firH k)) s = .next t ∧ OneElementWritten s t .firH k.toNat s.data) ∧
  (∀ (s : State) (j : Fin 10), Memory.wf s = true →
    ∃ t, exec (.wr (.iirC j)) s = .next t ∧ OneElementWritten s t .iirC j.val s.data) ∧
  (∀ (s : State) (idx : BitVec 16), s.cfg.Legal → Memory.wf s = true →
    (idx.toNat < s.cfg.firN → ∃ t, runCommand (0x02#8 ++ 0x00#8 ++ idx) s = .next t ∧
      OneElementWritten s t .firH idx.toNat s.data) ∧
    (0x2000 ≤ idx.toNat ∧ idx.toNat < 0x200A → ∃ t, runCommand (0x02#8 ++ 0x00#8 ++ idx) s = .next t ∧
      OneElementWritten s t .iirC (idx.toNat - 0x2000) s.data) ∧
    (¬ writeMapped s.cfg idx.toNat →
      runCommand (0x02#8 ++ 0x00#8 ++ idx) s = .next { s with status := s.status ||| 1 })) ∧
  (∀ (s : State) (ch : BitVec 8) (idx : BitVec 16), ch ≠ 0 →
    runCommand (0x02#8 ++ ch ++ idx) s = .next { s with status := s.status ||| 1 })

/-- R110, R111, R112: `FIR_PROC` takes `DATA` into the history unaltered, drops the oldest sample, and
delivers the sum of `h[k] * x[n-k]`, ascending k from `+0.0`; nothing else changes. -/
def Obligations.FirProcConvolvesTheHistory : Prop :=
  (∀ p : Params, decode p 0x10000000 = .ok .firProc) ∧
  ∀ s : State, s.cfg.Legal → Memory.wf s = true →
    ∃ t, exec .firProc s = .next t ∧
      t.firX 0 = s.data ∧ (∀ k, k + 1 < s.cfg.firN → t.firX (k + 1) = s.firX k) ∧
      t.result = (List.range s.cfg.firN).foldl
        (fun acc k => fadd s.cfg.subnormal acc
          (fmul s.cfg.subnormal (s.memRead .firH k) (if k = 0 then s.data else s.firX (k - 1))))
        0x00000000 ∧
      t.fir.h = s.fir.h ∧ { t with fir := s.fir, result := s.result } = s

/-- R113, R25: the two FIR realizations cannot be told apart: from states with the same architectural
view, whatever the next input, both steps answer and the views stay the same, `RESULT` and every word
read among them. -/
def Obligations.FirRealizationsCannotBeToldApart : Prop :=
  ∀ s t : State, SameView s t →
    ∃ s' t', step s = .next s' ∧ step t = .next t' ∧ SameView s' t'

/-- R116: a `FIR_PROC` whose every product is a zero of either sign delivers `+0.0`. -/
def Obligations.FirOfZeroProductsIsPositiveZero : Prop :=
  ∀ s : State, s.cfg.Legal → Memory.wf s = true →
    (∀ k, k < s.cfg.firN →
      isZero (fmul s.cfg.subnormal (s.memRead .firH k) (if k = 0 then s.data else s.firX (k - 1)))) →
    ∃ t, exec .firProc s = .next t ∧ t.result = 0x00000000

/-- R130, R131: `IIR_PROC` clamps the input once, runs section 0 and then section 1 with R131's
bracketing and clamps, shifts each section's history, and changes nothing else. -/
def Obligations.IirProcRunsTheCascade : Prop :=
  (∀ p : Params, decode p 0x20000000 = .ok .iirProc) ∧
  ∀ s : State,
    let m := s.cfg.subnormal
    let v := sat m s.data 0xC0000000 0x40000000
    let w0 := sat m (fadd m (fadd m v (fmul m s.iir.c[3] s.iir.w[0])) (fmul m s.iir.c[4] s.iir.w[1]))
      0xC1200000 0x41200000
    let y0 := sat m (fadd m (fadd m (fmul m s.iir.c[0] w0) (fmul m s.iir.c[1] s.iir.w[0]))
      (fmul m s.iir.c[2] s.iir.w[1])) 0xC1200000 0x41200000
    let w1 := sat m (fadd m (fadd m y0 (fmul m s.iir.c[8] s.iir.w[2])) (fmul m s.iir.c[9] s.iir.w[3]))
      0xC1200000 0x41200000
    let y1 := sat m (fadd m (fadd m (fmul m s.iir.c[5] w1) (fmul m s.iir.c[6] s.iir.w[2]))
      (fmul m s.iir.c[7] s.iir.w[3])) 0xC1200000 0x41200000
    exec .iirProc s =
      .next { s with result := y1, iir := { s.iir with w := #v[w0, s.iir.w[0], w1, s.iir.w[2]] } }

/-- R134: from a bounded history, `IIR_PROC` leaves a bounded history and a bounded result, for any
coefficients and any input. -/
def Obligations.IirStaysWithinTen : Prop :=
  ∀ s : State, s.iir.Bounded s.cfg.subnormal →
    ∃ t, exec .iirProc s = .next t ∧ t.iir.Bounded s.cfg.subnormal ∧
      inRange s.cfg.subnormal f32NegTen t.result f32Ten

/-- R136: `IIR_RESET` zeroes the four history values, leaves the coefficients, `RESULT` and everything
else, and is idempotent. -/
def Obligations.IirResetZeroesTheHistory : Prop :=
  (∀ p : Params, decode p 0x21000000 = .ok .iirReset) ∧
  ∀ s : State, ∃ t, exec .iirReset s = .next t ∧ t.iir.w = #v[0, 0, 0, 0] ∧ t.iir.c = s.iir.c ∧
    { t with iir := s.iir } = s ∧ exec .iirReset t = .next t

/-- R150: `ENV_NOTE_ON` goes to Attack from any phase; the level and everything else keep their value. -/
def Obligations.NoteOnEntersAttack : Prop :=
  (∀ p : Params, decode p 0x30000000 = .ok .envOn) ∧
  ∀ s : State, exec .envOn s = .next { s with env := { s.env with phase := .attack } }

/-- R152, R153: `ENV_NOTE_OFF` goes to Release from Attack, Decay, Sustain and Release, and changes
nothing at all in Init and NoteOff. -/
def Obligations.NoteOffEntersRelease : Prop :=
  (∀ p : Params, decode p 0x31000000 = .ok .envOff) ∧
  ∀ s : State,
    (s.env.phase = .init ∨ s.env.phase = .noteOff → exec .envOff s = .next s) ∧
    (s.env.phase ∈ [Phase.attack, .decay, .sustain, .release] →
      exec .envOff s = .next { s with env := { s.env with phase := .release } })

/-- R154, R155, R157: `ENV_TICK` runs one phase arm, clamps the level into [0, 1], delivers it in
`RESULT`, and changes nothing else. -/
def Obligations.EnvTickRunsOnePhaseArm : Prop :=
  (∀ p : Params, decode p 0x32000000 = .ok .envTick) ∧
  ∀ s : State, ∃ l ph, PhaseArm s.cfg.subnormal s.env l ph ∧
    exec .envTick s = .next { s with
      env := { s.env with level := sat s.cfg.subnormal l 0x00000000 0x3F800000, phase := ph }
      result := sat s.cfg.subnormal l 0x00000000 0x3F800000 }

/-- R30, R157: after every `ENV_TICK` the level is in [0, 1] and no NaN, whatever the state was. -/
def Obligations.EnvTickLevelStaysInUnitInterval : Prop :=
  ∀ s : State, ∃ t, exec .envTick s = .next t ∧ t.result = t.env.level ∧
    inRange s.cfg.subnormal f32Zero t.env.level f32One

/-- R161: no event enters NoteOff: a step from another phase ends in another phase. -/
def Obligations.NoStepEntersNoteOff : Prop :=
  ∀ s t : State, s.env.phase ≠ .noteOff → step s = .next t → t.env.phase ≠ .noteOff

/-- R159: in Sustain a tick writes the sustain level to the level, so a new sustain level shows at the
next tick. -/
def Obligations.SustainFollowsTheParameter : Prop :=
  ∀ s : State, s.env.phase = .sustain → inRange s.cfg.subnormal f32Zero s.data f32One →
    s.data = daz s.cfg.subnormal s.data →
    ∃ t u, exec .envSus s = .next t ∧ exec .envTick t = .next u ∧ u.env.level = s.data ∧
      u.env.phase = .sustain

/-- R160: in Decay at level 1.0 with the sustain at 1.0 and a `+0.0` decay step, a tick enters Sustain at
once, with the level still 1.0. -/
def Obligations.DecayAtFullSustainEndsAtOnce : Prop :=
  ∀ s : State, s.env.phase = .decay → s.env.level = 0x3F800000 → s.env.sustain = 0x3F800000 →
    s.env.decayDec = 0x00000000 →
    exec .envTick s = .next { s with env := { s.env with phase := .sustain }, result := 0x3F800000 }

/-- R163: an attack step below half an ulp of the level, or of half an ulp where the tie rounds back to an
even level, leaves the level and the phase, as does a decay step of at most 2^-25 from the level 1.0; the
attack step of 1.0e6 ms stops so at the level 0.5. -/
def Obligations.AttackStallsBelowHalfAnUlp : Prop :=
  (∀ (s : State) (y : Int), s.env.phase = .attack → signBit s.env.level = false →
    flt s.cfg.subnormal s.env.level 0x3F800000 = true → daz s.cfg.subnormal s.env.level = s.env.level →
    realOf s.env.attackInc = some y → 0 ≤ y →
    2 * y < ulpOf s.env.level ∨ (2 * y = ulpOf s.env.level ∧ fracField s.env.level % 2 = 0) →
    exec .envTick s = .next { s with result := s.env.level }) ∧
  (∀ (s : State) (y : Int), s.env.phase = .decay → s.env.level = 0x3F800000 →
    flt s.cfg.subnormal s.env.sustain 0x3F800000 = true →
    realOf s.env.decayDec = some y → 0 ≤ y → y ≤ 2 ^ 124 →
    exec .envTick s = .next { s with result := 0x3F800000 }) ∧
  (∀ p : Params, p.fs = 44100 → attackStep p 0x49742400 = 0x32C2C879) ∧
  ∀ s : State, s.env.phase = .attack → s.env.level = 0x3F000000 → s.env.attackInc = 0x32C2C879 →
    exec .envTick s = .next { s with result := 0x3F000000 }

/-- R158: in Release with a `+0.0` release step and a level above 0, a tick leaves the phase and the
level as they are, so it does not end the release. -/
def Obligations.ReleaseWithZeroStepNeverEnds : Prop :=
  ∀ s : State, s.env.phase = .release → s.env.releaseDec = 0x00000000 →
    flt s.cfg.subnormal f32Zero s.env.level = true → fle s.cfg.subnormal s.env.level f32One = true →
    exec .envTick s = .next { s with result := s.env.level }

/-- R175, R176, R177 with R172: each time command stores `DATA` bit for bit and recomputes the three
steps from R171's sample counts; nothing else changes. -/
def Obligations.TimeCommandsStoreAndRecompute : Prop :=
  (∀ p : Params, decode p 0x38000000 = .ok .envAtk ∧ decode p 0x39000000 = .ok .envDec ∧
    decode p 0x3B000000 = .ok .envRel) ∧
  ∀ s : State,
    exec .envAtk s = .next { s with env := stepsRecomputed s.cfg { s.env with attackMs := s.data } } ∧
    exec .envDec s = .next { s with env := stepsRecomputed s.cfg { s.env with decayMs := s.data } } ∧
    exec .envRel s = .next { s with env := stepsRecomputed s.cfg { s.env with releaseMs := s.data } }

/-- R178 with R172: `ENV_SET_SUSTAIN` stores `DATA` saturated to [0, 1] and recomputes the three steps;
above 1.0 it stores 1.0, below 0.0 or NaN it stores 0.0, and otherwise the operand. -/
def Obligations.SustainCommandSaturatesAndRecomputes : Prop :=
  (∀ p : Params, decode p 0x3A000000 = .ok .envSus) ∧
  ∀ s : State, ∃ v,
    exec .envSus s = .next { s with env := stepsRecomputed s.cfg { s.env with sustain := v } } ∧
    inRange s.cfg.subnormal f32Zero v f32One ∧
    (flt s.cfg.subnormal 0x3F800000 s.data = true → v = 0x3F800000) ∧
    (flt s.cfg.subnormal s.data 0x00000000 = true ∨ isNaN s.data = true → v = 0x00000000) ∧
    (inRange s.cfg.subnormal f32Zero s.data f32One → v = daz s.cfg.subnormal s.data)

/-- R171, R172, R173: the sample count is `(t * f32(FS)) / 1000.0`, `f32(FS)` is `FS` exactly, and a time of
no more than one sample counts as exactly one, so its attack step is 1.0, its decay step `1.0 - S` and
its release step `S`. -/
def Obligations.ShortTimesCountAsOneSample : Prop :=
  (∀ (p : Params) (t : Word), samples p t = sampleCount p t) ∧
  (∀ p : Params, ExactRate p → realOf (f32OfInt p.fs) = some ((p.fs : Int) * 2 ^ 149)) ∧
  ∀ (p : Params) (t : Word), ExactRate p → ShortTime p t →
    samples p t = 0x3F800000 ∧ attackStep p t = 0x3F800000 ∧
    ∀ sustain : Word, inRange p.subnormal f32Zero sustain f32One → daz p.subnormal sustain = sustain →
      decayStep p sustain t = fsub p.subnormal 0x3F800000 sustain ∧ releaseStep p sustain t = sustain

/-- R174: for every stored time and every sustain level in [0, 1], the three steps are in [0, 1] and
no NaN. -/
def Obligations.StepsLieInUnitInterval : Prop :=
  ∀ (p : Params) (sustain t : Word), inRange p.subnormal f32Zero sustain f32One →
    inRange p.subnormal f32Zero (attackStep p t) f32One ∧
    inRange p.subnormal f32Zero (decayStep p sustain t) f32One ∧
    inRange p.subnormal f32Zero (releaseStep p sustain t) f32One

/-- R190, R192, R194, R195: `REV_PROC` reads the delayed sample before it writes, stores the saturated
feedback sum at the write index, advances the index, delivers the saturated dry plus wet sum, and
touches neither the other reverb nor anything else. -/
def Obligations.RevProcRunsTheDelayLine : Prop :=
  (∀ p : Params, decode p 0x40000000 = .ok (.revProc .left) ∧
    decode p 0x40010000 = .ok (.revProc .right)) ∧
  ∀ (s : State) (c : Channel), Memory.wf s = true →
    ∃ t, exec (.revProc c) s = .next t ∧
      let m := s.cfg.subnormal
      let u := s.rev c
      let d := s.memRead (.revBuf c)
        ((((u.wi : Int) - (revDelayOf s.cfg c : Int)) % (s.cfg.revLen : Int)).toNat)
      t.result = sat m (fadd m s.data (fmul m u.mix d)) 0xBF800000 0x3F800000 ∧
      t.memRead (.revBuf c) u.wi = sat m (fadd m s.data (fmul m u.fb d)) 0xBF800000 0x3F800000 ∧
      (∀ j, j ≠ u.wi → t.memRead (.revBuf c) j = s.memRead (.revBuf c) j) ∧
      (t.rev c).wi = (u.wi + 1) % s.cfg.revLen ∧ (t.rev c).fb = u.fb ∧ (t.rev c).mix = u.mix ∧
      (∀ e, e ≠ c → t.rev e = s.rev e) ∧
      { t with rev0 := s.rev0, rev1 := s.rev1, result := s.result } = s

/-- R193: from a buffer in [-1, 1], `REV_PROC` leaves a buffer in [-1, 1] and a result in [-1, 1], for
every input, NaN and infinities among them. -/
def Obligations.RevProcStaysWithinOne : Prop :=
  ∀ (s : State) (c : Channel), (∀ v ∈ (s.rev c).buf, inRange s.cfg.subnormal f32NegOne v f32One) →
    ∃ t, exec (.revProc c) s = .next t ∧
      (∀ v ∈ (t.rev c).buf, inRange s.cfg.subnormal f32NegOne v f32One) ∧
      inRange s.cfg.subnormal f32NegOne t.result f32One

/-- R192: the offsets 0 and `REV_LEN` behave identically. -/
def Obligations.OffsetZeroActsAsRevLen : Prop :=
  ∀ (s : State) (c : Channel), Memory.wf s = true →
    let zero : Params := { s.cfg with revDelay0 := 0, revDelay1 := 0 }
    let full : Params := { s.cfg with revDelay0 := s.cfg.revLen, revDelay1 := s.cfg.revLen }
    ∃ t : State, exec (.revProc c) { s with cfg := zero } = .next { t with cfg := zero } ∧
      exec (.revProc c) { s with cfg := full } = .next { t with cfg := full }

/-- R196: `REV_SET_FB` stores `DATA` saturated to [0, 0.98] as the channel's feedback gain; the buffer,
the write index, the other reverb and everything else are as before. -/
def Obligations.RevSetFbSaturatesTheGain : Prop :=
  (∀ p : Params, decode p 0x41000000 = .ok (.revFb .left) ∧ decode p 0x41010000 = .ok (.revFb .right)) ∧
  ∀ (s : State) (c : Channel), ∃ t v, exec (.revFb c) s = .next t ∧
    t.rev c = { s.rev c with fb := v } ∧ v = sat s.cfg.subnormal s.data 0x00000000 0x3F7AE148 ∧
    inRange s.cfg.subnormal f32Zero v f32Gain ∧
    (flt s.cfg.subnormal 0x3F7AE148 s.data = true → v = 0x3F7AE148) ∧
    (flt s.cfg.subnormal s.data 0x00000000 = true ∨ isNaN s.data = true → v = 0x00000000) ∧
    (inRange s.cfg.subnormal f32Zero s.data f32Gain → v = daz s.cfg.subnormal s.data) ∧
    (∀ e, e ≠ c → t.rev e = s.rev e) ∧ { t with rev0 := s.rev0, rev1 := s.rev1 } = s

/-- R198: `REV_SET_MIX` stores `DATA` saturated to [0, 1] as the channel's wet mix; the buffer, the
write index, the other reverb and everything else are as before. -/
def Obligations.RevSetMixSaturatesTheMix : Prop :=
  (∀ p : Params, decode p 0x42000000 = .ok (.revMix .left) ∧ decode p 0x42010000 = .ok (.revMix .right)) ∧
  ∀ (s : State) (c : Channel), ∃ t v, exec (.revMix c) s = .next t ∧
    t.rev c = { s.rev c with mix := v } ∧ v = sat s.cfg.subnormal s.data 0x00000000 0x3F800000 ∧
    inRange s.cfg.subnormal f32Zero v f32One ∧
    (flt s.cfg.subnormal 0x3F800000 s.data = true → v = 0x3F800000) ∧
    (flt s.cfg.subnormal s.data 0x00000000 = true ∨ isNaN s.data = true → v = 0x00000000) ∧
    (inRange s.cfg.subnormal f32Zero s.data f32One → v = daz s.cfg.subnormal s.data) ∧
    (∀ e, e ≠ c → t.rev e = s.rev e) ∧ { t with rev0 := s.rev0, rev1 := s.rev1 } = s

/-- R194: each of `k` pulses advances both write indices by one modulo `REV_LEN`; from reset they are then
`k mod REV_LEN`. -/
def Obligations.WriteIndexCountsChainSteps : Prop :=
  (∀ (s : State) (xs : List Word) (rest : List Input), Memory.wf s = true →
    s.inputs = xs.map .pulse ++ rest →
    ∃ t, Reaches xs.length s t ∧ t.inputs = rest ∧
      t.rev0.wi = (s.rev0.wi + xs.length) % s.cfg.revLen ∧
      t.rev1.wi = (s.rev1.wi + xs.length) % s.cfg.revLen) ∧
  ∀ (p : Params) (xs : List Word), p.Legal →
    ∃ t, Reaches xs.length { State.resetFor p with inputs := xs.map .pulse } t ∧
      t.rev0.wi = xs.length % p.revLen ∧ t.rev1.wi = xs.length % p.revLen

/-- R210, R211: `PIPE_STEP` is `FIR_PROC`, then `ENV_TICK`, then the product of their results into
`REV_PROC` of REV0 and of REV1; its outputs are theirs, and `RESULT` is the packed pair of samples. -/
def Obligations.PipeStepComposesTheUnits : Prop :=
  (∀ p : Params, decode p 0x50000000 = .ok .pipeStep) ∧
  ∀ s : State, ∃ a b l r, exec .firProc s = .next a ∧ exec .envTick a = .next b ∧
    let x := fmul s.cfg.subnormal a.result b.result
    exec (.revProc .left) { b with data := x } = .next l ∧ exec (.revProc .right) l = .next r ∧
    let pcm := pcm16 s.cfg r.result ++ pcm16 s.cfg l.result
    exec .pipeStep s =
      .next { r with data := s.data, outL := l.result, outR := r.result, outPcm := pcm, result := pcm }

/-- R212, R217: a sample-port pulse is the chain step `PIPE_STEP` would run on `sp_x`, but `DATA`,
`RESULT` and `STATUS` keep their values, and the outputs show on the port's wires. -/
def Obligations.PulseIsTheSameChain : Prop :=
  ∀ (s : State) (x : Word) (rest : List Input), s.inputs = .pulse x :: rest →
    ∃ t u, exec .pipeStep { s with data := x, inputs := rest } = .next t ∧ step s = .next u ∧
      u = { t with data := s.data, result := s.result } ∧ u.status = s.status ∧
      u.spL = t.outL ∧ u.spR = t.outR ∧ u.spPcm = t.outPcm

/-- R215, R139: a pulse neither writes nor reads the IIR: it leaves the coefficients and the history, and
every other part of the next state is the same whatever they hold. -/
def Obligations.ChainIgnoresTheIir : Prop :=
  ∀ (s : State) (u : IirUnit) (x : Word) (rest : List Input), s.inputs = .pulse x :: rest →
    ∃ t, step s = .next t ∧ t.iir = s.iir ∧ step { s with iir := u } = .next { t with iir := u }

/-- R215: a pulse writes no tap, no envelope parameter or step, no reverb gain, no `DATA`, no `STATUS`,
and no `RESULT` (R212). -/
def Obligations.PulseLeavesParametersAlone : Prop :=
  ∀ (s : State) (x : Word) (rest : List Input), s.inputs = .pulse x :: rest →
    ∃ t, step s = .next t ∧ t.cfg = s.cfg ∧ t.fir.h = s.fir.h ∧ t.iir = s.iir ∧
      { t.env with level := s.env.level, phase := s.env.phase } = s.env ∧
      (∀ c, (t.rev c).fb = (s.rev c).fb ∧ (t.rev c).mix = (s.rev c).mix) ∧
      t.data = s.data ∧ t.result = s.result ∧ t.status = s.status ∧ t.readLog = s.readLog ∧
      t.inputs = rest

/-- R214, R15: with a legal `PCM_SCALE` the sample of an output in [-1, 1] is the scaled output truncated
toward zero, and the 16-bit saturation never acts on it. -/
def Obligations.PcmSaturationNeverActs : Prop :=
  ∀ (p : Params) (o : Word), p.Legal → inRange p.subnormal f32NegOne o f32One →
    ∃ v, realOf (fmul p.subnormal o p.pcmScale) = some v ∧
      let q := (pcm16 p o).toInt
      (-32767 ≤ q ∧ q ≤ 32767) ∧ q = truncToInt (fmul p.subnormal o p.pcmScale) ∧
      (0 ≤ v → q * 2 ^ 149 ≤ v ∧ v < (q + 1) * 2 ^ 149) ∧
      (v < 0 → (q - 1) * 2 ^ 149 < v ∧ v ≤ q * 2 ^ 149)

/-- R281, R287: a word that is no legal command sets `STATUS.ILL` and changes nothing else; the input is
taken and the core goes on. -/
def Obligations.IllegalWordOnlySetsIll : Prop :=
  ∀ (s : State) (offset : Int) (w : Word) (rest : List Input),
    s.inputs = .host (.write offset w) :: rest → 0 ≤ offset → offset ≤ 3 → s.cfg.Legal →
    ¬ legalWord s.cfg w →
    ∃ t, step s = .next t ∧ t.ill = true ∧ t.status = s.status ||| 1 ∧
      { t with status := s.status } = { s with inputs := rest }

/-- R83, R87, R88: decoding is total and exact: a word decodes to a command exactly when its fields are
those of a row of R84. -/
def Obligations.DecodingAcceptsExactlyTheTable : Prop :=
  ∀ (p : Params) (w : Word), p.Legal → ((∃ i, decode p w = .ok i) ↔ legalWord p w)

/-- R282: decoding depends on the word, `FIR_N` and `REV_LEN` only. -/
def Obligations.LegalityIgnoresOtherParameters : Prop :=
  ∀ (p q : Params) (w : Word), p.firN = q.firN → p.revLen = q.revLen → decode p w = decode q w

/-- R84: every well-formed command decodes back from its encoding, with every operand. -/
def Obligations.DecodeOfEncodeIsTheCommand : Prop :=
  ∀ (p : Params) (i : Instr), Instr.wf p i = true → decode p (encode i) = .ok i

/-- R83, R85: each word has one meaning: a word that decodes is the encoding of its command, which is
well-formed. -/
def Obligations.EncodeOfDecodeIsTheWord : Prop :=
  ∀ (p : Params) (w : Word) (i : Instr), decode p w = .ok i → encode i = w ∧ Instr.wf p i = true

/-- R66: byte lane `b` is bits [8b+7:8b] of the word, and the four lanes in address order decode as the
word. -/
def Obligations.ByteLanesCarryTheWord : Prop :=
  (∀ (w : Word) (b : Fin 4) (i : Nat), i < 8 → (byteLane w b).getLsbD i = w.getLsbD (8 * b.val + i)) ∧
  (∀ b0 b1 b2 b3 : Byte, (wordOfLanes b0 b1 b2 b3).toNat =
    b0.toNat + 2 ^ 8 * b1.toNat + 2 ^ 16 * b2.toNat + 2 ^ 24 * b3.toNat) ∧
  ∀ (p : Params) (w : Word) (rest : List Byte),
    wordOfLanes (byteLane w 0) (byteLane w 1) (byteLane w 2) (byteLane w 3) = w ∧
    decodeBytes p (byteLane w 0 :: byteLane w 1 :: byteLane w 2 :: byteLane w 3 :: rest) =
      (decode p w).map (·, rest)

/-- Every step keeps the invariant: legal configuration, arrays of their lengths with indices in range,
every bounded element in its bounds, steps derived, PCM consistent, reserved STATUS bits 0. -/
def Obligations.EveryStepKeepsTheInvariant : Prop :=
  ∀ s t : State, s.Inv → step s = .next t → t.Inv

/-- R280, R325, R326: the core never stops: every step, whatever the state and the input, answers a next
state. -/
def Obligations.EveryStepAnswersNext : Prop := ∀ s : State, ∃ t, step s = .next t

/-- R86: a command whose RESULT column says no, an illegal word, a pulse, and every host access but a
write of `CMD` leave `RESULT` as it was. -/
def Obligations.ResultIsWrittenOnlyByItsCommands : Prop :=
  (∀ (i : Instr) (s t : State), writesResult i = false → exec i s = .next t → t.result = s.result) ∧
  (∀ (s t : State) (w : Word), (∀ i, decode s.cfg w ≠ .ok i) → runCommand w s = .next t →
    t.result = s.result) ∧
  (∀ (s t : State) (x : Word) (rest : List Input), s.inputs = .pulse x :: rest → step s = .next t →
    t.result = s.result) ∧
  ∀ (s t : State) (a : PortAccess) (rest : List Input), s.inputs = .host a :: rest →
    (∀ offset w, a = .write offset w → ¬ (0 ≤ offset ∧ offset ≤ 3)) → step s = .next t →
    t.result = s.result

/-- R41, R18: no command writes `DATA`, the configuration, the inputs to come or what the host has
read. -/
def Obligations.CommandsNeverWriteData : Prop :=
  ∀ (i : Instr) (s t : State), exec i s = .next t →
    t.data = s.data ∧ t.cfg = s.cfg ∧ t.inputs = s.inputs ∧ t.readLog = s.readLog

/-- R43, R281: a legal command leaves `STATUS` as it was. -/
def Obligations.LegalCommandsLeaveStatus : Prop :=
  ∀ (i : Instr) (s t : State), Instr.wf s.cfg i = true → exec i s = .next t → t.status = s.status

/-- R47: no command writes the state of a unit other than those its rule names. -/
def Obligations.UnitsAreWrittenOnlyByTheirCommands : Prop :=
  ∀ (i : Instr) (s t : State), exec i s = .next t →
    (writesFir i = false → t.fir = s.fir) ∧ (writesIir i = false → t.iir = s.iir) ∧
    (writesEnv i = false → t.env = s.env) ∧ (∀ c, writesRev c i = false → t.rev c = s.rev c) ∧
    (writesOutputs i = false → t.outL = s.outL ∧ t.outR = s.outR ∧ t.outPcm = s.outPcm)

/-- R61, R62: a host read at any byte address of the block returns its register's word and changes
nothing in the core; an address outside the block does not select the core. -/
def Obligations.PortReadsReturnTheirRegister : Prop :=
  ∀ (s : State) (addr : Nat) (rest : List Input),
    s.inputs = .host (.read (busOffset s.cfg addr)) :: rest →
    (∀ n, addr = s.cfg.base + n → n < 0x20 →
      step s = .next { s with
        inputs := rest
        readLog := s.readLog ++ [match n / 4 with
          | 0 => 0x00000000 | 1 => s.data | 2 => s.result | 3 => s.status &&& 1
          | 4 => s.outL | 5 => s.outR | 6 => s.outPcm | _ => 0x00000000] }) ∧
    (addr < s.cfg.base ∨ s.cfg.base + 0x20 ≤ addr → step s = .next { s with inputs := rest })

/-- R61, R62: a host write of `DATA` stores the word; writes of the read-only and reserved registers are
ignored; an address outside the block does not select the core. -/
def Obligations.PortWritesOutsideCmdAndStatus : Prop :=
  ∀ (s : State) (addr : Nat) (w : Word) (rest : List Input),
    s.inputs = .host (.write (busOffset s.cfg addr) w) :: rest →
    (∀ n, addr = s.cfg.base + n → n / 4 = 1 → step s = .next { s with inputs := rest, data := w }) ∧
    (∀ n, addr = s.cfg.base + n → n / 4 = 2 ∨ (4 ≤ n / 4 ∧ n / 4 ≤ 7) →
      step s = .next { s with inputs := rest }) ∧
    (addr < s.cfg.base ∨ s.cfg.base + 0x20 ≤ addr → step s = .next { s with inputs := rest })

/-- R43: a host write of `v` to `STATUS` makes `ILL` into `ILL and not v[0]`, ignores the reserved bits,
and changes nothing else; a read shows the reserved bits as 0. -/
def Obligations.StatusWriteOneClearsIll : Prop :=
  ∀ (s : State) (offset : Int) (v : Word) (rest : List Input),
    s.inputs = .host (.write offset v) :: rest → 0x0C ≤ offset → offset ≤ 0x0F →
    ∃ t, step s = .next t ∧ t.ill = (s.ill && !v.getLsbD 0) ∧
      (∀ n, 1 ≤ n → t.status.getLsbD n = s.status.getLsbD n) ∧
      t.readStatus = (if t.ill then 1 else 0) ∧
      { t with status := s.status } = { s with inputs := rest }

/-- R70, R286: of a host access and a pulse in the same cycle the pulse is the first step and the access
the next, which sees every effect of the pulse. -/
def Obligations.CoincidentPulseGoesFirst : Prop :=
  ∀ (s : State) (a : PortAccess) (x : Word) (rest : List Input), s.inputs = .coincident a x :: rest →
    ∃ t, step s = .next t ∧ step { s with inputs := .pulse x :: .host a :: rest } = .next t ∧
      t.inputs = .host a :: rest

/-- R297, R326, log entry 4 (the model's own reading): with no input to come a step changes nothing. -/
def Obligations.NoInputHoldsAllState : Prop := ∀ s : State, s.inputs = [] → step s = .next s

/-- R12: a NaN result of `+`, `-`, `*` or `/` is the default NaN, as for a NaN operand and for R12's invalid
cases; a comparison with a NaN operand is false. -/
def Obligations.NanResultsAreTheDefaultNan : Prop :=
  (∀ (m : SubnormalMode) (a b : Word),
    (isNaN (fadd m a b) = true → fadd m a b = 0x7FC00000) ∧
    (isNaN (fsub m a b) = true → fsub m a b = 0x7FC00000) ∧
    (isNaN (fmul m a b) = true → fmul m a b = 0x7FC00000) ∧
    (isNaN (fdiv m a b) = true → fdiv m a b = 0x7FC00000)) ∧
  (∀ (m : SubnormalMode) (a b : Word), isNaN a = true ∨ isNaN b = true →
    fadd m a b = 0x7FC00000 ∧ fsub m a b = 0x7FC00000 ∧ fmul m a b = 0x7FC00000 ∧
    fdiv m a b = 0x7FC00000 ∧ flt m a b = false ∧ fle m a b = false) ∧
  ∀ m : SubnormalMode,
    fsub m 0x7F800000 0x7F800000 = 0x7FC00000 ∧ fmul m 0x00000000 0x7F800000 = 0x7FC00000 ∧
    fdiv m 0x00000000 0x00000000 = 0x7FC00000 ∧ fdiv m 0x7F800000 0x7F800000 = 0x7FC00000

/-- R11: FLUSH is gradual underflow between two flushes: every operator and comparison acts on operands
whose subnormals are zeros of their sign, and a subnormal result becomes a zero of its sign. -/
def Obligations.FlushIsGradualUnderflowBetweenFlushes : Prop :=
  (∀ a b : Word,
    fadd .flush a b = daz .flush (fadd .preserve (daz .flush a) (daz .flush b)) ∧
    fsub .flush a b = daz .flush (fsub .preserve (daz .flush a) (daz .flush b)) ∧
    fmul .flush a b = daz .flush (fmul .preserve (daz .flush a) (daz .flush b)) ∧
    fdiv .flush a b = daz .flush (fdiv .preserve (daz .flush a) (daz .flush b)) ∧
    flt .flush a b = flt .preserve (daz .flush a) (daz .flush b) ∧
    fle .flush a b = fle .preserve (daz .flush a) (daz .flush b)) ∧
  (∀ w : Word, isSubnormal w → daz .flush w = w &&& 0x80000000) ∧
  ∀ w : Word, ¬ isSubnormal w → daz .flush w = w

/-- R10: on finite operands each operator delivers the exact result rounded to nearest, ties to even: finite
below the overflow midpoint and an infinity from there on, with the sign of the exact result also where
the result is zero; a division by zero is an infinity, or for `0 / 0` the default NaN (R12). -/
def Obligations.OperatorsRoundToNearestEven : Prop :=
  ∀ (a b : Word) (x y : Int), realOf a = some x → realOf b = some y →
    RoundsTo (fadd .preserve a b) 1 (x + y) (sumSign (x + y) (signBit a) (signBit b)) ∧
    RoundsTo (fsub .preserve a b) 1 (x - y) (sumSign (x - y) (signBit a) (!signBit b)) ∧
    RoundsTo (fmul .preserve a b) (2 ^ 149) (x * y) (signBit a ^^ signBit b) ∧
    (y ≠ 0 → RoundsTo (fdiv .preserve a b) y (x * 2 ^ 149) (signBit a ^^ signBit b)) ∧
    (y = 0 → x ≠ 0 → fdiv .preserve a b = infinity (signBit a ^^ signBit b)) ∧
    (y = 0 → x = 0 → fdiv .preserve a b = 0x7FC00000)

/-- R90, R92: the host accesses a well-formed command emits with its operand run that command on that
operand: `DATA` then `CMD` where the command reads `D`, only `CMD` where it does not. -/
def Obligations.EmittedAccessesRunTheCommand : Prop :=
  ∀ (s : State) (i : Instr) (d : Word) (rest : List Input), Instr.wf s.cfg i = true →
    s.inputs = (emitCommand i d).map .host ++ rest →
    ∃ t, exec i { s with inputs := rest, data := if usesData i then d else s.data } = .next t ∧
      Reaches (emitCommand i d).length s t

/-- R12, R156: on finite operands `<` and `<=` are the order of the values, and the infinities are its two
ends; under FLUSH the operands are first replaced as R11 says. -/
def Obligations.ComparisonsFollowTheValues : Prop :=
  (∀ (m : SubnormalMode) (a b : Word) (x y : Int),
    realOf (daz m a) = some x → realOf (daz m b) = some y →
    (flt m a b = true ↔ x < y) ∧ (fle m a b = true ↔ x ≤ y)) ∧
  (∀ (m : SubnormalMode) (a : Word) (x : Int), realOf a = some x →
    (flt m (infinity true) a = true ∧ fle m (infinity true) a = true ∧
      flt m a (infinity true) = false ∧ fle m a (infinity true) = false) ∧
    (flt m a (infinity false) = true ∧ fle m a (infinity false) = true ∧
      flt m (infinity false) a = false ∧ fle m (infinity false) a = false)) ∧
  ∀ (m : SubnormalMode) (s t : Bool),
    (flt m (infinity s) (infinity t) = true ↔ s = true ∧ t = false) ∧
    (fle m (infinity s) (infinity t) = true ↔ s = true ∨ t = false)

/-- R10, R12: an infinite operand gives the infinity of its sign in a sum or difference with a finite
operand, an infinity of the operands' combined sign in a product with a nonzero one and as a dividend, and
a zero as a divisor; infinities agree in a sum, combine in a product, and are otherwise invalid. -/
def Obligations.InfiniteOperandsFollowTheirSigns : Prop :=
  (∀ (m : SubnormalMode) (s : Bool) (b : Word) (y : Int), realOf (daz m b) = some y →
    (fadd m (infinity s) b = infinity s ∧ fadd m b (infinity s) = infinity s) ∧
    (fsub m (infinity s) b = infinity s ∧ fsub m b (infinity s) = infinity (!s)) ∧
    (y ≠ 0 → fmul m (infinity s) b = infinity (s ^^ signBit b) ∧
      fmul m b (infinity s) = infinity (signBit b ^^ s)) ∧
    (y = 0 → fmul m (infinity s) b = 0x7FC00000 ∧ fmul m b (infinity s) = 0x7FC00000) ∧
    fdiv m (infinity s) b = infinity (s ^^ signBit b) ∧
    fdiv m b (infinity s) = if signBit b ^^ s then 0x80000000 else 0x00000000) ∧
  ∀ (m : SubnormalMode) (s t : Bool),
    fadd m (infinity s) (infinity t) = (if s = t then infinity s else 0x7FC00000) ∧
    fsub m (infinity s) (infinity t) = (if s = t then 0x7FC00000 else infinity s) ∧
    fmul m (infinity s) (infinity t) = infinity (s ^^ t) ∧
    fdiv m (infinity s) (infinity t) = 0x7FC00000
end

