-- ==== Sys2Proof/Laws/Decode.lean ====
section
/-! SUPPORT. The fields of an assembled word and the element an index names, each said once. -/

namespace Sys2Proof

theorem cmdWord_toNat (op ch : BitVec 8) (idx : BitVec 16) :
    (cmdWord op ch idx).toNat = op.toNat * 2 ^ 24 + ch.toNat * 2 ^ 16 + idx.toNat := by
  have h1 := ch.isLt
  have h2 := idx.isLt
  simp only [cmdWord, BitVec.toNat_append]
  rw [← Nat.shiftLeft_add_eq_or_of_lt h1, ← Nat.shiftLeft_add_eq_or_of_lt h2, Nat.shiftLeft_eq,
    Nat.shiftLeft_eq]
  omega

@[simp] theorem opField_cmdWord (op ch : BitVec 8) (idx : BitVec 16) :
    opField (cmdWord op ch idx) = op := by
  have h1 := op.isLt
  have h2 := ch.isLt
  have h3 := idx.isLt
  apply BitVec.eq_of_toNat_eq
  rw [opField, BitVec.extractLsb'_toNat, cmdWord_toNat, Nat.shiftRight_eq_div_pow]
  omega

@[simp] theorem chField_cmdWord (op ch : BitVec 8) (idx : BitVec 16) :
    chField (cmdWord op ch idx) = ch := by
  have h1 := op.isLt
  have h2 := ch.isLt
  have h3 := idx.isLt
  apply BitVec.eq_of_toNat_eq
  rw [chField, BitVec.extractLsb'_toNat, cmdWord_toNat, Nat.shiftRight_eq_div_pow]
  omega

@[simp] theorem idxField_cmdWord (op ch : BitVec 8) (idx : BitVec 16) :
    idxField (cmdWord op ch idx) = idx := by
  have h1 := op.isLt
  have h2 := ch.isLt
  have h3 := idx.isLt
  apply BitVec.eq_of_toNat_eq
  rw [idxField, BitVec.extractLsb'_toNat, cmdWord_toNat, Nat.shiftRight_eq_div_pow]
  omega

/-- A word is its three fields (R81). -/
theorem cmdWord_fields (w : Word) : cmdWord (opField w) (chField w) (idxField w) = w := by
  have h := w.isLt
  apply BitVec.eq_of_toNat_eq
  rw [cmdWord_toNat]
  simp only [opField, chField, idxField, BitVec.extractLsb'_toNat, Nat.shiftRight_eq_div_pow]
  omega

/-- The element at an element's own index is that element (R64). -/
theorem elementAt_elementIndex (e : Element) : elementAt (elementIndex e) = some e := by
  cases e with
  | firH k =>
    have := k.isLt
    have h : (BitVec.ofNat 16 k.toNat).toNat = k.toNat := by rw [BitVec.toNat_ofNat]; omega
    simp only [elementAt, elementIndex, h]
    rw [if_pos (by omega)]; simp
  | firX k =>
    have := k.isLt
    have h : (BitVec.ofNat 16 (0x1000 + k.toNat)).toNat = 0x1000 + k.toNat := by
      rw [BitVec.toNat_ofNat]; omega
    simp only [elementAt, elementIndex, h]
    rw [if_neg (by omega), if_pos (by omega)]; simp
  | iirC j => revert j; decide
  | iirW j => revert j; decide
  | revWi c => cases c <;> decide
  | revDelay c => cases c <;> decide
  | revFb c => cases c <;> decide
  | revMix c => cases c <;> decide
  | revBuf c i =>
    have := i.isLt
    cases c with
    | left =>
      have h : (BitVec.ofNat 16 (0x8000 + 0x2000 * channelNumber .left + i.toNat)).toNat =
          0x8000 + i.toNat := by rw [BitVec.toNat_ofNat]; simp only [channelNumber]; omega
      simp only [elementAt, elementIndex, h]
      rw [if_neg (by omega), if_neg (by omega), dif_neg (by omega), dif_neg (by omega),
        if_neg (by omega), if_pos (by omega)]
      simp
    | right =>
      have h : (BitVec.ofNat 16 (0x8000 + 0x2000 * channelNumber .right + i.toNat)).toNat =
          0xA000 + i.toNat := by rw [BitVec.toNat_ofNat]; simp only [channelNumber]; omega
      simp only [elementAt, elementIndex, h]
      rw [if_neg (by omega), if_neg (by omega), dif_neg (by omega), dif_neg (by omega),
        if_neg (by omega), if_neg (by omega), if_pos (by omega)]
      simp
  | _ => decide

end Sys2Proof
end

