-- ==== Sys2Proof/Laws/Float.lean ====
section
/-! SUPPORT. What the binary32 operations can give: fields of packed patterns, exact operands, the bound
of a rounding, and the range of `sat`. -/

namespace Sys2Proof.Machine

theorem withSign_toNat (neg : Bool) {p : Nat} (h : p < 2 ^ 31) :
    (withSign neg p).toNat = if neg then 2 ^ 31 + p else p := by
  cases neg <;> simp [withSign, BitVec.toNat_ofNat] <;> omega

theorem expField_withSign (neg : Bool) {p : Nat} (h : p < 2 ^ 31) :
    expField (withSign neg p) = p / 2 ^ 23 := by
  unfold expField; rw [withSign_toNat neg h]; cases neg <;> simp <;> omega

theorem fracField_withSign (neg : Bool) {p : Nat} (h : p < 2 ^ 31) :
    fracField (withSign neg p) = p % 2 ^ 23 := by
  unfold fracField; rw [withSign_toNat neg h]; cases neg
  · simp
  · simp; omega

theorem signBit_withSign (neg : Bool) {p : Nat} (h : p < 2 ^ 31) :
    signBit (withSign neg p) = neg := by
  unfold signBit; rw [BitVec.msb_eq_decide, withSign_toNat neg h]; cases neg
  · simp; omega
  · simp

/-- The magnitude (units of 2^-149) of a finite low-31-bit pattern. -/
def patternMag (p : Nat) : Nat :=
  if p < 2 ^ 23 then p else (2 ^ 23 + p % 2 ^ 23) * 2 ^ (p / 2 ^ 23 - 1)

theorem unpack_withSign (neg : Bool) {p : Nat} (h : p < 0x7F800000) :
    unpack (withSign neg p) = .fin neg (patternMag p) := by
  have h31 : p < 2 ^ 31 := by omega
  unfold unpack patternMag
  rw [expField_withSign neg h31, fracField_withSign neg h31, signBit_withSign neg h31]
  rw [if_neg (by omega)]
  by_cases hp : p < 2 ^ 23
  · rw [if_pos (by omega), if_pos hp, Nat.mod_eq_of_lt hp]
  · rw [if_neg (by omega), if_neg hp]

theorem unpack_infinity (neg : Bool) : unpack (withSign neg 0x7F800000) = .inf neg := by
  cases neg <;> decide

/-- Every word is a sign over its low 31 bits. -/
theorem withSign_low (w : Word) : withSign (signBit w) (w.toNat % 2 ^ 31) = w := by
  apply BitVec.eq_of_toNat_eq
  rw [withSign_toNat _ (Nat.mod_lt _ (by omega))]
  have := w.isLt
  unfold signBit; rw [BitVec.msb_eq_decide]
  simp only [decide_eq_true_eq]
  split <;> omega

/-- Turning the sign bit turns the sign and keeps the pattern below it (R9). -/
theorem withSign_xor (neg : Bool) {p : Nat} (h : p < 2 ^ 31) :
    withSign neg p ^^^ 0x80000000 = withSign (!neg) p := by
  have hx : p ^^^ 2 ^ 31 = 2 ^ 31 + p := by
    have hor : 2 ^ 31 + p = 2 ^ 31 ||| p := by simpa using Nat.two_pow_add_eq_or_of_lt h 1
    rw [hor]
    apply Nat.eq_of_testBit_eq
    intro i
    rw [Nat.testBit_xor, Nat.testBit_or, Nat.testBit_two_pow]
    by_cases hi : 31 = i
    · subst hi; rw [Nat.testBit_lt_two_pow h]; rfl
    · simp [hi]
  apply BitVec.eq_of_toNat_eq
  rw [BitVec.toNat_xor, withSign_toNat _ h, withSign_toNat _ h]
  change _ ^^^ 2 ^ 31 = _
  cases neg
  · exact hx
  · change (2 ^ 31 + p) ^^^ 2 ^ 31 = p
    rw [← hx, Nat.xor_assoc, Nat.xor_self, Nat.xor_zero]

/-- The operand of a subtraction, its sign turned, under the operand rule (R11). -/
theorem daz_xor (m : SubnormalMode) (w : Word) : daz m (w ^^^ 0x80000000) = daz m w ^^^ 0x80000000 := by
  cases m with
  | preserve => rfl
  | flush =>
    have h := Nat.mod_lt w.toNat (show 0 < 2 ^ 31 by omega)
    rw [← withSign_low w, withSign_xor _ h]
    simp only [daz, expField_withSign _ h, signBit_withSign _ h]
    split
    · exact (withSign_xor _ (by omega)).symm
    · exact (withSign_xor _ h).symm

/-- A finite value with its sign bit turned. -/
theorem unpack_xor_fin {w : Word} {s : Bool} {x : Nat} (h : unpack w = .fin s x) :
    unpack (w ^^^ 0x80000000) = .fin (!s) x := by
  have hp := Nat.mod_lt w.toNat (show 0 < 2 ^ 31 by omega)
  rw [← withSign_low w] at h ⊢
  rw [withSign_xor _ hp]
  simp only [unpack, expField_withSign _ hp, fracField_withSign _ hp, signBit_withSign _ hp] at h ⊢
  split at h
  · split at h <;> cases h
  · rename_i h1
    rw [if_neg h1]
    split at h <;> rename_i h2
    · rw [if_pos h2]; cases h; rfl
    · rw [if_neg h2]; cases h; rfl

theorem unpack_daz_fin {m : SubnormalMode} {w : Word} {s : Bool} {x : Nat}
    (h : unpack w = .fin s x) : ∃ y, unpack (daz m w) = .fin s y ∧ y ≤ x := by
  cases m with
  | preserve => exact ⟨x, h, Nat.le_refl _⟩
  | flush =>
    simp only [daz]
    split
    · refine ⟨0, ?_, Nat.zero_le _⟩
      rw [unpack_withSign _ (by omega)]
      rename_i he
      unfold unpack at h
      rw [he] at h
      simp only [if_neg (show ¬ (0 = 255) by omega), if_true, FloatView.fin.injEq] at h
      simp [patternMag, h.1]
    · exact ⟨x, h, Nat.le_refl _⟩

theorem unpack_daz_inf {m : SubnormalMode} {w : Word} {s : Bool} (h : unpack w = .inf s) :
    daz m w = w := by
  cases m with
  | preserve => rfl
  | flush =>
    simp only [daz]
    split
    · rename_i he; unfold unpack at h; rw [he] at h; simp at h
    · rfl

theorem unpack_daz_nan {m : SubnormalMode} {w : Word} (h : unpack w = .nan) : daz m w = w := by
  cases m with
  | preserve => rfl
  | flush =>
    simp only [daz]
    split
    · rename_i he; unfold unpack at h; rw [he] at h; simp at h
    · rfl

/-- Only a NaN has no place in the order. -/
theorem orderKey_isSome {m : SubnormalMode} {w : Word} (h : isNaN w = false) :
    ∃ k, orderKey m w = some k := by
  unfold orderKey
  cases hw : unpack w with
  | nan => simp [isNaN, hw] at h
  | inf s => rw [unpack_daz_inf hw, hw]; exact ⟨_, rfl⟩
  | fin s x => obtain ⟨y, hy, -⟩ := unpack_daz_fin (m := m) hw; rw [hy]; exact ⟨_, rfl⟩

theorem isNaN_daz (m : SubnormalMode) (w : Word) : isNaN (daz m w) = isNaN w := by
  unfold isNaN
  cases hw : unpack w with
  | nan => rw [unpack_daz_nan hw, hw]
  | inf s => rw [unpack_daz_inf hw, hw]
  | fin s x => obtain ⟨y, hy, -⟩ := unpack_daz_fin (m := m) hw; rw [hy]; rfl

theorem fle_iff {m : SubnormalMode} {a b : Word} :
    fle m a b = true ↔ ∃ x y, orderKey m a = some x ∧ orderKey m b = some y ∧ x ≤ y := by
  unfold fle
  cases orderKey m a <;> cases orderKey m b <;> simp

theorem flt_iff {m : SubnormalMode} {a b : Word} :
    flt m a b = true ↔ ∃ x y, orderKey m a = some x ∧ orderKey m b = some y ∧ x < y := by
  unfold flt
  cases orderKey m a <;> cases orderKey m b <;> simp

/-- What `sat` gives, for every operand (R13): a bound, or a value that is no NaN between them. -/
theorem sat_inRange {m : SubnormalMode} {lo hi : Word} (v : Word) (h : fle m lo hi = true) :
    inRange m lo (sat m v lo hi) hi := by
  obtain ⟨l, u, hl, hu, hle⟩ := fle_iff.1 h
  unfold sat
  generalize hv : (if isNaN (daz m v) = true then f32Zero else daz m v) = v'
  have hn : isNaN v' = false := by
    subst hv; split
    · decide
    · simpa using ‹¬ isNaN (daz m v) = true›
  obtain ⟨k, hk⟩ := orderKey_isSome (m := m) hn
  unfold inRange
  simp only [hv, fle_iff]
  split
  · exact ⟨⟨l, l, hl, hl, Int.le_refl _⟩, ⟨l, u, hl, hu, hle⟩⟩
  · rename_i h1
    split
    · exact ⟨⟨l, u, hl, hu, hle⟩, ⟨u, u, hu, hu, Int.le_refl _⟩⟩
    · rename_i h2
      simp only [flt_iff, not_exists, not_and, Int.not_lt] at h1 h2
      exact ⟨⟨l, k, hl, hk, h1 k l hk hl⟩, ⟨k, u, hk, hu, h2 u k hu hk⟩⟩

/-- A value with a place in the order is no NaN. -/
theorem isNaN_of_orderKey {m : SubnormalMode} {w : Word} {k : Int} (h : orderKey m w = some k) :
    isNaN w = false := by
  cases hn : isNaN w with
  | false => rfl
  | true =>
    have hw : unpack w = .nan := by simpa [isNaN] using hn
    rw [orderKey, unpack_daz_nan hw, hw] at h
    cases h

/-- The operand rule of R11 acts once. -/
theorem daz_daz (m : SubnormalMode) (w : Word) : daz m (daz m w) = daz m w := by
  cases m with
  | preserve => rfl
  | flush =>
    by_cases h : expField w = 0
    · have e : daz .flush w = withSign (signBit w) 0 := if_pos h
      rw [e]
      cases signBit w <;> rfl
    · have e : daz .flush w = w := if_neg h
      rw [e, e]

theorem orderKey_daz (m : SubnormalMode) (w : Word) : orderKey m (daz m w) = orderKey m w := by
  rw [orderKey, daz_daz, orderKey]

/-- `sat` passes a value that lies between the bounds (R13). -/
theorem sat_of_inRange {m : SubnormalMode} {lo v hi : Word} (h : inRange m lo v hi) :
    sat m v lo hi = daz m v := by
  obtain ⟨⟨l, k, hl, hk, h1⟩, k', u, hk', hu, h2⟩ := And.intro (fle_iff.1 h.1) (fle_iff.1 h.2)
  cases hk.symm.trans hk'
  have hn : isNaN (daz m v) = false := by rw [isNaN_daz]; exact isNaN_of_orderKey hk
  have e1 : ¬ flt m (daz m v) lo = true := by
    rw [flt_iff, orderKey_daz]; rintro ⟨x, y, hx, hy, hxy⟩
    cases hk.symm.trans hx; cases hl.symm.trans hy; omega
  have e2 : ¬ flt m hi (daz m v) = true := by
    rw [flt_iff, orderKey_daz]; rintro ⟨x, y, hx, hy, hxy⟩
    cases hu.symm.trans hx; cases hk.symm.trans hy; omega
  simp only [sat, hn, Bool.false_eq_true, if_false, e1, e2]

/-- `sat` gives the upper bound for a value above it (R13). -/
theorem sat_above {m : SubnormalMode} {lo v hi : Word} (h : flt m hi v = true) (hb : fle m lo hi = true) :
    sat m v lo hi = hi := by
  obtain ⟨u, k, hu, hk, h1⟩ := flt_iff.1 h
  obtain ⟨l, u', hl, hu', h2⟩ := fle_iff.1 hb
  cases hu.symm.trans hu'
  have hn : isNaN (daz m v) = false := by rw [isNaN_daz]; exact isNaN_of_orderKey hk
  have e1 : ¬ flt m (daz m v) lo = true := by
    rw [flt_iff, orderKey_daz]; rintro ⟨x, y, hx, hy, hxy⟩
    cases hk.symm.trans hx; cases hl.symm.trans hy; omega
  have e2 : flt m hi (daz m v) = true := by rw [flt_iff, orderKey_daz]; exact ⟨u, k, hu, hk, h1⟩
  simp only [sat, hn, Bool.false_eq_true, if_false, e1, e2, if_true]

/-- `sat` gives the lower bound for a value below it (R13). -/
theorem sat_below {m : SubnormalMode} {lo v hi : Word} (h : flt m v lo = true) : sat m v lo hi = lo := by
  obtain ⟨k, l, hk, hl, h1⟩ := flt_iff.1 h
  have hn : isNaN (daz m v) = false := by rw [isNaN_daz]; exact isNaN_of_orderKey hk
  have e1 : flt m (daz m v) lo = true := by rw [flt_iff, orderKey_daz]; exact ⟨k, l, hk, hl, h1⟩
  simp only [sat, hn, Bool.false_eq_true, if_false, e1, if_true]

/-- `sat` reads a NaN as `+0.0` (R13). -/
theorem sat_nan {m : SubnormalMode} {lo v hi : Word} (h : isNaN v = true) :
    sat m v lo hi = sat m f32Zero lo hi := by
  have hz : daz m f32Zero = f32Zero := by cases m <;> rfl
  simp only [sat, isNaN_daz, h, if_true, hz]
  rfl

/-- The bounds the core saturates to are ordered in either mode. -/
theorem bounds_ordered (m : SubnormalMode) :
    fle m f32Zero f32One = true ∧ fle m f32Zero f32Gain = true ∧ fle m f32NegOne f32One = true ∧
    fle m f32NegTwo f32Two = true ∧ fle m f32NegTen f32Ten = true := by
  cases m <;> decide

theorem patternMag_normal {k f : Nat} (hf : f < 2 ^ 23) :
    patternMag ((k + 1) * 2 ^ 23 + f) = (2 ^ 23 + f) * 2 ^ k := by
  unfold patternMag
  rw [if_neg (by omega)]
  have h1 : ((k + 1) * 2 ^ 23 + f) % 2 ^ 23 = f := by omega
  have h2 : ((k + 1) * 2 ^ 23 + f) / 2 ^ 23 - 1 = k := by omega
  rw [h1, h2]

/-- How large a quotient is against its 24 significant bits. -/
theorem excessBits_spec (q : Nat) :
    (excessBits q = 0 ∧ q < 2 ^ 24) ∨
    (2 ^ 23 * 2 ^ excessBits q ≤ q ∧ q < 2 ^ 24 * 2 ^ excessBits q) := by
  unfold excessBits
  split
  · left; exact ⟨rfl, ‹_›⟩
  · right
    have hq : 2 ^ 24 ≤ q := by omega
    have h0 : q ≠ 0 := by omega
    have hlog : 24 ≤ Nat.log2 q := (Nat.le_log2 h0).2 hq
    have h1 : 2 ^ Nat.log2 q ≤ q := Nat.log2_self_le h0
    have h2 : q < 2 ^ (Nat.log2 q + 1) := Nat.lt_log2_self
    have e1 : 2 ^ 23 * 2 ^ (Nat.log2 q - 23) = 2 ^ Nat.log2 q := by
      rw [← Nat.pow_add]; congr 1; omega
    have e2 : 2 ^ 24 * 2 ^ (Nat.log2 q - 23) = 2 ^ (Nat.log2 q + 1) := by
      rw [← Nat.pow_add]; congr 1; omega
    rw [e1, e2]; exact ⟨h1, h2⟩

/-- The rounded quotient of an exact result that is at most `M` divisors is at most `M`. -/
theorem roundUp_le {num d M : Nat} (hd : 0 < d) (h : num ≤ M * d) :
    num / d + (if d < 2 * (num % d) ∨ (d = 2 * (num % d) ∧ num / d % 2 = 1) then 1 else 0) ≤ M := by
  have hq : num / d ≤ M := by
    rw [Nat.div_le_iff_le_mul_add_pred hd, Nat.mul_comm]; omega
  rcases Nat.lt_or_eq_of_le hq with hlt | heq
  · split <;> omega
  · have hr : num % d = 0 := by
      have := Nat.div_add_mod num d
      rw [heq, Nat.mul_comm] at this; omega
    rw [hr, if_neg (by omega)]; omega

/-- A finite pattern at or above 2^23, split into its exponent (less one) and fraction. -/
theorem normal_split {P : Nat} (h : 2 ^ 23 ≤ P) :
    ∃ j f, P = (j + 1) * 2 ^ 23 + f ∧ f < 2 ^ 23 :=
  ⟨P / 2 ^ 23 - 1, P % 2 ^ 23, by omega, by omega⟩

/-- Rounding never goes past a representable bound: an exact result at most a finite pattern's magnitude
rounds to at most that pattern. -/
theorem roundPattern_le {num den P : Nat} (hd : 0 < den) (h : num ≤ patternMag P * den) :
    roundPattern num den ≤ P := by
  unfold roundPattern
  have hq0 : num / den ≤ patternMag P := by
    rw [Nat.div_le_iff_le_mul_add_pred hd, Nat.mul_comm]; omega
  have hdk : 0 < den * 2 ^ excessBits (num / den) := by positivity
  have hqk : num / (den * 2 ^ excessBits (num / den)) = num / den / 2 ^ excessBits (num / den) :=
    (Nat.div_div_eq_div_mul _ _ _).symm
  rcases excessBits_spec (num / den) with ⟨hk, hlt⟩ | ⟨hlo, hhi⟩
  · rw [hk]; simp only [Nat.pow_zero, Nat.mul_one, Nat.zero_mul, Nat.zero_add]
    by_cases hP : P < 2 ^ 24
    · refine roundUp_le hd ?_
      have : patternMag P = P := by
        unfold patternMag
        split
        · rfl
        · rw [show P / 2 ^ 23 - 1 = 0 by omega]; omega
      rwa [this] at h
    · split <;> omega
  · generalize excessBits (num / den) = k at *
    have hup : num / (den * 2 ^ k) < 2 ^ 24 := by
      rw [hqk, Nat.div_lt_iff_lt_mul (by positivity)]; exact hhi
    have hP : 2 ^ 23 ≤ P := by
      by_contra hlt
      have hm : patternMag P = P := by unfold patternMag; rw [if_pos (by omega)]
      have : 2 ^ 23 * 1 ≤ 2 ^ 23 * 2 ^ k := Nat.mul_le_mul_left _ Nat.one_le_two_pow
      omega
    obtain ⟨j, f, rfl, hf⟩ := normal_split hP
    rw [patternMag_normal hf] at h hq0
    rcases Nat.lt_trichotomy j k with hjk | rfl | hjk
    · exfalso
      have h1 : (2 ^ 23 + f) * 2 ^ j < 2 ^ 24 * 2 ^ j :=
        Nat.mul_lt_mul_of_pos_right (by omega) (by positivity)
      have h2 : 2 ^ 24 * 2 ^ j = 2 ^ 23 * 2 ^ (j + 1) := by ring
      have h3 : 2 ^ 23 * 2 ^ (j + 1) ≤ 2 ^ 23 * 2 ^ k :=
        Nat.mul_le_mul_left _ (Nat.pow_le_pow_right (by omega) hjk)
      omega
    · have := roundUp_le (num := num) (M := 2 ^ 23 + f) hdk (by rw [← Nat.mul_assoc]; linarith)
      rw [Nat.add_assoc]; omega
    · have : (k + 2) * 2 ^ 23 ≤ (j + 1) * 2 ^ 23 := Nat.mul_le_mul_right _ (by omega)
      dsimp only
      split <;> omega

/-- A larger pattern is a larger magnitude. -/
theorem patternMag_mono {p P : Nat} (h : p ≤ P) : patternMag p ≤ patternMag P := by
  by_cases hP : P < 2 ^ 23
  · rw [patternMag, patternMag, if_pos (by omega), if_pos hP]; exact h
  · obtain ⟨j, f, rfl, hf⟩ := normal_split (P := P) (by omega)
    rw [patternMag_normal hf]
    by_cases hp : p < 2 ^ 23
    · have : 2 ^ 23 * 1 ≤ (2 ^ 23 + f) * 2 ^ j := Nat.mul_le_mul (by omega) Nat.one_le_two_pow
      rw [patternMag, if_pos hp]; omega
    · obtain ⟨k, g, rfl, hg⟩ := normal_split (P := p) (by omega)
      rw [patternMag_normal hg]
      rcases Nat.lt_trichotomy k j with hkj | rfl | hkj
      · have h1 : (2 ^ 23 + g) * 2 ^ k ≤ 2 ^ 24 * 2 ^ k := Nat.mul_le_mul_right _ (by omega)
        have h2 : 2 ^ 24 * 2 ^ k = 2 ^ 23 * 2 ^ (k + 1) := by ring
        have h3 : 2 ^ 23 * 2 ^ (k + 1) ≤ (2 ^ 23 + f) * 2 ^ j :=
          Nat.mul_le_mul (by omega) (Nat.pow_le_pow_right (by omega) hkj)
        omega
      · exact Nat.mul_le_mul_right _ (by omega)
      · have : (j + 2) * 2 ^ 23 ≤ (k + 1) * 2 ^ 23 := Nat.mul_le_mul_right _ (by omega)
        omega

/-- A rounded result keeps its sign, and its pattern is at most that of any finite bound on the exact
result. -/
theorem roundResult_le {m : SubnormalMode} {neg : Bool} {num den P : Nat} (hd : 0 < den)
    (hP : P < 0x7F800000) (h : num ≤ patternMag P * den) :
    ∃ p, p ≤ P ∧ roundResult m neg num den = withSign neg p := by
  have hr := roundPattern_le hd h
  unfold roundResult
  dsimp only
  rw [if_neg (by omega)]
  split
  · exact ⟨0, by omega, rfl⟩
  · exact ⟨_, hr, rfl⟩

/-- The place in the order of a finite pattern: its sign, and no more than its magnitude. -/
theorem orderKey_withSign {m : SubnormalMode} {neg : Bool} {p : Nat} (h : p < 0x7F800000) :
    ∃ y, y ≤ patternMag p ∧ orderKey m (withSign neg p) = some (signedMag neg y) := by
  obtain ⟨y, hy, hle⟩ := unpack_daz_fin (m := m) (unpack_withSign neg h)
  exact ⟨y, hle, by rw [orderKey, hy]⟩

/-- A representable magnitude rounds to itself. -/
theorem roundPattern_exact {den : Nat} (hd : 0 < den) (P : Nat) :
    roundPattern (patternMag P * den) den = P := by
  unfold roundPattern
  rw [Nat.mul_div_cancel _ hd]
  by_cases hP : P < 2 ^ 24
  · have hm : patternMag P = P := by
      unfold patternMag
      split
      · rfl
      · rw [show P / 2 ^ 23 - 1 = 0 by omega]; omega
    have hk : excessBits P = 0 := by unfold excessBits; rw [if_pos hP]
    rw [hm, hk]
    simp only [Nat.pow_zero, Nat.mul_one, Nat.mul_div_cancel _ hd, Nat.mul_mod_left]
    rw [if_neg (by omega)]; omega
  · obtain ⟨j, f, rfl, hf⟩ := normal_split (P := P) (by omega)
    rw [patternMag_normal hf]
    have hlow : 2 ^ 23 * 2 ^ j ≤ (2 ^ 23 + f) * 2 ^ j := Nat.mul_le_mul_right _ (by omega)
    have hk : excessBits ((2 ^ 23 + f) * 2 ^ j) = j := by
      have hj : 1 ≤ j := by omega
      have h2 : 2 ^ 1 ≤ 2 ^ j := Nat.pow_le_pow_right (by omega) hj
      unfold excessBits
      have hne : (2 ^ 23 + f) * 2 ^ j ≠ 0 := by positivity
      rw [if_neg (by omega)]
      have hl : Nat.log2 ((2 ^ 23 + f) * 2 ^ j) = 23 + j := by
        have hhigh : (2 ^ 23 + f) * 2 ^ j < 2 ^ 24 * 2 ^ j :=
          Nat.mul_lt_mul_of_pos_right (by omega) (by positivity)
        have e1 : 2 ^ (23 + j) = 2 ^ 23 * 2 ^ j := Nat.pow_add ..
        have e2 : 2 ^ (23 + j + 1) = 2 ^ 24 * 2 ^ j := by rw [← Nat.pow_add]; congr 1; omega
        rw [Nat.log2_eq_iff hne, e1, e2]
        exact ⟨hlow, hhigh⟩
      omega
    rw [hk]
    have e : (2 ^ 23 + f) * 2 ^ j * den = (2 ^ 23 + f) * (den * 2 ^ j) := by ring
    have hdk : 0 < den * 2 ^ j := by positivity
    dsimp only
    rw [e, Nat.mul_div_cancel _ hdk, Nat.mul_mod_left, if_neg (by omega)]
    omega

/-- The pattern one above a rounding's lower neighbour is the next magnitude up. -/
theorem patternMag_neighbours {k q : Nat} (h : k = 0 ∧ q < 2 ^ 24 ∨ 2 ^ 23 ≤ q ∧ q < 2 ^ 24) :
    patternMag (k * 2 ^ 23 + q) = q * 2 ^ k ∧ patternMag (k * 2 ^ 23 + q + 1) = (q + 1) * 2 ^ k := by
  have base : ∀ c p : Nat, 2 ^ 23 ≤ p → p < 2 ^ 24 → patternMag (c * 2 ^ 23 + p) = p * 2 ^ c := by
    intro c p h1 h2
    have e : c * 2 ^ 23 + p = (c + 1) * 2 ^ 23 + (p - 2 ^ 23) := by omega
    rw [e, patternMag_normal (by omega), show 2 ^ 23 + (p - 2 ^ 23) = p by omega]
  have low : ∀ p : Nat, p < 2 ^ 24 → patternMag p = p := by
    intro p hp
    by_cases h1 : p < 2 ^ 23
    · rw [patternMag, if_pos h1]
    · have := base 0 p (by omega) hp
      simpa using this
  by_cases hq : q + 1 < 2 ^ 24
  · rcases h with ⟨rfl, -⟩ | ⟨h1, h2⟩
    · simp only [Nat.zero_mul, Nat.zero_add, Nat.pow_zero, Nat.mul_one]
      exact ⟨low q (by omega), low (q + 1) hq⟩
    · exact ⟨base k q h1 h2, by rw [Nat.add_assoc]; exact base k (q + 1) (by omega) hq⟩
  · have hq' : q = 2 ^ 24 - 1 := by omega
    subst hq'
    refine ⟨base k _ (by omega) (by omega), ?_⟩
    have e : k * 2 ^ 23 + (2 ^ 24 - 1) + 1 = (k + 1 + 1) * 2 ^ 23 + 0 := by omega
    rw [e, patternMag_normal (by omega), Nat.pow_succ]
    ring

/-- Rounding is to nearest (R10): no pattern is nearer to the exact magnitude, and one that is as near
without being equal leaves the even pattern chosen. -/
theorem roundPattern_nearest {num den : Nat} (hd : 0 < den) (P : Nat) :
    ((patternMag (roundPattern num den) * den : Int) - num).natAbs ≤
      ((patternMag P * den : Int) - num).natAbs ∧
    (((patternMag (roundPattern num den) * den : Int) - num).natAbs =
        ((patternMag P * den : Int) - num).natAbs →
      patternMag P ≠ patternMag (roundPattern num den) → roundPattern num den % 2 = 0) := by
  have hk : excessBits (num / den) = 0 ∧ num / (den * 2 ^ excessBits (num / den)) < 2 ^ 24 ∨
      2 ^ 23 ≤ num / (den * 2 ^ excessBits (num / den)) ∧
      num / (den * 2 ^ excessBits (num / den)) < 2 ^ 24 := by
    rw [← Nat.div_div_eq_div_mul]
    rcases excessBits_spec (num / den) with ⟨h1, h2⟩ | ⟨h1, h2⟩
    · left; rw [h1]; simpa using h2
    · right
      exact ⟨by rw [Nat.le_div_iff_mul_le (by positivity)]; exact h1,
        by rw [Nat.div_lt_iff_lt_mul (by positivity)]; exact h2⟩
  unfold roundPattern
  generalize excessBits (num / den) = k at *
  have hdk : 0 < den * 2 ^ k := by positivity
  have hnum := Nat.div_add_mod num (den * 2 ^ k)
  have hr := Nat.mod_lt num hdk
  dsimp only
  generalize num / (den * 2 ^ k) = q at *
  generalize num % (den * 2 ^ k) = r at *
  obtain ⟨m0, m1⟩ := patternMag_neighbours hk
  have e0 : patternMag (k * 2 ^ 23 + q) * den = den * 2 ^ k * q := by rw [m0]; ring
  have e1 : patternMag (k * 2 ^ 23 + q + 1) * den = den * 2 ^ k * q + den * 2 ^ k := by rw [m1]; ring
  have hP : patternMag P * den ≤ den * 2 ^ k * q ∧ P ≤ k * 2 ^ 23 + q ∨
      den * 2 ^ k * q + den * 2 ^ k ≤ patternMag P * den := by
    by_cases h : P ≤ k * 2 ^ 23 + q
    · left; exact ⟨by rw [← e0]; exact Nat.mul_le_mul_right _ (patternMag_mono h), h⟩
    · right; rw [← e1]; exact Nat.mul_le_mul_right _ (patternMag_mono (by omega))
  have inj : ∀ a b : Nat, a ≠ b → a * den ≠ b * den := fun a b hab h => hab (Nat.eq_of_mul_eq_mul_right hd h)
  generalize den * 2 ^ k = d at *
  split
  · rename_i hup
    have := inj (patternMag P) (patternMag (k * 2 ^ 23 + q + 1))
    simp only [← Int.natCast_mul, e1] at *
    generalize patternMag P * den = M at *
    constructor
    · omega
    · intro h1 h2
      have := this h2
      omega
  · rename_i hup
    have := inj (patternMag P) (patternMag (k * 2 ^ 23 + q))
    simp only [← Int.natCast_mul, Nat.add_zero, e0] at *
    generalize patternMag P * den = M at *
    constructor
    · omega
    · intro h1 h2
      have := this h2
      omega

/-- A pattern is one magnitude only. -/
theorem patternMag_inj {p q : Nat} (h : patternMag p = patternMag q) : p = q := by
  have e := roundPattern_exact (den := 1) (by omega) p
  rw [h, roundPattern_exact (by omega)] at e
  exact e.symm

/-- The next pattern up is one unit in the last place away. -/
theorem patternMag_succ (p : Nat) : patternMag (p + 1) = patternMag p + 2 ^ (max (p / 2 ^ 23) 1 - 1) := by
  by_cases h : p < 2 ^ 23
  · obtain ⟨a, b⟩ := patternMag_neighbours (k := 0) (q := p) (Or.inl ⟨rfl, by omega⟩)
    rw [show p / 2 ^ 23 = 0 by omega]
    simp at a b ⊢
    omega
  · obtain ⟨j, f, rfl, hf⟩ := normal_split (P := p) (by omega)
    obtain ⟨a, b⟩ := patternMag_neighbours (k := j) (q := 2 ^ 23 + f) (Or.inr ⟨by omega, by omega⟩)
    have e : (j + 1) * 2 ^ 23 + f = j * 2 ^ 23 + (2 ^ 23 + f) := by omega
    have d : (j * 2 ^ 23 + (2 ^ 23 + f)) / 2 ^ 23 = j + 1 := by omega
    rw [e, a, b, d, show max (j + 1) 1 - 1 = j by omega]
    ring

/-- Rounding overflows exactly from the midpoint past the largest finite magnitude on (R10). -/
theorem roundPattern_overflow_iff {num den : Nat} (hd : 0 < den) :
    0x7F800000 ≤ roundPattern num den ↔ (2 ^ 25 - 1) * 2 ^ 252 * den ≤ num := by
  have top : patternMag 0x7F800000 = 2 ^ 24 * 2 ^ 253 := by decide
  have last : patternMag 0x7F7FFFFF = (2 ^ 24 - 1) * 2 ^ 253 := by decide
  constructor
  · intro hc
    by_contra h
    have hr := Nat.mul_le_mul_right den (patternMag_mono hc)
    have hn := (roundPattern_nearest hd (num := num) 0x7F7FFFFF).1
    rw [top] at hr
    rw [last] at hn
    simp only [← Int.natCast_mul] at hn
    generalize patternMag (roundPattern num den) * den = M at *
    omega
  · intro h
    by_contra hc
    have hle := patternMag_mono (show roundPattern num den ≤ 0x7F7FFFFF by omega)
    have hr := Nat.mul_le_mul_right den hle
    obtain ⟨near, even⟩ := roundPattern_nearest hd (num := num) 0x7F800000
    have ne : patternMag 0x7F800000 ≠ patternMag (roundPattern num den) := by omega
    have max : patternMag (roundPattern num den) * den = patternMag 0x7F7FFFFF * den →
        roundPattern num den = 0x7F7FFFFF := fun e => patternMag_inj (Nat.eq_of_mul_eq_mul_right hd e)
    rw [last] at hr max
    rw [top] at near even ne
    simp only [← Int.natCast_mul] at near even
    generalize patternMag (roundPattern num den) * den = M at *
    have odd := max (by omega)
    have := even (by omega) ne
    omega

/-- The sign of a finite value is its sign bit (R9). -/
theorem unpack_fin_sign {w : Word} {s : Bool} {x : Nat} (h : unpack w = .fin s x) : s = signBit w := by
  unfold unpack at h
  split at h
  · split at h <;> cases h
  · split at h <;> cases h <;> rfl

end Sys2Proof.Machine
end

