-- ==== Sys2Proof/Laws/State.lean ====
section
/-! SUPPORT. One lemma per field per update of the state, so that no later proof unfolds a record
update. -/

namespace Sys2Proof.Machine

variable (s : State) (v : Word) (u : RevUnit) (e : EnvUnit) (c : Channel)

@[simp] theorem State.setResult_cfg : (s.setResult v).cfg = s.cfg := rfl
@[simp] theorem State.setResult_fir : (s.setResult v).fir = s.fir := rfl
@[simp] theorem State.setResult_iir : (s.setResult v).iir = s.iir := rfl
@[simp] theorem State.setResult_env : (s.setResult v).env = s.env := rfl
@[simp] theorem State.setResult_rev0 : (s.setResult v).rev0 = s.rev0 := rfl
@[simp] theorem State.setResult_rev1 : (s.setResult v).rev1 = s.rev1 := rfl
@[simp] theorem State.setResult_data : (s.setResult v).data = s.data := rfl
@[simp] theorem State.setResult_result : (s.setResult v).result = v := rfl
@[simp] theorem State.setResult_status : (s.setResult v).status = s.status := rfl
@[simp] theorem State.setResult_outL : (s.setResult v).outL = s.outL := rfl
@[simp] theorem State.setResult_outR : (s.setResult v).outR = s.outR := rfl
@[simp] theorem State.setResult_outPcm : (s.setResult v).outPcm = s.outPcm := rfl
@[simp] theorem State.setResult_inputs : (s.setResult v).inputs = s.inputs := rfl
@[simp] theorem State.setResult_readLog : (s.setResult v).readLog = s.readLog := rfl

@[simp] theorem State.raiseIllegal_cfg : (s.raiseIllegal).cfg = s.cfg := rfl
@[simp] theorem State.raiseIllegal_fir : (s.raiseIllegal).fir = s.fir := rfl
@[simp] theorem State.raiseIllegal_iir : (s.raiseIllegal).iir = s.iir := rfl
@[simp] theorem State.raiseIllegal_env : (s.raiseIllegal).env = s.env := rfl
@[simp] theorem State.raiseIllegal_rev0 : (s.raiseIllegal).rev0 = s.rev0 := rfl
@[simp] theorem State.raiseIllegal_rev1 : (s.raiseIllegal).rev1 = s.rev1 := rfl
@[simp] theorem State.raiseIllegal_data : (s.raiseIllegal).data = s.data := rfl
@[simp] theorem State.raiseIllegal_result : (s.raiseIllegal).result = s.result := rfl
@[simp] theorem State.raiseIllegal_status : (s.raiseIllegal).status = s.status ||| 1 := rfl
@[simp] theorem State.raiseIllegal_outL : (s.raiseIllegal).outL = s.outL := rfl
@[simp] theorem State.raiseIllegal_outR : (s.raiseIllegal).outR = s.outR := rfl
@[simp] theorem State.raiseIllegal_outPcm : (s.raiseIllegal).outPcm = s.outPcm := rfl
@[simp] theorem State.raiseIllegal_inputs : (s.raiseIllegal).inputs = s.inputs := rfl
@[simp] theorem State.raiseIllegal_readLog : (s.raiseIllegal).readLog = s.readLog := rfl

@[simp] theorem State.writeStatus_cfg : (s.writeStatus v).cfg = s.cfg := rfl
@[simp] theorem State.writeStatus_fir : (s.writeStatus v).fir = s.fir := rfl
@[simp] theorem State.writeStatus_iir : (s.writeStatus v).iir = s.iir := rfl
@[simp] theorem State.writeStatus_env : (s.writeStatus v).env = s.env := rfl
@[simp] theorem State.writeStatus_rev0 : (s.writeStatus v).rev0 = s.rev0 := rfl
@[simp] theorem State.writeStatus_rev1 : (s.writeStatus v).rev1 = s.rev1 := rfl
@[simp] theorem State.writeStatus_data : (s.writeStatus v).data = s.data := rfl
@[simp] theorem State.writeStatus_result : (s.writeStatus v).result = s.result := rfl
@[simp] theorem State.writeStatus_status : (s.writeStatus v).status = s.status &&& ~~~(v &&& 1) := rfl
@[simp] theorem State.writeStatus_outL : (s.writeStatus v).outL = s.outL := rfl
@[simp] theorem State.writeStatus_outR : (s.writeStatus v).outR = s.outR := rfl
@[simp] theorem State.writeStatus_outPcm : (s.writeStatus v).outPcm = s.outPcm := rfl
@[simp] theorem State.writeStatus_inputs : (s.writeStatus v).inputs = s.inputs := rfl
@[simp] theorem State.writeStatus_readLog : (s.writeStatus v).readLog = s.readLog := rfl

@[simp] theorem State.withEnvParams_cfg : (withEnvParams s e).cfg = s.cfg := rfl
@[simp] theorem State.withEnvParams_fir : (withEnvParams s e).fir = s.fir := rfl
@[simp] theorem State.withEnvParams_iir : (withEnvParams s e).iir = s.iir := rfl
@[simp] theorem State.withEnvParams_env : (withEnvParams s e).env = recomputeIncrements s.cfg e := rfl
@[simp] theorem State.withEnvParams_rev0 : (withEnvParams s e).rev0 = s.rev0 := rfl
@[simp] theorem State.withEnvParams_rev1 : (withEnvParams s e).rev1 = s.rev1 := rfl
@[simp] theorem State.withEnvParams_data : (withEnvParams s e).data = s.data := rfl
@[simp] theorem State.withEnvParams_result : (withEnvParams s e).result = s.result := rfl
@[simp] theorem State.withEnvParams_status : (withEnvParams s e).status = s.status := rfl
@[simp] theorem State.withEnvParams_outL : (withEnvParams s e).outL = s.outL := rfl
@[simp] theorem State.withEnvParams_outR : (withEnvParams s e).outR = s.outR := rfl
@[simp] theorem State.withEnvParams_outPcm : (withEnvParams s e).outPcm = s.outPcm := rfl
@[simp] theorem State.withEnvParams_inputs : (withEnvParams s e).inputs = s.inputs := rfl
@[simp] theorem State.withEnvParams_readLog : (withEnvParams s e).readLog = s.readLog := rfl

@[simp] theorem State.setRev_cfg : (s.setRev c u).cfg = s.cfg := by cases c <;> rfl
@[simp] theorem State.setRev_fir : (s.setRev c u).fir = s.fir := by cases c <;> rfl
@[simp] theorem State.setRev_iir : (s.setRev c u).iir = s.iir := by cases c <;> rfl
@[simp] theorem State.setRev_env : (s.setRev c u).env = s.env := by cases c <;> rfl
@[simp] theorem State.setRev_data : (s.setRev c u).data = s.data := by cases c <;> rfl
@[simp] theorem State.setRev_result : (s.setRev c u).result = s.result := by cases c <;> rfl
@[simp] theorem State.setRev_status : (s.setRev c u).status = s.status := by cases c <;> rfl
@[simp] theorem State.setRev_outL : (s.setRev c u).outL = s.outL := by cases c <;> rfl
@[simp] theorem State.setRev_outR : (s.setRev c u).outR = s.outR := by cases c <;> rfl
@[simp] theorem State.setRev_outPcm : (s.setRev c u).outPcm = s.outPcm := by cases c <;> rfl
@[simp] theorem State.setRev_inputs : (s.setRev c u).inputs = s.inputs := by cases c <;> rfl
@[simp] theorem State.setRev_readLog : (s.setRev c u).readLog = s.readLog := by cases c <;> rfl
@[simp] theorem State.setRev_left_rev0 : (s.setRev .left u).rev0 = u := rfl
@[simp] theorem State.setRev_left_rev1 : (s.setRev .left u).rev1 = s.rev1 := rfl
@[simp] theorem State.setRev_right_rev0 : (s.setRev .right u).rev0 = s.rev0 := rfl
@[simp] theorem State.setRev_right_rev1 : (s.setRev .right u).rev1 = u := rfl
@[simp] theorem State.rev_left : s.rev .left = s.rev0 := rfl
@[simp] theorem State.rev_right : s.rev .right = s.rev1 := rfl
@[simp] theorem State.rev_setRev_same : (s.setRev c u).rev c = u := by cases c <;> rfl
@[simp] theorem State.setResult_rev : (s.setResult v).rev c = s.rev c := by cases c <;> rfl

/-- The reverb a `setRev` does not name keeps its state (R199). -/
theorem State.rev_setRev_other {c d : Channel} (h : c ≠ d) : (s.setRev c u).rev d = s.rev d := by
  cases c <;> cases d <;> first | rfl | exact absurd rfl h

@[simp] theorem State.memWrite_firH_cfg (i : Nat) : (s.memWrite .firH i v).cfg = s.cfg := rfl
@[simp] theorem State.memWrite_firH_iir (i : Nat) : (s.memWrite .firH i v).iir = s.iir := rfl
@[simp] theorem State.memWrite_firH_env (i : Nat) : (s.memWrite .firH i v).env = s.env := rfl
@[simp] theorem State.memWrite_firH_rev0 (i : Nat) : (s.memWrite .firH i v).rev0 = s.rev0 := rfl
@[simp] theorem State.memWrite_firH_rev1 (i : Nat) : (s.memWrite .firH i v).rev1 = s.rev1 := rfl
@[simp] theorem State.memWrite_firH_data (i : Nat) : (s.memWrite .firH i v).data = s.data := rfl
@[simp] theorem State.memWrite_firH_result (i : Nat) : (s.memWrite .firH i v).result = s.result := rfl
@[simp] theorem State.memWrite_firH_status (i : Nat) : (s.memWrite .firH i v).status = s.status := rfl
@[simp] theorem State.memWrite_firH_outL (i : Nat) : (s.memWrite .firH i v).outL = s.outL := rfl
@[simp] theorem State.memWrite_firH_outR (i : Nat) : (s.memWrite .firH i v).outR = s.outR := rfl
@[simp] theorem State.memWrite_firH_outPcm (i : Nat) : (s.memWrite .firH i v).outPcm = s.outPcm := rfl
@[simp] theorem State.memWrite_firH_inputs (i : Nat) : (s.memWrite .firH i v).inputs = s.inputs := rfl
@[simp] theorem State.memWrite_firH_readLog (i : Nat) : (s.memWrite .firH i v).readLog = s.readLog := rfl

@[simp] theorem State.memWrite_firX_cfg (i : Nat) : (s.memWrite .firX i v).cfg = s.cfg := rfl
@[simp] theorem State.memWrite_firX_iir (i : Nat) : (s.memWrite .firX i v).iir = s.iir := rfl
@[simp] theorem State.memWrite_firX_env (i : Nat) : (s.memWrite .firX i v).env = s.env := rfl
@[simp] theorem State.memWrite_firX_rev0 (i : Nat) : (s.memWrite .firX i v).rev0 = s.rev0 := rfl
@[simp] theorem State.memWrite_firX_rev1 (i : Nat) : (s.memWrite .firX i v).rev1 = s.rev1 := rfl
@[simp] theorem State.memWrite_firX_data (i : Nat) : (s.memWrite .firX i v).data = s.data := rfl
@[simp] theorem State.memWrite_firX_result (i : Nat) : (s.memWrite .firX i v).result = s.result := rfl
@[simp] theorem State.memWrite_firX_status (i : Nat) : (s.memWrite .firX i v).status = s.status := rfl
@[simp] theorem State.memWrite_firX_outL (i : Nat) : (s.memWrite .firX i v).outL = s.outL := rfl
@[simp] theorem State.memWrite_firX_outR (i : Nat) : (s.memWrite .firX i v).outR = s.outR := rfl
@[simp] theorem State.memWrite_firX_outPcm (i : Nat) : (s.memWrite .firX i v).outPcm = s.outPcm := rfl
@[simp] theorem State.memWrite_firX_inputs (i : Nat) : (s.memWrite .firX i v).inputs = s.inputs := rfl
@[simp] theorem State.memWrite_firX_readLog (i : Nat) : (s.memWrite .firX i v).readLog = s.readLog := rfl

@[simp] theorem State.memWrite_iirC_cfg (i : Nat) : (s.memWrite .iirC i v).cfg = s.cfg := rfl
@[simp] theorem State.memWrite_iirC_fir (i : Nat) : (s.memWrite .iirC i v).fir = s.fir := rfl
@[simp] theorem State.memWrite_iirC_env (i : Nat) : (s.memWrite .iirC i v).env = s.env := rfl
@[simp] theorem State.memWrite_iirC_rev0 (i : Nat) : (s.memWrite .iirC i v).rev0 = s.rev0 := rfl
@[simp] theorem State.memWrite_iirC_rev1 (i : Nat) : (s.memWrite .iirC i v).rev1 = s.rev1 := rfl
@[simp] theorem State.memWrite_iirC_data (i : Nat) : (s.memWrite .iirC i v).data = s.data := rfl
@[simp] theorem State.memWrite_iirC_result (i : Nat) : (s.memWrite .iirC i v).result = s.result := rfl
@[simp] theorem State.memWrite_iirC_status (i : Nat) : (s.memWrite .iirC i v).status = s.status := rfl
@[simp] theorem State.memWrite_iirC_outL (i : Nat) : (s.memWrite .iirC i v).outL = s.outL := rfl
@[simp] theorem State.memWrite_iirC_outR (i : Nat) : (s.memWrite .iirC i v).outR = s.outR := rfl
@[simp] theorem State.memWrite_iirC_outPcm (i : Nat) : (s.memWrite .iirC i v).outPcm = s.outPcm := rfl
@[simp] theorem State.memWrite_iirC_inputs (i : Nat) : (s.memWrite .iirC i v).inputs = s.inputs := rfl
@[simp] theorem State.memWrite_iirC_readLog (i : Nat) : (s.memWrite .iirC i v).readLog = s.readLog := rfl

@[simp] theorem State.memWrite_iirW_cfg (i : Nat) : (s.memWrite .iirW i v).cfg = s.cfg := rfl
@[simp] theorem State.memWrite_iirW_fir (i : Nat) : (s.memWrite .iirW i v).fir = s.fir := rfl
@[simp] theorem State.memWrite_iirW_env (i : Nat) : (s.memWrite .iirW i v).env = s.env := rfl
@[simp] theorem State.memWrite_iirW_rev0 (i : Nat) : (s.memWrite .iirW i v).rev0 = s.rev0 := rfl
@[simp] theorem State.memWrite_iirW_rev1 (i : Nat) : (s.memWrite .iirW i v).rev1 = s.rev1 := rfl
@[simp] theorem State.memWrite_iirW_data (i : Nat) : (s.memWrite .iirW i v).data = s.data := rfl
@[simp] theorem State.memWrite_iirW_result (i : Nat) : (s.memWrite .iirW i v).result = s.result := rfl
@[simp] theorem State.memWrite_iirW_status (i : Nat) : (s.memWrite .iirW i v).status = s.status := rfl
@[simp] theorem State.memWrite_iirW_outL (i : Nat) : (s.memWrite .iirW i v).outL = s.outL := rfl
@[simp] theorem State.memWrite_iirW_outR (i : Nat) : (s.memWrite .iirW i v).outR = s.outR := rfl
@[simp] theorem State.memWrite_iirW_outPcm (i : Nat) : (s.memWrite .iirW i v).outPcm = s.outPcm := rfl
@[simp] theorem State.memWrite_iirW_inputs (i : Nat) : (s.memWrite .iirW i v).inputs = s.inputs := rfl
@[simp] theorem State.memWrite_iirW_readLog (i : Nat) : (s.memWrite .iirW i v).readLog = s.readLog := rfl

@[simp] theorem State.memWrite_firH_fir (i : Nat) :
    (s.memWrite .firH i v).fir = { s.fir with h := s.fir.h.set i v } := rfl
@[simp] theorem State.memWrite_iirC_iir (i : Nat) :
    (s.memWrite .iirC i v).iir = { s.iir with c := s.iir.c.setIfInBounds i v } := rfl
@[simp] theorem State.memWrite_iirW_iir (i : Nat) :
    (s.memWrite .iirW i v).iir = { s.iir with w := s.iir.w.setIfInBounds i v } := rfl

@[simp] theorem recomputeIncrements_phase (p : Params) : (recomputeIncrements p e).phase = e.phase := rfl
@[simp] theorem recomputeIncrements_level (p : Params) : (recomputeIncrements p e).level = e.level := rfl
@[simp] theorem recomputeIncrements_attackMs (p : Params) :
    (recomputeIncrements p e).attackMs = e.attackMs := rfl
@[simp] theorem recomputeIncrements_decayMs (p : Params) :
    (recomputeIncrements p e).decayMs = e.decayMs := rfl
@[simp] theorem recomputeIncrements_sustain (p : Params) :
    (recomputeIncrements p e).sustain = e.sustain := rfl
@[simp] theorem recomputeIncrements_releaseMs (p : Params) :
    (recomputeIncrements p e).releaseMs = e.releaseMs := rfl

/-- Recomputing twice is recomputing once: the steps depend on the parameters alone (R172). -/
@[simp] theorem recomputeIncrements_twice (p : Params) :
    recomputeIncrements p (recomputeIncrements p e) = recomputeIncrements p e := rfl

end Sys2Proof.Machine
end

