-- ==== Sys2Proof/Laws/Ops.lean ====
section
/-! SUPPORT. What the memory operations and the unit steps can do, said once: reads after writes, the
canonical form each operation keeps, and the frame of each unit step. -/

namespace Sys2Proof.Machine

theorem subMod_lt {a b n : Nat} (h : 0 < n) : subMod a b n < n := by
  unfold subMod
  have h1 := Int.emod_nonneg ((a : Int) - b) (b := (n : Int)) (by omega)
  have h2 := Int.emod_lt_of_pos ((a : Int) - b) (b := (n : Int)) (by omega)
  omega

/-- `(a - b) mod n` for indices inside the ring: subtract, wrapping once (R191). -/
theorem subMod_of_lt {a b n : Nat} (ha : a < n) (hb : b ≤ n) :
    subMod a b n = if b ≤ a then a - b else a + n - b := by
  unfold subMod
  split
  · rw [Int.emod_eq_of_lt (by omega) (by omega)]; omega
  · rw [← Int.add_emod_right, Int.emod_eq_of_lt (by omega) (by omega)]; omega

/-- The canonical form as a list of facts. -/
theorem Memory.wf_iff {s : State} : Memory.wf s = true ↔
    s.fir.h.length = s.cfg.firN ∧ s.fir.ring.length = s.cfg.firN ∧ s.fir.pos < s.cfg.firN ∧
    s.rev0.buf.length = s.cfg.revLen ∧ s.rev0.wi < s.cfg.revLen ∧
    s.rev1.buf.length = s.cfg.revLen ∧ s.rev1.wi < s.cfg.revLen := by
  simp [Memory.wf, and_assoc]

/-- The slot of an element of the history is inside the store. -/
theorem firSlot_lt {p : Params} {pos k : Nat} (hk : k < p.firN) : firSlot p pos k < p.firN := by
  unfold firSlot; split
  · exact hk
  · exact subMod_lt (by omega)

/-- Two elements of the history have two slots (R25). -/
theorem firSlot_inj {p : Params} {pos j k : Nat} (hp : pos < p.firN) (hj : j < p.firN)
    (hk : k < p.firN) (h : firSlot p pos j = firSlot p pos k) : j = k := by
  unfold firSlot at h
  split at h
  · exact h
  · rw [subMod_of_lt hp (by omega), subMod_of_lt hp (by omega)] at h
    split at h <;> split at h <;> omega

/-- A read after a write to the same element gives the value written (R63). -/
theorem State.memRead_memWrite_same {s : State} (hw : Memory.wf s = true) (sp : Space) {i : Nat}
    (hi : i < spaceLength s.cfg sp) (v : Word) : (s.memWrite sp i v).memRead sp i = v := by
  obtain ⟨h1, h2, h3, h4, h5, h6, h7⟩ := Memory.wf_iff.1 hw
  cases sp with
  | firH => simp only [spaceLength] at hi; simp [State.memWrite, State.memRead, h1, hi]
  | firX =>
    simp only [spaceLength] at hi
    simp [State.memWrite, State.memRead, h2, firSlot_lt hi]
  | iirC => simp only [spaceLength] at hi; simp [State.memWrite, State.memRead, hi]
  | iirW => simp only [spaceLength] at hi; simp [State.memWrite, State.memRead, hi]
  | revBuf c =>
    simp only [spaceLength] at hi
    cases c <;> simp [State.memWrite, State.memRead, State.rev, State.setRev, h4, h6, hi]

/-- A write leaves every other element of the same space alone (R63). -/
theorem State.memRead_memWrite_ne {s : State} (hw : Memory.wf s = true) (sp : Space) {i j : Nat}
    (hi : i < spaceLength s.cfg sp) (hj : j < spaceLength s.cfg sp) (hij : i ≠ j) (v : Word) :
    (s.memWrite sp i v).memRead sp j = s.memRead sp j := by
  obtain ⟨h1, h2, h3, h4, h5, h6, h7⟩ := Memory.wf_iff.1 hw
  cases sp with
  | firH => simp [State.memWrite, State.memRead, List.getElem?_set_ne hij]
  | firX =>
    simp only [spaceLength] at hi hj
    have : firSlot s.cfg s.fir.pos i ≠ firSlot s.cfg s.fir.pos j :=
      fun h => hij (firSlot_inj h3 hi hj h)
    simp [State.memWrite, State.memRead, List.getElem?_set_ne this]
  | iirC => simp [State.memWrite, State.memRead, List.getElem?_set_ne hij]
  | iirW => simp [State.memWrite, State.memRead, List.getElem?_set_ne hij]
  | revBuf c =>
    cases c <;> simp [State.memWrite, State.memRead, State.rev, State.setRev, List.getElem?_set_ne hij]

/-- A write leaves every other space alone (R63). -/
theorem State.memRead_memWrite_space {s : State} {sp sq : Space} (h : sp ≠ sq) (i j : Nat) (v : Word) :
    (s.memWrite sp i v).memRead sq j = s.memRead sq j := by
  cases sp with
  | revBuf c =>
    cases sq with
    | revBuf d => cases c <;> cases d <;> first | rfl | exact absurd rfl h
    | _ => cases c <;> rfl
  | _ => cases sq <;> first | rfl | exact absurd rfl h

/-- Every memory write keeps the canonical form. -/
theorem State.memWrite_wf {s : State} (hw : Memory.wf s = true) (sp : Space) (i : Nat) (v : Word) :
    Memory.wf (s.memWrite sp i v) = true := by
  rw [Memory.wf_iff] at hw ⊢
  cases sp with
  | revBuf c => cases c <;> simpa [State.memWrite, State.setRev, State.rev] using hw
  | _ => simpa [State.memWrite] using hw

/-- Taking a sample into the history keeps the FIR unit's canonical form (R110, R113). -/
theorem firPush_wf {p : Params} {u : FirUnit} (x : Word) (h1 : u.h.length = p.firN)
    (h2 : u.ring.length = p.firN) (h3 : u.pos < p.firN) :
    (firPush p x u).h.length = p.firN ∧ (firPush p x u).ring.length = p.firN ∧
    (firPush p x u).pos < p.firN := by
  unfold firPush
  split
  · exact ⟨h1, by simp [h2], h3⟩
  · exact ⟨h1, by simp [h2], Nat.mod_lt _ (by omega)⟩

/-- The newest sample of the history after a push is the sample pushed, in either realization (R110, R113). -/
theorem firX_push_zero {s : State} (hw : Memory.wf s = true) (x : Word) :
    ({ s with fir := firPush s.cfg x s.fir } : State).firX 0 = x := by
  obtain ⟨h1, h2, h3, -⟩ := Memory.wf_iff.1 hw
  simp only [State.firX, State.memRead, firPush, firSlot]
  cases s.cfg.realization
  · simp only
    rw [List.getD_eq_getElem?_getD, List.getElem?_take]
    rw [if_pos (by omega)]; simp
  · simp only
    have : subMod ((s.fir.pos + 1) % s.cfg.firN) 0 s.cfg.firN = (s.fir.pos + 1) % s.cfg.firN := by
      rw [subMod_of_lt (Nat.mod_lt _ (by omega)) (by omega), if_pos (by omega)]; omega
    rw [this, List.getD_eq_getElem?_getD, List.getElem?_set]
    have hl := Nat.mod_lt (s.fir.pos + 1) (show 0 < s.cfg.firN by omega)
    simp [h2, hl]

/-- Every older sample moves up by one, and the oldest is dropped (R110, R113). -/
theorem firX_push_succ {s : State} (hw : Memory.wf s = true) (x : Word) {k : Nat} (hk : k + 1 < s.cfg.firN) :
    ({ s with fir := firPush s.cfg x s.fir } : State).firX (k + 1) = s.firX k := by
  obtain ⟨h1, h2, h3, -⟩ := Memory.wf_iff.1 hw
  simp only [State.firX, State.memRead, firPush, firSlot]
  cases s.cfg.realization
  · simp only
    rw [List.getD_eq_getElem?_getD, List.getElem?_take]
    rw [if_pos hk]; simp
  · simp only
    have hl := Nat.mod_lt (s.fir.pos + 1) (show 0 < s.cfg.firN by omega)
    have hm : (s.fir.pos + 1) % s.cfg.firN = if s.fir.pos + 1 = s.cfg.firN then 0 else s.fir.pos + 1 := by
      split
      · simp [*]
      · exact Nat.mod_eq_of_lt (by omega)
    have e : subMod ((s.fir.pos + 1) % s.cfg.firN) (k+1) s.cfg.firN = subMod s.fir.pos k s.cfg.firN := by
      rw [subMod_of_lt hl (by omega), subMod_of_lt h3 (by omega)]
      rw [hm]
      by_cases hh : s.fir.pos + 1 = s.cfg.firN
      · simp only [if_pos hh]
        rw [if_neg (by omega), if_pos (by omega)]; omega
      · simp only [if_neg hh]
        split <;> split <;> omega
    rw [e]
    have hne : (s.fir.pos + 1) % s.cfg.firN ≠ subMod s.fir.pos k s.cfg.firN := by
      rw [subMod_of_lt h3 (by omega), hm]; split <;> split <;> omega
    rw [List.getD_eq_getElem?_getD, List.getElem?_set_ne hne, ← List.getD_eq_getElem?_getD]

/-- A push leaves the taps. -/
@[simp] theorem firPush_h (p : Params) (x : Word) (u : FirUnit) : (firPush p x u).h = u.h := by
  unfold firPush; split <;> rfl

/-- A section of the cascade writes the IIR history only (R130). -/
theorem iirSection_frame (sec : Nat) (v : Word) (s : State) :
    (iirSection sec v s).1 = { s with iir := { s.iir with w := (iirSection sec v s).1.iir.w } } := rfl

/-- The cascade writes the IIR history only (R130). -/
theorem iirStep_frame (x : Word) (s : State) :
    (iirStep x s).1 = { s with iir := { s.iir with w := (iirStep x s).1.iir.w } } := by
  simp only [iirStep]
  rw [iirSection_frame 1, iirSection_frame 0]

/-- A reverb's step keeps its canonical form (R190, R194). -/
theorem revUnitStep_wf {m : SubnormalMode} {len delay : Nat} {u : RevUnit} (x : Word)
    (h1 : u.buf.length = len) (h2 : u.wi < len) :
    (revUnitStep m len delay x u).1.buf.length = len ∧ (revUnitStep m len delay x u).1.wi < len :=
  ⟨by simp [revUnitStep, h1], Nat.mod_lt _ (by omega)⟩

@[simp] theorem envTick_attackMs (m : SubnormalMode) (e : EnvUnit) : (envTick m e).attackMs = e.attackMs := rfl
@[simp] theorem envTick_decayMs (m : SubnormalMode) (e : EnvUnit) : (envTick m e).decayMs = e.decayMs := rfl
@[simp] theorem envTick_sustain (m : SubnormalMode) (e : EnvUnit) : (envTick m e).sustain = e.sustain := rfl
@[simp] theorem envTick_releaseMs (m : SubnormalMode) (e : EnvUnit) :
    (envTick m e).releaseMs = e.releaseMs := rfl
@[simp] theorem envTick_attackInc (m : SubnormalMode) (e : EnvUnit) :
    (envTick m e).attackInc = e.attackInc := rfl
@[simp] theorem envTick_decayDec (m : SubnormalMode) (e : EnvUnit) :
    (envTick m e).decayDec = e.decayDec := rfl
@[simp] theorem envTick_releaseDec (m : SubnormalMode) (e : EnvUnit) :
    (envTick m e).releaseDec = e.releaseDec := rfl

/-- Everything a FIR step can do (R110): the FIR unit takes the sample, nothing else changes. -/
theorem firStep_eq (x : Word) (s : State) :
    firStep x s = ({ s with fir := firPush s.cfg x s.fir }, firSum { s with fir := firPush s.cfg x s.fir }) :=
  rfl

/-- The product that enters both reverbs in a chain step (R210). -/
def chainProduct (x : Word) (s : State) : Word :=
  fmul s.cfg.subnormal (firStep x s).2 (envTick s.cfg.subnormal s.env).level

/-- A reverb's step inside the state's configuration. -/
def revUnitOf (s : State) (c : Channel) (x : Word) : RevUnit × Word :=
  revUnitStep s.cfg.subnormal s.cfg.revLen (revDelayOf s.cfg c) x (s.rev c)

/-- Everything a chain step can do (R210, R215): the FIR unit, the envelope, the two reverbs and the
three outputs; every other field keeps its value. -/
theorem chainStep_eq (x : Word) (s : State) :
    chainStep x s =
      { s with
        fir := firPush s.cfg x s.fir
        env := envTick s.cfg.subnormal s.env
        rev0 := (revUnitOf s .left (chainProduct x s)).1
        rev1 := (revUnitOf s .right (chainProduct x s)).1
        outL := (revUnitOf s .left (chainProduct x s)).2
        outR := (revUnitOf s .right (chainProduct x s)).2
        outPcm := packPcm s.cfg (revUnitOf s .left (chainProduct x s)).2
          (revUnitOf s .right (chainProduct x s)).2 } :=
  rfl

/-- A chain step keeps the canonical form of the memory. -/
theorem chainStep_wf {s : State} (x : Word) (hw : Memory.wf s = true) :
    Memory.wf (chainStep x s) = true := by
  rw [Memory.wf_iff] at hw ⊢
  obtain ⟨h1, h2, h3, h4, h5, h6, h7⟩ := hw
  have hf := firPush_wf (p := s.cfg) x h1 h2 h3
  have hl := revUnitStep_wf (m := s.cfg.subnormal) (delay := s.cfg.revDelay0) (chainProduct x s) h4 h5
  have hr := revUnitStep_wf (m := s.cfg.subnormal) (delay := s.cfg.revDelay1) (chainProduct x s) h6 h7
  rw [chainStep_eq]
  exact ⟨hf.1, hf.2.1, hf.2.2, hl.1, hl.2, hr.1, hr.2⟩

/-- The memory after reset has its canonical form, under every legal configuration (R310). -/
theorem resetFor_wf {p : Params} (h : p.Legal) : Memory.wf (State.resetFor p) = true := by
  obtain ⟨⟨h1, -⟩, ⟨h2, -⟩, -⟩ := h
  rw [Memory.wf_iff]
  simp [State.resetFor]; omega

/-- This hardware's configuration is legal, whatever its OPEN parameters are (R6). -/
theorem Config.params_legal : Sys2Proof.Config.params.Legal := by
  have h1 := Sys2Proof.Config.firNPred.isLt
  have h2 := Sys2Proof.Config.revDelay0.isLt
  have h3 := Sys2Proof.Config.revDelay1.isLt
  have h4 := Sys2Proof.Config.pcmScalePred.isLt
  refine ⟨⟨?_, ?_⟩, ⟨by decide, by decide⟩, ?_, ?_, ⟨by decide, by decide, by decide⟩, ?_, ?_⟩ <;>
    simp only [Sys2Proof.Config.params, BitVec.toNat_ofNat] <;> omega

/-- The memory of this hardware after reset has its canonical form. -/
theorem reset_wf : Memory.wf State.reset = true := resetFor_wf Config.params_legal

end Sys2Proof.Machine
end

