-- ==== Sys2Proof/Laws/PerInstr.lean ====
section
/-! SUPPORT. Statements about commands as written, one lemma per constructor: every command's word selects
its row of R85. -/

namespace Sys2Proof.Laws.RowSelect

/-- A command word `w` selects a row when `(w & mask) == match` (R85). -/
def Statement (i : Instr) : Prop := encode i &&& maskOf i = matchOf i

/-- A mask works on the three fields of a word apart (R81). -/
theorem cmdWord_and (op ch opm chm : BitVec 8) (idx idxm : BitVec 16) :
    cmdWord op ch idx &&& cmdWord opm chm idxm = cmdWord (op &&& opm) (ch &&& chm) (idx &&& idxm) :=
  BitVec.and_append.trans (congrArg (· ++ (idx &&& idxm)) BitVec.and_append)

theorem nop : Statement .nop := rfl
theorem rd (e : Element) : Statement (.rd e) := by
  have hm : (0xFFFF0000 : Word) = cmdWord 0xFF 0xFF 0 := by decide
  change cmdWord 0x01 0 (elementIndex e) &&& 0xFFFF0000 = cmdWord 0x01 0 0
  rw [hm, cmdWord_and, show elementIndex e &&& (0 : BitVec 16) = 0 from BitVec.and_zero]
  rfl
theorem wr (e : Element) : Statement (.wr e) := by
  have hm : (0xFFFF0000 : Word) = cmdWord 0xFF 0xFF 0 := by decide
  change cmdWord 0x02 0 (elementIndex e) &&& 0xFFFF0000 = cmdWord 0x02 0 0
  rw [hm, cmdWord_and, show elementIndex e &&& (0 : BitVec 16) = 0 from BitVec.and_zero]
  rfl
theorem firProc : Statement .firProc := rfl
theorem iirProc : Statement .iirProc := rfl
theorem iirReset : Statement .iirReset := rfl
theorem envOn : Statement .envOn := rfl
theorem envOff : Statement .envOff := rfl
theorem envTick : Statement .envTick := rfl
theorem envAtk : Statement .envAtk := rfl
theorem envDec : Statement .envDec := rfl
theorem envSus : Statement .envSus := rfl
theorem envRel : Statement .envRel := rfl
theorem revProc (c : Channel) : Statement (.revProc c) := by cases c <;> rfl
theorem revFb (c : Channel) : Statement (.revFb c) := by cases c <;> rfl
theorem revMix (c : Channel) : Statement (.revMix c) := by cases c <;> rfl
theorem pipeStep : Statement .pipeStep := rfl

end Sys2Proof.Laws.RowSelect
end

