-- ==== Sys2Proof/Machine/NoteController.lean ====
section
/-! DEFINITION. The host-side NoteController (47_host_reference.md, R262-R269): a reference beside the
core, which R5 leaves out of it. It says which command lines a host gives the core for each MIDI event.
What the spec leaves to the host is an argument (R18, U20-U22; log entry 17). -/

namespace Sys2Proof.Machine

/-- What the host brings: the note-frequency table, the filter designer, and its own rounding of a real
value to the binary32 pattern it writes (R251, R264, D50). -/
structure HostFunctions where
  /-- The frequency of a note in Hz, an external table. -/
  freq : Nat → Rat
  /-- The taps of `designLowpassFir(FIR_N, cutoff, FS)` (R250). -/
  firDesign : Rat → List Word
  /-- The pattern the host writes for a value; any approximation (U22). -/
  pattern : Rat → Word

/-- The host's voice state (R263). -/
structure Voice where
  activeNote : Nat
  active : Bool
  pendingNote : Nat
  pendingActive : Bool
  /-- The cutoff scale. -/
  k : Rat

/-- The initial voice state, with `HOST_K_RST` (R263, D51): no active and no pending note. The two note
numbers held while there is none are given by no rule; 0 is the model's DESIGN CHOICE (log entry 25). -/
def initialVoice (kRst : Rat) : Voice where
  activeNote := 0
  active := false
  pendingNote := 0
  pendingActive := false
  k := kRst

/-- `clamp(x, 20, 4000)`, the cutoff rule (R264). -/
def clampCutoff (x : Rat) : Rat := if x < 20 then 20 else if 4000 < x then 4000 else x

/-- The FIR reload for a note at a cutoff scale (R264, R266). -/
def firReload (h : HostFunctions) (k : Rat) (n : Nat) : Line :=
  .firLoad ((h.firDesign (clampCutoff (k * h.freq n))).map .pattern)

/-- `Activate(n)` (R264). -/
def activate (h : HostFunctions) (n : Nat) (v : Voice) : Voice × List Line :=
  ({ v with activeNote := n, active := true }, [firReload h v.k n, .plain .envOn])

/-- `NoteOn(n)` (R264): while a note is active the new one is recorded as pending, last one wins. -/
def noteOn (h : HostFunctions) (n : Nat) (v : Voice) : Voice × List Line :=
  if v.active then ({ v with pendingNote := n, pendingActive := true }, []) else activate h n v

/-- `NoteOff(n)` (R265). -/
def noteOff (h : HostFunctions) (n : Nat) (v : Voice) : Voice × List Line :=
  if v.active ∧ n = v.activeNote then
    if v.pendingActive then activate h v.pendingNote { v with active := false, pendingActive := false }
    else ({ v with active := false }, [.plain .envOff])
  else if v.pendingActive ∧ n = v.pendingNote then ({ v with pendingActive := false }, [])
  else (v, [])

/-- A control change, with value `x` in 0..127 (R266). -/
def controlChange (h : HostFunctions) (controller x : Nat) (v : Voice) : Voice × List Line :=
  let f : Rat := (x : Rat) / 127
  match controller with
  | 7 =>
    let k := 1 / 2 + f * (7 / 2)
    ({ v with k := k }, if v.active then [firReload h k v.activeNote] else [])
  | 1 => (v, [.revFb2 (.pattern (h.pattern (f * (85 / 100))))])
  | 2 => (v, [.withOperand .envDec (.pattern (h.pattern (100 + f * 4900)))])
  | 3 => (v, [.withOperand .envSus (.pattern (h.pattern f))])
  | 4 => (v, [.withOperand .envRel (.pattern (h.pattern (100 + f * 4900)))])
  | _ => (v, [])

/-- Pitch bend as the wet mix of both channels (R267, D49). -/
def pitchBend (h : HostFunctions) (data1 data2 : Nat) (v : Voice) : Voice × List Line :=
  (v, [.revMix2 (.pattern (h.pattern (((data1 ||| (data2 <<< 7) : Nat) : Rat) / 16383)))])

/-- One 4-byte packet (R262): the first byte is discarded; the status nibble selects the event, every
channel nibble is accepted, any other status is ignored. -/
def handlePacket (h : HostFunctions) (packet : Byte × Byte × Byte × Byte) (v : Voice) : Voice × List Line :=
  let (_, status, d1, d2) := packet
  match status.toNat / 16 with
  | 0x8 => noteOff h d1.toNat v
  | 0x9 => if d2 = 0 then noteOff h d1.toNat v else noteOn h d1.toNat v
  | 0xB => controlChange h d1.toNat d2.toNat v
  | 0xE => pitchBend h d1.toNat d2.toNat v
  | _ => (v, [])

end Sys2Proof.Machine
end

