-- ==== Sys2Proof/Tests/Slice0.lean ====
section
/-! SUPPORT. The model's own tests. Expected values come from the encodings of 30_encoding.md and from
the vectors of 95_test_vectors.md; each test names its source. -/

namespace Sys2Proof.Tests

open Sys2Proof Sys2Proof.Machine Sys2Proof.Claims

/-- The small configuration of the vectors: `FIR_N = 4`, `REV_LEN = 4`, offsets 2, `PCM_SCALE` 16384.0. -/
def cfg (r : FirRealization) : Params where
  firN := 4
  revLen := 4
  revDelay0 := 2
  revDelay1 := 2
  fs := 44100
  attackMsRst := 0x41200000
  decayMsRst := 0x42C80000
  sustainRst := 0x3F000000
  releaseMsRst := 0x447A0000
  pcmScale := 0x46800000
  base := 0x40000000
  subnormal := .flush
  realization := r

/-- The reset state under the small configuration. -/
def start : State := State.resetFor (cfg .circular)

/-- A field of the next state, or `none` if there is none. -/
def look {α : Type} (f : State → α) : Host.Outcome State Fault Refusal → Option α
  | .next t => some (f t)
  | .fault _ => none
  | .refused _ => none

/-- A state with the taps and the oldest-first history of vector FIR-10, one longer. -/
def tapped : State :=
  { start with
    fir := { h := [0x3F800000, 0x40000000, 0x40400000, 0], ring := [0, 0x3F800000, 0, 0], pos := 1 }
    data := 0 }

/-- The envelope of vector ENV-3: A = R = 3 samples, D = 5 samples, S = 0.5. -/
def adsr (ph : Phase) (level : Word) : EnvUnit :=
  { phase := ph, level := level, attackMs := 0x3D8B51DA, decayMs := 0x3DE83315, sustain := 0x3F000000,
    releaseMs := 0x3D8B51DA, attackInc := 0x3EAAAAAB, decayDec := 0x3DCCCCCD, releaseDec := 0x3E2AAAAB }

/-- Program P4's setup (95_test_vectors.md): taps, ADSR of zero times, gains 0.5, note on. -/
def chained : State :=
  { start with
    fir := { h := [0x3F000000, 0x3E800000, 0x3E000000, 0x3E000000], ring := [0, 0, 0, 0], pos := 0 }
    env := recomputeIncrements (cfg .circular)
      { adsr .attack 0 with attackMs := 0, decayMs := 0, releaseMs := 0 }
    rev0 := { buf := [0, 0, 0, 0], wi := 0, fb := 0x3F000000, mix := 0x3F000000 }
    rev1 := { buf := [0, 0, 0, 0], wi := 0, fb := 0x3F000000, mix := 0x3F000000 }
    data := 0x3F800000 }

/-! Well-formedness: an ill-formed command for each check, and the last well-formed one beside it. -/

theorem test_wf_firH : Instr.wf (cfg .linear) (.rd (.firH 3)) = true ∧
    Instr.wf (cfg .linear) (.rd (.firH 4)) = false ∧ Instr.wf (cfg .linear) (.wr (.firH 3)) = true ∧
    Instr.wf (cfg .linear) (.wr (.firH 4)) = false := by decide

theorem test_wf_firX : Instr.wf (cfg .linear) (.rd (.firX 3)) = true ∧
    Instr.wf (cfg .linear) (.rd (.firX 4)) = false := by decide

theorem test_wf_revBuf : Instr.wf (cfg .linear) (.rd (.revBuf .right 3)) = true ∧
    Instr.wf (cfg .linear) (.rd (.revBuf .right 4)) = false := by decide

theorem test_wf_read_only : Instr.wf (cfg .linear) (.wr (.iirC 9)) = true ∧
    Instr.wf (cfg .linear) (.wr .envSustain) = false ∧
    Instr.wf (cfg .linear) (.wr (.firX 0)) = false := by decide

/-- The small configuration with these lengths, offset, sample rate and scale. -/
def varied (n l d f : Nat) (scale : Word) : Params :=
  { cfg .circular with firN := n, revLen := l, revDelay1 := d, fs := f, pcmScale := scale }

/-- R6: the upper ends of the legal ranges. -/
theorem test_legal : (varied 4096 8192 8192 44100 0x46FFFE00).Legal := by decide

/-- R6: lengths outside their ranges. -/
theorem test_illegal_lengths : ¬ (varied 0 4 2 44100 0x46800000).Legal ∧
    ¬ (varied 4097 4 2 44100 0x46800000).Legal ∧ ¬ (varied 4 8193 2 44100 0x46800000).Legal := by decide

/-- R6: an offset above `REV_LEN`, an `FS` that is no binary32 value, scales outside (0, 32767]. -/
theorem test_illegal_values : (¬ (varied 4 4 5 44100 0x46800000).Legal ∧
    ¬ (varied 4 4 2 16777217 0x46800000).Legal) ∧ ¬ (varied 4 4 2 44100 0x46FFFE01).Legal ∧
    ¬ (varied 4 4 2 44100 0x80000001).Legal := by decide

/-! Decoding: the word of every row of R84, written out from its fields. -/

theorem test_decode_access :
    (decode (cfg .linear) 0x00000000).toOption = some .nop ∧
    (decode (cfg .linear) 0x01001002).toOption = some (.rd (.firX 2)) ∧
    (decode (cfg .linear) 0x0100A003).toOption = some (.rd (.revBuf .right 3)) ∧
    (decode (cfg .linear) 0x01004013).toOption = some (.rd (.revMix .right)) ∧
    (decode (cfg .linear) 0x02002009).toOption = some (.wr (.iirC 9)) := by decide

theorem test_decode_filters :
    (decode (cfg .linear) 0x10000000).toOption = some .firProc ∧
    (decode (cfg .linear) 0x20000000).toOption = some .iirProc ∧
    (decode (cfg .linear) 0x21000000).toOption = some .iirReset := by decide

theorem test_decode_envelope :
    (decode (cfg .linear) 0x30000000).toOption = some .envOn ∧
    (decode (cfg .linear) 0x31000000).toOption = some .envOff ∧
    (decode (cfg .linear) 0x32000000).toOption = some .envTick ∧
    (decode (cfg .linear) 0x38000000).toOption = some .envAtk ∧
    (decode (cfg .linear) 0x39000000).toOption = some .envDec ∧
    (decode (cfg .linear) 0x3A000000).toOption = some .envSus ∧
    (decode (cfg .linear) 0x3B000000).toOption = some .envRel := by decide

theorem test_decode_reverb :
    (decode (cfg .linear) 0x40010000).toOption = some (.revProc .right) ∧
    (decode (cfg .linear) 0x41000000).toOption = some (.revFb .left) ∧
    (decode (cfg .linear) 0x42010000).toOption = some (.revMix .right) ∧
    (decode (cfg .linear) 0x50000000).toOption = some .pipeStep := by decide

/-- EXC-1 to EXC-15 of 95_test_vectors.md, but for `REV_LEN = 4` in EXC-11. -/
theorem test_decode_illegal :
    [0x03000000, 0xFF000000, 0x00000001, 0x00010000, 0x10010000, 0x10000001, 0x40020000, 0x41000005,
      0x01000004, 0x01007000, 0x0100A004, 0x02001000, 0x02003004, 0x0200200A, 0x01010000].all
      (fun w => (decode (cfg .linear) w).toOption.isNone) = true := by decide

/-- The encoder gives R92's words back. -/
theorem test_encode : encode (.wr (.iirC 3)) = 0x02002003 ∧ encode (.rd (.revBuf .left 0x95F)) = 0x0100895F ∧
    encode (.revFb .right) = 0x41010000 ∧ encode (.rd .sampleRate) = 0x01003009 := by decide

/-! The fetch interface: this hardware's decoder and its step after reset. -/

theorem test_table_words : decodeTableWord 32 0x10000000 = some .firProc ∧
    decodeTableWord 32 0x01000000 = some (.rd (.firH 0)) ∧ decodeTableWord 32 0x03000000 = none := by decide

theorem test_step_runs_placed_word :
    step (State.reset.withFetchWord 32 0x50000000) = exec .pipeStep State.reset := rfl

/-! One step of each command. -/

/-- ACC-1. -/
theorem test_nop : exec .nop tapped = .next tapped := rfl

/-- ACC-5 and ACC-7. -/
theorem test_rd_config : look State.result (exec (.rd .sampleRate) start) = some 0x472C4400 ∧
    look State.result (exec (.rd .cfgFirN) start) = some 4 ∧
    look State.result (exec (.rd .cfgIirStages) start) = some 2 := by decide

/-- R24: index 0 is the newest sample; R25 finds it through the ring index. -/
theorem test_rd_history : look State.result (exec (.rd (.firX 0)) tapped) = some 0x3F800000 ∧
    look State.result (exec (.rd (.firX 1)) tapped) = some 0 := by decide

/-- ACC-3: a NaN payload is stored bit for bit. -/
theorem test_wr_tap : look (fun t => t.memRead .firH 3)
    (exec (.wr (.firH 3)) { start with data := 0x7FC00001 }) = some 0x7FC00001 := by decide

/-- ACC-2. -/
theorem test_wr_coefficient : look (fun t => (t.memRead .iirC 3, t.result))
    (exec (.wr (.iirC 3)) { start with data := 0x3F000000 }) = some (0x3F000000, 0) := by decide

/-- FIR-10: the second output is `h[1]`, not `h[N-2]`. -/
theorem test_fir_second_tap : look State.result (exec .firProc tapped) = some 0x40000000 := by decide

/-- FIR-5: an infinity against a zero tap is a NaN. -/
theorem test_fir_infinity : look State.result (exec .firProc { start with data := 0x7F800000 }) =
    some 0x7FC00000 := by decide

/-- Section 0 with this `b0` alone, section 1 the identity, and this input. -/
def iirInput (b0 x : Word) : State :=
  { start with
    iir := { start.iir with c := #v[b0, 0, 0, 0, 0, 0x3F800000, 0, 0, 0, 0] }
    data := x }

set_option maxRecDepth 20000 in
/-- IIR-4: 2.0 gives 8.0, so section 1's input is not clamped to 2. -/
theorem test_iir_input_clamp :
    look State.result (exec .iirProc (iirInput 0x40800000 0x40000000)) = some 0x41000000 := by decide

set_option maxRecDepth 20000 in
/-- IIR-7: a NaN output is clamped to 0 and the history stays finite. -/
theorem test_iir_nan : look State.result (exec .iirProc (iirInput 0x7FC00000 0x3F800000)) = some 0 ∧
    look (fun t => t.memRead .iirW 0) (exec .iirProc (iirInput 0x7FC00000 0x3F800000)) =
      some 0x3F800000 := by decide

/-- IIR-11. -/
theorem test_iir_reset : look (fun t => (t.result, t.iir.w))
    (exec .iirReset { start with iir := { start.iir with w := #v[1, 2, 3, 4] }, result := 5 }) =
    some (5, #v[0, 0, 0, 0]) := by decide

/-- R150: a retrigger keeps the level. -/
theorem test_note_on : look (fun t => (t.env.phase, t.env.level))
    (exec .envOn { start with env := adsr .release 0x3E800000 }) = some (.attack, 0x3E800000) := by decide

/-- R152, R153. -/
theorem test_note_off : look (fun t => t.env.phase) (exec .envOff { start with env := adsr .decay 0 }) =
    some .release ∧ look (fun t => t.env.phase) (exec .envOff start) = some .init := by decide

/-- ENV-3: the third attack tick reaches 1.0 and enters Decay. -/
theorem test_tick_attack_end : look (fun t => (t.result, t.env.phase))
    (exec .envTick { start with env := adsr .attack 0x3F2AAAAB }) = some (0x3F800000, .decay) := by decide

/-- ENV-3: the last release tick but one. -/
theorem test_tick_release : look (fun t => (t.result, t.env.phase))
    (exec .envTick { start with env := adsr .release 0x3EAAAAAA }) = some (0x3E2AAAA9, .release) := by
  decide

/-- ENV-2: three samples give the step 1/3. -/
theorem test_set_attack : look (fun t => t.env.attackInc)
    (exec .envAtk { start with data := 0x3D8B51DA }) = some 0x3EAAAAAB := by decide

/-- ENV-3 and P3 line 5. -/
theorem test_set_decay : look (fun t => t.env.decayDec)
    (exec .envDec { start with data := 0x3DE83315 }) = some 0x3DCCCCCD := by decide

/-- R178: 2.0 is stored as 1.0 and the decay step becomes 0. -/
theorem test_set_sustain : look (fun t => (t.env.sustain, t.env.decayDec))
    (exec .envSus { start with data := 0x40000000 }) = some (0x3F800000, 0) := by decide

/-- ENV-3. -/
theorem test_set_release : look (fun t => t.env.releaseDec)
    (exec .envRel { start with data := 0x3D8B51DA }) = some 0x3E2AAAAB := by decide

/-- REV-9: an input of 3.0 gives 1.0 and stores 1.0. -/
theorem test_rev_proc : look (fun t => (t.result, t.rev1.buf, t.rev1.wi))
    (exec (.revProc .right) { chained with data := 0x40400000 }) =
    some (0x3F800000, [0x3F800000, 0, 0, 0], 1) := by decide

/-- REV-1: the impulse comes back `REV_DELAY` samples later, scaled by the mix. -/
theorem test_rev_echo : look State.result (exec (.revProc .left) { chained with
    rev0 := { chained.rev0 with buf := [0x3F800000, 0, 0, 0], wi := 2 }, data := 0 }) =
    some 0x3F000000 := by decide

/-- R196: 1.5 is stored as 0.98. -/
theorem test_rev_fb : look (fun t => (t.rev1.fb, t.rev0.fb))
    (exec (.revFb .right) { start with data := 0x3FC00000 }) = some (0x3F7AE148, 0) := by decide

/-- R198: 7.0 is stored as 1.0. -/
theorem test_rev_mix : look (fun t => (t.rev1.mix, t.rev0.mix))
    (exec (.revMix .right) { start with data := 0x40E00000 }) = some (0x3F800000, 0) := by decide

set_option maxRecDepth 40000 in
/-- PIPE-1. -/
theorem test_pipe_step : look (fun t => (t.result, t.outL, t.outR, t.env.phase))
    (exec .pipeStep chained) = some (0x20002000, 0x3F000000, 0x3F000000, .decay) := by decide

set_option maxRecDepth 40000 in
/-- PIPE-2: the same by a pulse, with `RESULT` and `DATA` untouched. -/
theorem test_pulse : look (fun t => (t.spPcm, t.spL, t.result, t.data))
    (step { chained with data := 7, inputs := [.pulse 0x3F800000] }) =
    some (0x20002000, 0x3F000000, 0, 7) := by decide

/-- PIPE-4: truncation toward zero. -/
theorem test_pcm : ([0x3F800000, 0xBF800000, 0x3F000000, 0xBF000000].map
    (pcm16 { cfg .linear with pcmScale := 0x46FFFE00 })) = [0x7FFF, 0x8001, 0x3FFF, 0xC001] := by decide

/-- EXC-1 and EXC-19: an illegal word sets `ILL`; only a 1 in bit 0 clears it. -/
theorem test_illegal_word :
    look State.status (step { start with inputs := [.host (.write 0x00 0x03000000)] }) = some 1 ∧
    look State.status (step { start with status := 1, inputs := [.host (.write 0x0C 0xFFFFFFFE)] }) =
      some 1 ∧
    look State.status (step { start with status := 1, inputs := [.host (.write 0x0C 1)] }) = some 0 := by
  decide

/-- R62: bits [1:0] are ignored and an address outside the block does not select the core. -/
theorem test_port_select :
    look State.data (step { start with inputs := [.host (.write 0x07 9)] }) = some 9 ∧
    look State.readLog (step { start with data := 9, inputs := [.host (.read 0x05)] }) = some [9] ∧
    look State.readLog (step { start with data := 9, inputs := [.host (.read 0x20)] }) = some [] := by
  decide

/-- R310. -/
theorem test_reset : look (fun t => (t.data, t.env.phase, t.iir.w))
    (step { chained with inputs := [.reset] }) = some (0, .init, #v[0, 0, 0, 0]) := by decide

/-! Witnesses: for every statement with hypotheses, a state and operands that meet all of them. -/

/-- The small reset state with this input next. -/
def fed (i : Input) : State := { start with inputs := [i] }

/-- The reset state of another realization, with the same architectural history as `tapped`. -/
def tappedLinear : State :=
  { tapped with
    cfg := cfg .linear
    fir := { tapped.fir with ring := [0x3F800000, 0, 0, 0], pos := 0 } }

theorem test_start_wf : Memory.wf start = true ∧ start.cfg.Legal ∧ Memory.wf chained = true := by decide

theorem test_witness_StepRunsCommandWrittenToCmd :
    (fed (.host (.write 0 0x10000000))).inputs = .host (.write 0 0x10000000) :: [] ∧
    (fed (.host (.write 3 0x30000000))).inputs = .host (.write 3 0x30000000) :: [] ∧
    decode start.cfg 0x10000000 = .ok .firProc ∧ decode start.cfg 0x30000000 = .ok .envOn :=
  ⟨rfl, rfl, rfl, rfl⟩

theorem test_witness_HandEncodedWordsDecode : (cfg .circular).Legal ∧ 4 ≤ (cfg .circular).firN := by decide

theorem test_witness_ResetLeavesTheListedValues : (fed .reset).inputs = .reset :: [] := rfl

theorem test_witness_NopChangesNothing : opField 0x00000001 = 0x00 ∧ (0x00000001 : Word) ≠ 0 := by decide

theorem test_witness_RdDeliversEveryMappedElement :
    (Element.firX 3).mapped start.cfg = true ∧ start.cfg.Legal ∧ (0xFF : BitVec 8) ≠ 0 ∧
    (cfg .linear).fs = 44100 := by decide

/-- R64's windows at their ends. -/
theorem test_witness_tableRead :
    ([3, 0x1003, 0x2009, 0x2013, 0x3009, 0x4003, 0x4013, 0x5002, 0x6002, 0x8003, 0xA003].all
      fun n => (tableRead start n).isSome) = true ∧
    ([4, 0x1004, 0x200A, 0x2014, 0x300A, 0x4004, 0x4014, 0x5003, 0x6003, 0x8004, 0xA004].all
      fun n => (tableRead start n).isNone) = true := by decide

theorem test_witness_WrStoresCoefficientBitForBit :
    Memory.wf start = true ∧ (3 : BitVec 12).toNat < start.cfg.firN ∧ start.cfg.Legal ∧
    (0x0003 : BitVec 16).toNat < start.cfg.firN ∧ 0x2000 ≤ (0x2009 : BitVec 16).toNat ∧
    (0x2009 : BitVec 16).toNat < 0x200A := by decide

/-- The third clause, at the first index past each WR-mapped window, and the fourth. -/
theorem test_witness_WrStoresCoefficientBitForBit_illegal :
    ¬ writeMapped start.cfg (0x0004 : BitVec 16).toNat ∧
    ¬ writeMapped start.cfg (0x200A : BitVec 16).toNat ∧ (1 : BitVec 8) ≠ 0 :=
  ⟨by unfold writeMapped; decide, by unfold writeMapped; decide, by decide⟩

theorem test_witness_FirProcConvolvesTheHistory : tapped.cfg.Legal ∧ Memory.wf tapped = true := by decide

theorem test_witness_FirRealizationsCannotBeToldApart : SameView tappedLinear tapped :=
  ⟨by decide, by decide, by decide, rfl, by decide⟩

theorem test_witness_FirOfZeroProductsIsPositiveZero :
    start.cfg.Legal ∧ Memory.wf start = true ∧
    ∀ k, k < start.cfg.firN →
      isZero (fmul start.cfg.subnormal (start.memRead .firH k)
        (if k = 0 then start.data else start.firX (k - 1))) :=
  ⟨by decide, by decide, fun k hk => .inl (by revert k; decide)⟩

theorem test_witness_IirStaysWithinTen : start.iir.Bounded start.cfg.subnormal := by
  unfold IirUnit.Bounded inRange; decide

theorem test_witness_NoteOffEntersRelease : start.env.phase = .init ∧
    { start with env := adsr .noteOff 0 }.env.phase = .noteOff ∧
    chained.env.phase ∈ [Phase.attack, .decay, .sustain, .release] := by decide

theorem test_witness_NoStepEntersNoteOff :
    (fed .reset).env.phase ≠ .noteOff ∧ ∃ t, step (fed .reset) = .next t := ⟨by decide, _, rfl⟩

/-- The conditions of R155 at their boundaries: each transition taken on equality, and just missed. -/
theorem test_witness_EnvTickRunsOnePhaseArm :
    fle .flush 0x3F800000 (fadd .flush 0 0x3F800000) = true ∧
    fle .flush 0x3F800000 (fadd .flush 0 0x3F7FFFFF) = false ∧
    fle .flush (fsub .flush 0x3F000000 0) 0x3F000000 = true ∧
    fle .flush (fsub .flush 0x3F000000 0) 0x3EFFFFFF = false ∧
    fle .flush (fsub .flush 0x3F000000 0x3F000000) 0x00000000 = true ∧
    fle .flush (fsub .flush 0x3F000000 0x3EFFFFFF) 0x00000000 = false := by decide

/-- The sustain phase with a new sustain level in `DATA`, and the release of a level with no step. -/
def held (e : EnvUnit) : State := { start with env := e, data := 0x3E800000 }

theorem test_witness_SustainFollowsTheParameter :
    (held (adsr .sustain 0)).env.phase = .sustain ∧
    inRange start.cfg.subnormal f32Zero (held (adsr .sustain 0)).data f32One ∧
    (held (adsr .sustain 0)).data = daz start.cfg.subnormal (held (adsr .sustain 0)).data := by
  unfold inRange; decide

theorem test_witness_DecayAtFullSustainEndsAtOnce :
    (held { adsr .decay 0x3F800000 with sustain := 0x3F800000, decayDec := 0 }).env.phase = .decay := rfl

/-- An attack at 0.5 with the step of 1.0e6 ms, an attack at 0.5 with the tie 2^-25, and the decay from 1.0
of R163. -/
theorem test_witness_AttackStallsBelowHalfAnUlp : (cfg .linear).fs = 44100 ∧
    (held { adsr .attack 0x3F000000 with attackInc := 0x32C2C879 }).env.level = 0x3F000000 ∧
    signBit 0x3F000000 = false ∧ flt start.cfg.subnormal 0x3F000000 0x3F800000 = true ∧
    daz start.cfg.subnormal 0x3F000000 = 0x3F000000 ∧
    (∃ y, realOf 0x32C2C879 = some y ∧ 0 ≤ y ∧ 2 * y < ulpOf 0x3F000000) ∧
    (∃ y, realOf 0x33000000 = some y ∧ 2 * y = ulpOf 0x3F000000 ∧ fracField 0x3F000000 % 2 = 0) ∧
    flt start.cfg.subnormal 0x3F7FFFFE 0x3F800000 = true ∧
    (∃ y, realOf 0x2F949B93 = some y ∧ 0 ≤ y ∧ y ≤ 2 ^ 124) ∧ realOf 0x33000000 = some (2 ^ 124) :=
  ⟨rfl, rfl, by decide, by decide, by decide, ⟨12765305 * 2 ^ 100, by decide⟩, ⟨2 ^ 124, by decide⟩,
    by decide, ⟨9739155 * 2 ^ 94, by decide⟩, by decide⟩

theorem test_witness_ReleaseWithZeroStepNeverEnds :
    (held { adsr .release 0x3F800000 with releaseDec := 0 }).env.phase = .release ∧
    (held { adsr .release 0x3F800000 with releaseDec := 0 }).env.releaseDec = 0 ∧
    flt start.cfg.subnormal f32Zero (held { adsr .release 0x3F800000 with releaseDec := 0 }).env.level =
      true ∧
    fle start.cfg.subnormal (held { adsr .release 0x3F800000 with releaseDec := 0 }).env.level f32One =
      true := by decide

/-- The operand clauses of the sustain, gain and mix commands: above, below, NaN, and in range. -/
theorem test_witness_SustainCommandSaturatesAndRecomputes :
    flt .flush 0x3F800000 0x3F800001 = true ∧ flt .flush 0x80800000 0x00000000 = true ∧
    isNaN 0x7F800001 = true ∧ inRange .flush f32Zero 0x3F800000 f32One := by unfold inRange; decide

/-- The times of TMR-7: zero, -1.0, a NaN, the least subnormal, 0.001 ms. -/
theorem test_witness_ShortTimesCountAsOneSample : ExactRate (cfg .linear) ∧ isNaN 0x7FC00000 = true ∧
    signBit 0xBF800000 = true ∧
    realOf 0x00000000 = some 0 ∧ realOf 0x00000001 = some 1 ∧
    realOf 0x3A83126F = some (8589935 * 2 ^ 116) ∧
    (8589935 * 2 ^ 116 : Int) * (cfg .linear).fs ≤ 1000 * 2 ^ 149 ∧
    inRange (cfg .linear).subnormal f32Zero 0x3F000000 f32One ∧
    daz (cfg .linear).subnormal 0x3F000000 = 0x3F000000 := by
  unfold ExactRate inRange; decide

theorem test_witness_StepsLieInUnitInterval : inRange (cfg .linear).subnormal f32Zero 0x3F800000 f32One := by
  unfold inRange; decide

theorem test_witness_RevProcRunsTheDelayLine : Memory.wf chained = true ∧ Channel.right ≠ .left := by decide

theorem test_witness_RevProcStaysWithinOne :
    ∀ v ∈ (chained.rev .left).buf, inRange chained.cfg.subnormal f32NegOne v f32One := by
  intro v hv
  have h : v = 0 := by simpa [chained, State.rev] using hv
  subst h
  unfold inRange; decide

theorem test_witness_OffsetZeroActsAsRevLen : Memory.wf start = true := by decide

theorem test_witness_RevSetFbSaturatesTheGain :
    flt .flush 0x3F7AE148 0x3F7AE149 = true ∧ flt .flush 0xBF800000 0x00000000 = true ∧
    inRange .flush f32Zero 0x3F7AE148 f32Gain ∧ Channel.left ≠ .right := by unfold inRange; decide

theorem test_witness_RevSetMixSaturatesTheMix :
    flt .flush 0x3F800000 0x40E00000 = true ∧ flt .flush 0xC0E00000 0x00000000 = true ∧
    isNaN 0x7FC00000 = true ∧ inRange .flush f32Zero 0x00000000 f32One := by unfold inRange; decide

theorem test_witness_WriteIndexCountsChainSteps :
    Memory.wf { start with inputs := [.pulse 1, .pulse 2, .reset] } = true ∧
    { start with inputs := [.pulse 1, .pulse 2, .reset] }.inputs = [1, 2].map .pulse ++ [.reset] ∧
    (cfg .circular).Legal := by decide

theorem test_witness_PulseIsTheSameChain :
    (fed (.pulse 0x3F800000)).inputs = .pulse 0x3F800000 :: [] := rfl

theorem test_witness_ChainIgnoresTheIir :
    (fed (.pulse 0x3F800000)).inputs = .pulse 0x3F800000 :: [] := rfl

theorem test_witness_PulseLeavesParametersAlone :
    (fed (.pulse 0x3F800000)).inputs = .pulse 0x3F800000 :: [] := rfl

theorem test_witness_PcmSaturationNeverActs :
    (cfg .linear).Legal ∧ inRange (cfg .linear).subnormal f32NegOne 0xBF800000 f32One :=
  ⟨by decide, by unfold inRange; decide⟩

theorem test_witness_IllegalWordOnlySetsIll : start.cfg.Legal ∧ ¬ legalWord start.cfg 0x03000000 ∧
    ¬ legalWord start.cfg 0x40020000 ∧ ¬ legalWord start.cfg 0x10000001 :=
  ⟨by decide, by unfold legalWord readMapped writeMapped; decide,
    by unfold legalWord readMapped writeMapped; decide,
    by unfold legalWord readMapped writeMapped; decide⟩

theorem test_witness_DecodingAcceptsExactlyTheTable : (cfg .linear).Legal ∧
    legalWord (cfg .linear) 0x02000003 ∧ legalWord (cfg .linear) 0x42010000 :=
  ⟨by decide, by unfold legalWord readMapped writeMapped; decide,
    by unfold legalWord readMapped writeMapped; decide⟩

theorem test_witness_LegalityIgnoresOtherParameters :
    (cfg .linear).firN = (varied 4 4 0 48000 1).firN ∧ (cfg .linear).revLen = (varied 4 4 0 48000 1).revLen := by
  decide

theorem test_witness_DecodeOfEncodeIsTheCommand : Instr.wf (cfg .linear) (.rd (.revBuf .right 3)) = true := by
  decide

theorem test_witness_EncodeOfDecodeIsTheWord : decode (cfg .linear) 0x42010000 = .ok (.revMix .right) := rfl

/-- A fresh reverb is inside its bounds. -/
theorem test_fresh_reverb : start.rev0.Bounded .flush := by
  refine ⟨fun v hv => ?_, by unfold inRange; decide, by unfold inRange; decide⟩
  have h : v = 0 := (List.mem_replicate.1 hv).2
  subst h
  unfold inRange; decide

/-- The small reset state meets the invariant, and a step from it answers a next state. -/
theorem test_witness_EveryStepKeepsTheInvariant :
    start.Inv ∧ ∃ t, step (fed (.pulse 0x3F800000)) = .next t := by
  refine ⟨⟨by decide, by decide, ⟨?_, ⟨?_, ?_⟩, test_fresh_reverb, test_fresh_reverb, ?_, ?_⟩, rfl,
    by decide, by decide⟩, _, rfl⟩
  · unfold IirUnit.Bounded inRange; decide
  · unfold inRange; decide
  · unfold inRange; decide
  · unfold inRange; decide
  · unfold inRange; decide

theorem test_witness_ResultIsWrittenOnlyByItsCommands : writesResult .iirReset = false ∧
    (∃ t, exec .iirReset start = .next t) ∧ (∀ i, decode start.cfg 0x03000000 ≠ .ok i) ∧
    (∃ t, runCommand 0x03000000 start = .next t) ∧ ∃ t, step (fed (.pulse 1)) = .next t :=
  ⟨rfl, ⟨_, rfl⟩, (fun _ h => by cases h), ⟨_, rfl⟩, _, rfl⟩

/-- The last clause, at the first offset past `CMD`. -/
theorem test_witness_ResultIsWrittenOnlyByItsCommands_access :
    (∀ offset w, PortAccess.write 4 9 = .write offset w → ¬ (0 ≤ offset ∧ offset ≤ 3)) ∧
    ∃ t, step (fed (.host (.write 4 9))) = .next t :=
  ⟨fun _ _ h => by cases h; decide, _, rfl⟩

theorem test_witness_CommandsNeverWriteData : ∃ t, exec .pipeStep chained = .next t := ⟨_, rfl⟩

theorem test_witness_LegalCommandsLeaveStatus :
    Instr.wf start.cfg (.rd (.firX 3)) = true ∧ ∃ t, exec .envTick start = .next t := ⟨by decide, _, rfl⟩

theorem test_witness_UnitsAreWrittenOnlyByTheirCommands : writesFir .envOn = false ∧
    writesIir .pipeStep = false ∧ writesEnv .firProc = false ∧
    writesRev .left (.revProc .right) = false ∧ writesOutputs .firProc = false ∧
    ∃ t, exec .envOn start = .next t :=
  ⟨rfl, rfl, rfl, rfl, rfl, _, rfl⟩

/-- Reads and writes at the ends of the block: its first and last byte, and one byte either side. -/
theorem test_witness_PortReadsReturnTheirRegister :
    (fed (.host (.read (busOffset start.cfg 0x40000000)))).inputs =
      .host (.read (busOffset start.cfg 0x40000000)) :: [] ∧
    0x4000001F = start.cfg.base + 0x1F ∧ 0x3FFFFFFF < start.cfg.base ∧
    start.cfg.base + 0x20 ≤ 0x40000020 := by decide

theorem test_witness_PortWritesOutsideCmdAndStatus :
    (fed (.host (.write (busOffset start.cfg 0x40000004) 9))).inputs =
      .host (.write (busOffset start.cfg 0x40000004) 9) :: [] ∧
    0x40000007 = start.cfg.base + 7 ∧ 7 / 4 = 1 ∧ 0x0B / 4 = 2 ∧ 0x10 / 4 = 4 ∧ 0x1F / 4 = 7 := by decide

theorem test_witness_StatusWriteOneClearsIll :
    (fed (.host (.write 0x0C 1))).inputs = .host (.write 0x0C 1) :: [] ∧
    (fed (.host (.write 0x0F 1))).inputs = .host (.write 0x0F 1) :: [] := by decide

theorem test_witness_CoincidentPulseGoesFirst :
    (fed (.coincident (.read 0x08) 0x3F800000)).inputs = .coincident (.read 0x08) 0x3F800000 :: [] := rfl

theorem test_witness_NoInputHoldsAllState : start.inputs = [] := rfl

theorem test_witness_NanResultsAreTheDefaultNan : isNaN (fadd .flush 0x7F800001 0) = true ∧
    isNaN (fsub .flush 0x7F800000 0x7F800000) = true ∧ isNaN (fmul .flush 0 0xFF800000) = true ∧
    isNaN (fdiv .flush 0 0) = true ∧ isNaN 0xFFC00001 = true := by decide

theorem test_witness_FlushIsGradualUnderflowBetweenFlushes : isSubnormal 0x00000001 ∧
    isSubnormal 0x807FFFFF ∧ ¬ isSubnormal 0x00800000 ∧ ¬ isSubnormal 0x80000000 := by
  unfold isSubnormal; decide

/-- The overflow boundary of R10: the largest finite value and half of its last place, and just less; a
zero divisor and zero sums of both signs. -/
theorem test_witness_OperatorsRoundToNearestEven :
    realOf 0x7F7FFFFF = some ((2 ^ 24 - 1) * 2 ^ 253) ∧ realOf 0x73000000 = some (2 ^ 252) ∧
    fadd .preserve 0x7F7FFFFF 0x73000000 = 0x7F800000 ∧
    fadd .preserve 0x7F7FFFFF 0x72FFFFFF = 0x7F7FFFFF ∧
    realOf 0x00000000 = some 0 ∧ realOf 0x80000000 = some 0 ∧
    fadd .preserve 0x80000000 0x80000000 = 0x80000000 ∧ fadd .preserve 0x80000000 0x00000000 = 0 ∧
    fdiv .preserve 0xBF800000 0x00000000 = 0xFF800000 := by decide

/-- Values either side of each other, and a subnormal that FLUSH reads as zero. -/
theorem test_witness_ComparisonsFollowTheValues :
    realOf (daz .preserve 0x80000001) = some (-1) ∧ realOf (daz .preserve 0x00000000) = some 0 ∧
    realOf (daz .flush 0x00000001) = some 0 ∧ realOf (daz .flush 0x7F7FFFFF) = some ((2 ^ 24 - 1) * 2 ^ 253) := by
  decide

/-- A nonzero operand, a zero, and a subnormal that FLUSH reads as zero. -/
theorem test_witness_InfiniteOperandsFollowTheirSigns :
    realOf (daz .flush 0xBF800000) = some (-2 ^ 149) ∧ realOf (daz .flush 0x80000000) = some 0 ∧
    realOf (daz .flush 0x00000001) = some 0 := by decide

/-- R66: the lanes of a word, each with a digit of its own. -/
theorem test_witness_ByteLanesCarryTheWord : byteLane 0x03020100 0 = 0x00 ∧ byteLane 0x03020100 3 = 0x03 ∧
    wordOfLanes 0x00 0x01 0x02 0x03 = 0x03020100 := by decide

theorem test_witness_EmittedAccessesRunTheCommand : Instr.wf start.cfg (.revFb .right) = true ∧
    emitCommand (.revFb .right) 0x3F000000 = [.write 0x04 0x3F000000, .write 0x00 0x41010000] ∧
    emitCommand .envTick 5 = [.write 0x00 0x32000000] := by decide

end Sys2Proof.Tests
end

section
/-! PROOFS. The values of patterns: signed magnitudes, finite patterns as whole numbers of units of 2^-149,
the two infinities, and the operand rule of R11 on each. -/

namespace Sys2Proof.Proofs

open Sys2Proof.Machine Sys2Proof.Claims

theorem signedMag_mul (s t : Bool) (a b : Nat) :
    signedMag s a * signedMag t b = signedMag (s ^^ t) (a * b) := by
  cases s <;> cases t <;> simp [signedMag]

@[simp] theorem natAbs_signedMag (s : Bool) (a : Nat) : (signedMag s a).natAbs = a := by
  cases s <;> simp [signedMag]

@[simp] theorem signedMag_eq_zero (s : Bool) (a : Nat) : signedMag s a = 0 ↔ a = 0 := by
  cases s <;> simp [signedMag]

theorem neg_signedMag (s : Bool) (a : Nat) : -signedMag s a = signedMag (!s) a := by
  cases s <;> simp [signedMag]

theorem signedMag_unit : signedMag false (2 ^ 149) = 2 ^ 149 := rfl

/-- The distance of two values of one sign is that of their magnitudes. -/
theorem natAbs_signedMag_sub_same (s : Bool) (a b : Nat) :
    (signedMag s a - signedMag s b).natAbs = ((a : Int) - b).natAbs := by
  cases s with
  | false => rfl
  | true => simp only [signedMag, if_true]; omega

/-- The distance of two values of opposite signs is the sum of their magnitudes. -/
theorem natAbs_signedMag_sub_opposite {s t : Bool} (h : s ≠ t) (a b : Nat) :
    (signedMag s a - signedMag t b).natAbs = a + b := by
  cases s <;> cases t <;> simp [signedMag] at h ⊢ <;> omega

/-- A pattern has a value exactly where it is finite: its sign and its magnitude (R9). -/
theorem realOf_eq_some_iff {w : Word} {v : Int} :
    realOf w = some v ↔ ∃ x, unpack w = .fin (signBit w) x ∧ signedMag (signBit w) x = v := by
  unfold realOf unpack
  by_cases h255 : expField w = 255
  · by_cases hf : fracField w = 0 <;> simp [h255, hf]
  · by_cases h0 : expField w = 0 <;> simp [h255, h0, signedMag]

@[simp] theorem realOf_withSign (neg : Bool) {p : Nat} (h : p < 0x7F800000) :
    realOf (withSign neg p) = some (signedMag neg (patternMag p)) := by
  have hs : signBit (withSign neg p) = neg := signBit_withSign neg (by omega)
  rw [realOf_eq_some_iff, hs]
  exact ⟨_, unpack_withSign neg h, rfl⟩

/-- A finite pattern is its sign over low 31 bits below those of an infinity. -/
theorem exists_pattern_of_realOf {w : Word} {v : Int} (h : realOf w = some v) :
    ∃ p < 0x7F800000, w = withSign (signBit w) p ∧ v = signedMag (signBit w) (patternMag p) := by
  have hlt : w.toNat % 2 ^ 31 < 2 ^ 31 := Nat.mod_lt _ (by omega)
  have hw := withSign_low w
  have hexp : expField w = w.toNat % 2 ^ 31 / 2 ^ 23 := by
    rw [← expField_withSign (signBit w) hlt, hw]
  have hne : expField w ≠ 255 := fun he => by simp [realOf, he] at h
  have hp : w.toNat % 2 ^ 31 < 0x7F800000 := by omega
  refine ⟨_, hp, hw.symm, ?_⟩
  rw [← hw, realOf_withSign _ hp] at h
  exact (Option.some.inj h).symm

@[simp] theorem signBit_daz (m : SubnormalMode) (w : Word) : signBit (daz m w) = signBit w := by
  cases m with
  | preserve => rfl
  | flush =>
    rw [daz]
    split
    · exact signBit_withSign _ (by omega)
    · rfl

/-- A finite operand after the operand rule keeps its sign bit (R11). -/
theorem unpack_daz_of_realOf {m : SubnormalMode} {w : Word} {v : Int} (h : realOf (daz m w) = some v) :
    ∃ x, unpack (daz m w) = .fin (signBit w) x ∧ signedMag (signBit w) x = v := by
  simpa using realOf_eq_some_iff.1 h

/-- Turning the sign bit turns the sign bit only (R9). -/
theorem signBit_xor (w : Word) : signBit (w ^^^ 0x80000000) = !signBit w := by
  have hp := Nat.mod_lt w.toNat (show 0 < 2 ^ 31 by omega)
  conv_lhs => rw [← withSign_low w, withSign_xor _ hp]
  exact signBit_withSign _ hp

/-- Turning the sign bit turns the value (R9). -/
theorem realOf_xor {w : Word} {v : Int} (h : realOf w = some v) :
    realOf (w ^^^ 0x80000000) = some (-v) := by
  obtain ⟨p, hp, hw, rfl⟩ := exists_pattern_of_realOf h
  rw [hw, withSign_xor _ (by omega), realOf_withSign _ hp, ← hw, neg_signedMag]

@[simp] theorem withSign_infinity (s : Bool) : withSign s 0x7F800000 = infinity s := by cases s <;> rfl

/-- The operand rule leaves an infinity (R11). -/
@[simp] theorem unpack_daz_infinity (m : SubnormalMode) (s : Bool) :
    unpack (daz m (infinity s)) = .inf s := by
  have h : unpack (infinity s) = .inf s := by rw [← withSign_infinity, unpack_infinity]
  rw [unpack_daz_inf h, h]

@[simp] theorem infinity_xor (s : Bool) : infinity s ^^^ 0x80000000 = infinity (!s) := by
  cases s <;> rfl

/-- One magnitude under two signs: below only where the first sign is `-` and the second is not. -/
theorem signedMag_lt_iff {M : Nat} (hM : 0 < M) (s t : Bool) :
    signedMag s M < signedMag t M ↔ s = true ∧ t = false := by
  cases s <;> cases t <;> simp only [signedMag] <;> grind

theorem signedMag_le_iff {M : Nat} (hM : 0 < M) (s t : Bool) :
    signedMag s M ≤ signedMag t M ↔ s = true ∨ t = false := by
  cases s <;> cases t <;> simp only [signedMag] <;> grind

/-- A finite magnitude is below the one that stands for an infinity in the order. -/
theorem patternMag_lt_infinity {p : Nat} (h : p < 0x7F800000) : patternMag p < 2 ^ 277 := by
  have hle : patternMag p ≤ patternMag 0x7F7FFFFF := patternMag_mono (by omega)
  have hlast : patternMag 0x7F7FFFFF = (2 ^ 24 - 1) * 2 ^ 253 := by decide
  omega

/-! A pattern up to an infinity's is no NaN, so no rounded result is one (R10, R12). -/

theorem isNaN_withSign (neg : Bool) {p : Nat} (h : p ≤ 0x7F800000) : isNaN (withSign neg p) = false := by
  rcases Nat.lt_or_eq_of_le h with hlt | rfl
  · simp [isNaN, unpack_withSign neg hlt]
  · simp only [isNaN, unpack_infinity, reduceCtorEq, decide_false]

theorem isNaN_roundResult (m : SubnormalMode) (neg : Bool) (num den : Nat) :
    isNaN (roundResult m neg num den) = false := by
  unfold roundResult
  dsimp only
  split
  · exact isNaN_withSign neg (by omega)
  · split
    · exact isNaN_withSign neg (by omega)
    · exact isNaN_withSign neg (by omega)

theorem isNaN_iff (w : Word) : isNaN w = true ↔ expField w = 255 ∧ fracField w ≠ 0 := by
  unfold isNaN unpack
  by_cases h255 : expField w = 255
  · by_cases hf : fracField w = 0 <;> simp [h255, hf]
  · by_cases h0 : expField w = 0 <;> simp [h255, h0]

/-- Turning the sign bit of a NaN gives a NaN, and of another value none. -/
theorem isNaN_xor (w : Word) : isNaN (w ^^^ 0x80000000) = isNaN w := by
  have hp := Nat.mod_lt w.toNat (show 0 < 2 ^ 31 by omega)
  rw [Bool.eq_iff_iff, ← withSign_low w, withSign_xor _ hp, isNaN_iff, isNaN_iff,
    expField_withSign _ hp, expField_withSign _ hp, fracField_withSign _ hp, fracField_withSign _ hp]

end Sys2Proof.Proofs
end

section
/-! PROOFS. The comparisons (R11, R12, R156): the place of every pattern in the order. -/

namespace Sys2Proof.Proofs

open Sys2Proof.Machine Sys2Proof.Claims

theorem orderKey_of_realOf {m : SubnormalMode} {w : Word} {x : Int} (h : realOf (daz m w) = some x) :
    orderKey m w = some x := by
  obtain ⟨n, hu, rfl⟩ := unpack_daz_of_realOf h
  rw [orderKey, hu]

theorem orderKey_infinity (m : SubnormalMode) (s : Bool) :
    orderKey m (infinity s) = some (signedMag s (2 ^ 277)) := by
  rw [orderKey, unpack_daz_infinity]

/-- A finite value lies strictly between the two infinities, flushed or not. -/
theorem orderKey_finite_between (m : SubnormalMode) {w : Word} {x : Int} (h : realOf w = some x) :
    ∃ k, orderKey m w = some k ∧ signedMag true (2 ^ 277) < k ∧ k < signedMag false (2 ^ 277) := by
  obtain ⟨p, hp, hw, -⟩ := exists_pattern_of_realOf h
  obtain ⟨y, hy, hk⟩ := orderKey_withSign (m := m) (neg := signBit w) hp
  have hlt : y < 2 ^ 277 := Nat.lt_of_le_of_lt hy (patternMag_lt_infinity hp)
  rw [← hw] at hk
  refine ⟨_, hk, ?_⟩
  cases signBit w <;> simp only [signedMag, Bool.false_eq_true, if_true, if_false] <;> omega

theorem flt_of_orderKey {m : SubnormalMode} {a b : Word} {x y : Int} (ha : orderKey m a = some x)
    (hb : orderKey m b = some y) : flt m a b = decide (x < y) := by rw [flt, ha, hb]

theorem fle_of_orderKey {m : SubnormalMode} {a b : Word} {x y : Int} (ha : orderKey m a = some x)
    (hb : orderKey m b = some y) : fle m a b = decide (x ≤ y) := by rw [fle, ha, hb]

/-- Settles O59: each operand has its place in the order, and `<` and `<=` compare the places. -/
theorem comparisonsFollowTheValues : Obligations.ComparisonsFollowTheValues := by
  unfold Obligations.ComparisonsFollowTheValues
  refine ⟨fun m a b x y ha hb => ?_, fun m a x ha => ?_, fun m s t => ?_⟩
  · have hx := orderKey_of_realOf ha
    have hy := orderKey_of_realOf hb
    simp [flt_of_orderKey hx hy, fle_of_orderKey hx hy]
  · obtain ⟨k, hk, hlo, hhi⟩ := orderKey_finite_between m ha
    have hneg := orderKey_infinity m true
    have hpos := orderKey_infinity m false
    rw [flt_of_orderKey hneg hk, fle_of_orderKey hneg hk, flt_of_orderKey hk hneg,
      fle_of_orderKey hk hneg, flt_of_orderKey hk hpos, fle_of_orderKey hk hpos,
      flt_of_orderKey hpos hk, fle_of_orderKey hpos hk]
    simp only [decide_eq_true_eq, decide_eq_false_iff_not]
    omega
  · rw [flt_of_orderKey (orderKey_infinity m s) (orderKey_infinity m t),
      fle_of_orderKey (orderKey_infinity m s) (orderKey_infinity m t)]
    simp only [decide_eq_true_eq]
    exact ⟨signedMag_lt_iff (by positivity) s t, signedMag_le_iff (by positivity) s t⟩

end Sys2Proof.Proofs
end

section
/-! PROOFS. Infinite operands (R10, R12). -/

namespace Sys2Proof.Proofs

open Sys2Proof.Machine Sys2Proof.Claims

/-- The operand of a subtraction with its sign turned: the same finite magnitude (R11). -/
theorem unpack_daz_xor_fin {m : SubnormalMode} {w : Word} {s : Bool} {x : Nat}
    (h : unpack (daz m w) = .fin s x) : unpack (daz m (w ^^^ 0x80000000)) = .fin (!s) x := by
  rw [daz_xor, unpack_xor_fin h]

section
variable {m : SubnormalMode} {b : Word} {t : Bool} {y : Nat} (s : Bool) (h : unpack (daz m b) = .fin t y)
include h

theorem fadd_infinity_fin : fadd m (infinity s) b = infinity s := by
  simp only [fadd, unpack_daz_infinity, h, withSign_infinity]

theorem fadd_fin_infinity : fadd m b (infinity s) = infinity s := by
  simp only [fadd, unpack_daz_infinity, h, withSign_infinity]

theorem fsub_infinity_fin : fsub m (infinity s) b = infinity s :=
  fadd_infinity_fin s (unpack_daz_xor_fin h)

theorem fsub_fin_infinity : fsub m b (infinity s) = infinity (!s) := by
  rw [fsub, infinity_xor, fadd_fin_infinity _ h]

theorem fmul_infinity_fin :
    fmul m (infinity s) b = if y = 0 then f32NaN else infinity (s ^^ t) := by
  simp only [fmul, unpack_daz_infinity, h, withSign_infinity]

theorem fmul_fin_infinity :
    fmul m b (infinity s) = if y = 0 then f32NaN else infinity (t ^^ s) := by
  simp only [fmul, unpack_daz_infinity, h, withSign_infinity]

theorem fdiv_infinity_fin : fdiv m (infinity s) b = infinity (s ^^ t) := by
  simp only [fdiv, unpack_daz_infinity, h, withSign_infinity]

theorem fdiv_fin_infinity : fdiv m b (infinity s) = withSign (t ^^ s) 0 := by
  simp only [fdiv, unpack_daz_infinity, h]

end

theorem fadd_infinity_infinity (m : SubnormalMode) (s t : Bool) :
    fadd m (infinity s) (infinity t) = if s = t then infinity s else f32NaN := by
  simp only [fadd, unpack_daz_infinity, withSign_infinity]

theorem fsub_infinity_infinity (m : SubnormalMode) (s t : Bool) :
    fsub m (infinity s) (infinity t) = if s = t then f32NaN else infinity s := by
  rw [fsub, infinity_xor, fadd_infinity_infinity]
  cases s <;> cases t <;> rfl

theorem fmul_infinity_infinity (m : SubnormalMode) (s t : Bool) :
    fmul m (infinity s) (infinity t) = infinity (s ^^ t) := by
  simp only [fmul, unpack_daz_infinity, withSign_infinity]

theorem fdiv_infinity_infinity (m : SubnormalMode) (s t : Bool) :
    fdiv m (infinity s) (infinity t) = f32NaN := by
  simp only [fdiv, unpack_daz_infinity]

theorem withSign_zero (s : Bool) : withSign s 0 = if s then 0x80000000 else 0x00000000 := by
  cases s <;> rfl

/-- Settles O60: each operator by whether the other operand is finite, a zero, or an infinity. -/
theorem infiniteOperandsFollowTheirSigns : Obligations.InfiniteOperandsFollowTheirSigns := by
  unfold Obligations.InfiniteOperandsFollowTheirSigns
  refine ⟨fun m s b y hy => ?_, fun m s t => ?_⟩
  · obtain ⟨n, h, rfl⟩ := unpack_daz_of_realOf hy
    rw [fmul_infinity_fin s h, fmul_fin_infinity s h, fdiv_fin_infinity s h, withSign_zero]
    refine ⟨⟨fadd_infinity_fin s h, fadd_fin_infinity s h⟩,
      ⟨fsub_infinity_fin s h, fsub_fin_infinity s h⟩, fun hn => ?_, fun hn => ?_,
      fdiv_infinity_fin s h, rfl⟩
    · rw [Ne, signedMag_eq_zero] at hn
      simp only [if_neg hn, and_self]
    · rw [signedMag_eq_zero] at hn
      simp only [if_pos hn, f32NaN, and_self]
  · exact ⟨fadd_infinity_infinity m s t, fsub_infinity_infinity m s t,
      fmul_infinity_infinity m s t, fdiv_infinity_infinity m s t⟩

end Sys2Proof.Proofs
end

section
/-! PROOFS. NaN operands and NaN results (R12). -/

namespace Sys2Proof.Proofs

open Sys2Proof.Machine Sys2Proof.Claims

theorem isNaN_infinity (s : Bool) : isNaN (infinity s) = false := by
  rw [← withSign_infinity]; exact isNaN_withSign s (Nat.le_refl _)

theorem isNaN_zero (s : Bool) : isNaN (withSign s 0) = false := isNaN_withSign s (by omega)

/-- A sum is the default NaN or no NaN at all: every other arm is an infinity, a zero or a rounding. -/
theorem fadd_eq_nan_of_isNaN {m : SubnormalMode} {a b : Word} (h : isNaN (fadd m a b) = true) :
    fadd m a b = f32NaN := by
  revert h
  unfold fadd
  split
  · exact fun _ => rfl
  · exact fun _ => rfl
  · split <;> simp [isNaN_infinity]
  · simp [isNaN_infinity]
  · simp [isNaN_infinity]
  · dsimp only
    split <;> simp [isNaN_zero, isNaN_roundResult]

theorem fmul_eq_nan_of_isNaN {m : SubnormalMode} {a b : Word} (h : isNaN (fmul m a b) = true) :
    fmul m a b = f32NaN := by
  revert h
  unfold fmul
  split
  · exact fun _ => rfl
  · exact fun _ => rfl
  · simp [isNaN_infinity]
  · split <;> simp [isNaN_infinity]
  · split <;> simp [isNaN_infinity]
  · simp [isNaN_roundResult]

theorem fdiv_eq_nan_of_isNaN {m : SubnormalMode} {a b : Word} (h : isNaN (fdiv m a b) = true) :
    fdiv m a b = f32NaN := by
  revert h
  unfold fdiv
  split
  · exact fun _ => rfl
  · exact fun _ => rfl
  · exact fun _ => rfl
  · simp [isNaN_infinity]
  · simp [isNaN_zero]
  · split
    · split <;> simp [isNaN_infinity]
    · simp [isNaN_roundResult]

/-- A NaN operand stays one under the operand rule (R11). -/
theorem unpack_daz_of_isNaN (m : SubnormalMode) {w : Word} (h : isNaN w = true) :
    unpack (daz m w) = .nan := by
  have hw : unpack w = .nan := by simpa [isNaN] using h
  rw [unpack_daz_nan hw, hw]

section
variable {m : SubnormalMode} {a b : Word}

theorem fadd_of_nan (h : isNaN a = true ∨ isNaN b = true) : fadd m a b = f32NaN := by
  rcases h with h | h
  · simp only [fadd, unpack_daz_of_isNaN m h]
  · cases ha : unpack (daz m a) <;> simp only [fadd, unpack_daz_of_isNaN m h, ha]

theorem fsub_of_nan (h : isNaN a = true ∨ isNaN b = true) : fsub m a b = f32NaN :=
  fadd_of_nan (h.imp_right fun hb => (isNaN_xor b).trans hb)

theorem fmul_of_nan (h : isNaN a = true ∨ isNaN b = true) : fmul m a b = f32NaN := by
  rcases h with h | h
  · simp only [fmul, unpack_daz_of_isNaN m h]
  · cases ha : unpack (daz m a) <;> simp only [fmul, unpack_daz_of_isNaN m h, ha]

theorem fdiv_of_nan (h : isNaN a = true ∨ isNaN b = true) : fdiv m a b = f32NaN := by
  rcases h with h | h
  · simp only [fdiv, unpack_daz_of_isNaN m h]
  · cases ha : unpack (daz m a) <;> simp only [fdiv, unpack_daz_of_isNaN m h, ha]

/-- A NaN has no place in the order, so no comparison with it holds. -/
theorem compare_of_nan (h : isNaN a = true ∨ isNaN b = true) : flt m a b = false ∧ fle m a b = false := by
  have no_key : ∀ {w : Word}, isNaN w = true → orderKey m w = none := fun hw => by
    rw [orderKey, unpack_daz_of_isNaN m hw]
  rcases h with h | h
  · simp only [flt, fle, no_key h, and_self]
  · cases ha : orderKey m a <;> simp only [flt, fle, no_key h, ha, and_self]

end

/-- Settles O55: the arms of each operator that give a NaN give the default one, and a NaN operand leads to
one of them. -/
theorem nanResultsAreTheDefaultNan : Obligations.NanResultsAreTheDefaultNan := by
  unfold Obligations.NanResultsAreTheDefaultNan
  refine ⟨fun m a b => ⟨fadd_eq_nan_of_isNaN, fadd_eq_nan_of_isNaN, fmul_eq_nan_of_isNaN,
    fdiv_eq_nan_of_isNaN⟩, fun m a b h => ⟨fadd_of_nan h, fsub_of_nan h, fmul_of_nan h, fdiv_of_nan h,
    compare_of_nan h⟩, fun m => ?_⟩
  cases m <;> decide

end Sys2Proof.Proofs
end

section
/-! PROOFS. FLUSH between two flushes (R11). -/

namespace Sys2Proof.Proofs

open Sys2Proof.Machine Sys2Proof.Claims

theorem daz_preserve (w : Word) : daz .preserve w = w := rfl

theorem daz_flush_nan : daz .flush f32NaN = f32NaN := by decide

theorem daz_flush_infinity (s : Bool) : daz .flush (infinity s) = infinity s := by cases s <;> decide

theorem daz_flush_zero (s : Bool) : daz .flush (withSign s 0) = withSign s 0 := by cases s <;> decide

/-- Rounding under FLUSH is rounding with gradual underflow, and then the flush of the result (R11). -/
theorem roundResult_flush (neg : Bool) (num den : Nat) :
    roundResult .flush neg num den = daz .flush (roundResult .preserve neg num den) := by
  unfold roundResult
  dsimp only
  split
  · rw [withSign_infinity, daz_flush_infinity]
  · rename_i hfin
    have hp : roundPattern num den < 2 ^ 31 := by omega
    simp only [true_and, reduceCtorEq, false_and, if_false, daz, expField_withSign neg hp,
      signBit_withSign neg hp]
    congr 1
    exact propext (by omega)

theorem fadd_flush (a b : Word) :
    fadd .flush a b = daz .flush (fadd .preserve (daz .flush a) (daz .flush b)) := by
  simp only [fadd, daz_preserve]
  cases unpack (daz .flush a) with
  | nan => exact daz_flush_nan.symm
  | inf s =>
    cases unpack (daz .flush b) with
    | nan => exact daz_flush_nan.symm
    | inf t => simp only [apply_ite (daz .flush), withSign_infinity, daz_flush_infinity, daz_flush_nan]
    | fin t y => simp only [withSign_infinity, daz_flush_infinity]
  | fin s x =>
    cases unpack (daz .flush b) with
    | nan => exact daz_flush_nan.symm
    | inf t => simp only [withSign_infinity, daz_flush_infinity]
    | fin t y => simp only [apply_ite (daz .flush), daz_flush_zero, roundResult_flush]

theorem fsub_flush (a b : Word) :
    fsub .flush a b = daz .flush (fsub .preserve (daz .flush a) (daz .flush b)) := by
  rw [fsub, fsub, fadd_flush, daz_xor]

theorem fmul_flush (a b : Word) :
    fmul .flush a b = daz .flush (fmul .preserve (daz .flush a) (daz .flush b)) := by
  simp only [fmul, daz_preserve]
  cases unpack (daz .flush a) with
  | nan => exact daz_flush_nan.symm
  | inf s =>
    cases unpack (daz .flush b) with
    | nan => exact daz_flush_nan.symm
    | inf t => simp only [withSign_infinity, daz_flush_infinity]
    | fin t y => simp only [apply_ite (daz .flush), withSign_infinity, daz_flush_infinity, daz_flush_nan]
  | fin s x =>
    cases unpack (daz .flush b) with
    | nan => exact daz_flush_nan.symm
    | inf t => simp only [apply_ite (daz .flush), withSign_infinity, daz_flush_infinity, daz_flush_nan]
    | fin t y => simp only [roundResult_flush]

theorem fdiv_flush (a b : Word) :
    fdiv .flush a b = daz .flush (fdiv .preserve (daz .flush a) (daz .flush b)) := by
  simp only [fdiv, daz_preserve]
  cases unpack (daz .flush a) with
  | nan => exact daz_flush_nan.symm
  | inf s =>
    cases unpack (daz .flush b) with
    | nan => exact daz_flush_nan.symm
    | inf t => exact daz_flush_nan.symm
    | fin t y => simp only [withSign_infinity, daz_flush_infinity]
  | fin s x =>
    cases unpack (daz .flush b) with
    | nan => exact daz_flush_nan.symm
    | inf t => simp only [daz_flush_zero]
    | fin t y =>
      simp only [apply_ite (daz .flush), withSign_infinity, daz_flush_infinity, daz_flush_nan,
        roundResult_flush]

/-- A zero of a value's sign is the value's sign bit alone (R9). -/
theorem withSign_signBit_zero (w : Word) : withSign (signBit w) 0 = w &&& 0x80000000 := by
  apply BitVec.eq_of_toNat_eq
  rw [withSign_toNat _ (by omega), BitVec.toNat_and]
  change _ = w.toNat &&& 2 ^ 31
  rw [Nat.and_two_pow, signBit, BitVec.msb_eq_getLsbD_last]
  cases h : w.toNat.testBit 31 <;> simp [BitVec.getLsbD, h]

theorem daz_flush_subnormal {w : Word} (h : isSubnormal w) : daz .flush w = w &&& 0x80000000 := by
  rw [daz, if_pos h.1, withSign_signBit_zero]

/-- Outside the subnormals the flush changes nothing: the exponent field is not 0, or the value is a zero. -/
theorem daz_flush_of_not_subnormal {w : Word} (h : ¬ isSubnormal w) : daz .flush w = w := by
  rw [daz]
  split
  · rename_i he
    have hf : fracField w = 0 := by_contra fun hf => h ⟨he, hf⟩
    have hlow : w.toNat % 2 ^ 31 = 0 := by unfold expField at he; unfold fracField at hf; omega
    rw [← hlow]
    exact withSign_low w
  · rfl

/-- Settles O56: each arm of each operator gives under FLUSH the flushed word it gives under PRESERVE. -/
theorem flushIsGradualUnderflowBetweenFlushes : Obligations.FlushIsGradualUnderflowBetweenFlushes :=
  ⟨fun a b => ⟨fadd_flush a b, fsub_flush a b, fmul_flush a b, fdiv_flush a b, rfl, rfl⟩,
    fun _ => daz_flush_subnormal, fun _ => daz_flush_of_not_subnormal⟩

end Sys2Proof.Proofs
end

section
/-! PROOFS. Rounding to nearest even of the exact results (R10). -/

namespace Sys2Proof.Proofs

open Sys2Proof.Machine Sys2Proof.Claims

/-- No finite value is nearer to `num / den` under a sign than the rounded pattern under that sign; one as
near leaves the even pattern chosen. Values of the other sign lie no nearer than zero. -/
theorem roundPattern_nearest_signed {num den : Nat} (hd : 0 < den) (s r : Bool) (P : Nat) :
    (signedMag s (patternMag (roundPattern num den) * den) - signedMag s num).natAbs ≤
      (signedMag r (patternMag P * den) - signedMag s num).natAbs ∧
    ((signedMag s (patternMag (roundPattern num den) * den) - signedMag s num).natAbs =
        (signedMag r (patternMag P * den) - signedMag s num).natAbs →
      signedMag r (patternMag P) ≠ signedMag s (patternMag (roundPattern num den)) →
      roundPattern num den % 2 = 0) := by
  rw [natAbs_signedMag_sub_same]
  by_cases hs : r = s
  · subst hs
    rw [natAbs_signedMag_sub_same]
    obtain ⟨hle, heven⟩ := roundPattern_nearest hd (num := num) P
    push_cast
    exact ⟨hle, fun he hne => heven he fun h => hne (by rw [h])⟩
  · rw [natAbs_signedMag_sub_opposite hs]
    obtain ⟨hle, heven⟩ := roundPattern_nearest hd (num := num) 0
    have hzero : patternMag 0 = 0 := rfl
    rw [hzero] at hle heven
    push_cast
    refine ⟨by omega, fun he hne => heven (by omega) fun h => hne ?_⟩
    have hP : patternMag P * den = 0 := by omega
    rw [← h, (Nat.mul_eq_zero.1 hP).resolve_right (by omega), (signedMag_eq_zero r 0).2 rfl,
      (signedMag_eq_zero s 0).2 rfl]

/-- One rounding of `num / den` under the sign of the operands is R10's rounding of the exact quotient. -/
theorem roundsTo_roundResult {den : Nat} (hd : 0 < den) (s t : Bool) (num : Nat) :
    RoundsTo (roundResult .preserve (s ^^ t) num den) (signedMag t den) (signedMag s num) (s ^^ t) := by
  have hover := roundPattern_overflow_iff hd (num := num)
  unfold RoundsTo roundResult
  simp only [natAbs_signedMag, reduceCtorEq, false_and, if_false, withSign_infinity, ← hover, ← not_le]
  refine ⟨fun hfin => ?_, fun hinf => if_pos hinf⟩
  have hp : roundPattern num den < 0x7F800000 := by omega
  rw [if_neg hfin]
  refine ⟨⟨_, realOf_withSign _ hp, fun w u hu => ?_⟩, signBit_withSign _ (by omega)⟩
  obtain ⟨P, -, -, rfl⟩ := exists_pattern_of_realOf hu
  have hsign : ((s ^^ t) ^^ t) = s := by simp
  obtain ⟨hle, heven⟩ := roundPattern_nearest_signed hd (num := num) s (signBit w ^^ t) P
  rw [signedMag_mul, signedMag_mul, hsign, fracField_withSign _ (by omega)]
  refine ⟨hle, fun he hne => ?_⟩
  have hne' : signedMag (signBit w ^^ t) (patternMag P) ≠ signedMag s (patternMag (roundPattern num den)) :=
    fun h => hne (by simpa [signedMag_mul] using congrArg (· * signedMag t 1) h)
  have := heven he hne'
  omega

/-- The sign of a sum with its magnitude is the sum (R10). -/
theorem signedMag_sumSign (z : Int) (s t : Bool) : signedMag (sumSign z s t) z.natAbs = z := by
  unfold sumSign
  split
  · subst z; simp
  · by_cases h : z < 0 <;> simp only [h, signedMag, decide_true, decide_false, if_true, Bool.false_eq_true,
      if_false] <;> omega

section
variable {a b : Word} {x y : Int} (ha : realOf a = some x) (hb : realOf b = some y)
include ha hb

/-- A sum of finite values, a zero sum among them, is one rounding of the exact sum (R10). -/
theorem fadd_preserve_fin : fadd .preserve a b =
    roundResult .preserve (sumSign (x + y) (signBit a) (signBit b)) (x + y).natAbs 1 := by
  obtain ⟨m, hm, rfl⟩ := realOf_eq_some_iff.1 ha
  obtain ⟨n, hn, rfl⟩ := realOf_eq_some_iff.1 hb
  have hzero : ∀ s, roundResult .preserve s 0 1 = withSign s 0 := fun s => rfl
  simp only [fadd, daz_preserve, hm, hn, sumSign]
  split
  · rename_i hz
    rw [hz, Int.natAbs_zero, hzero]
  · rfl

theorem fadd_roundsTo :
    RoundsTo (fadd .preserve a b) 1 (x + y) (sumSign (x + y) (signBit a) (signBit b)) := by
  have h := roundsTo_roundResult (den := 1) (by omega) (sumSign (x + y) (signBit a) (signBit b)) false
    (x + y).natAbs
  rwa [Bool.xor_false, signedMag_sumSign, ← fadd_preserve_fin ha hb] at h

theorem fsub_roundsTo :
    RoundsTo (fsub .preserve a b) 1 (x - y) (sumSign (x - y) (signBit a) (!signBit b)) := by
  have h := fadd_roundsTo ha (realOf_xor hb)
  rwa [signBit_xor] at h

theorem fmul_roundsTo : RoundsTo (fmul .preserve a b) (2 ^ 149) (x * y) (signBit a ^^ signBit b) := by
  obtain ⟨m, hm, rfl⟩ := realOf_eq_some_iff.1 ha
  obtain ⟨n, hn, rfl⟩ := realOf_eq_some_iff.1 hb
  have h := roundsTo_roundResult (den := 2 ^ 149) (by omega) (signBit a ^^ signBit b) false (m * n)
  rw [Bool.xor_false, signedMag_unit] at h
  simpa only [fmul, daz_preserve, hm, hn, signedMag_mul] using h

theorem fdiv_roundsTo (hy : y ≠ 0) :
    RoundsTo (fdiv .preserve a b) y (x * 2 ^ 149) (signBit a ^^ signBit b) := by
  obtain ⟨m, hm, rfl⟩ := realOf_eq_some_iff.1 ha
  obtain ⟨n, hn, rfl⟩ := realOf_eq_some_iff.1 hb
  rw [Ne, signedMag_eq_zero] at hy
  have h := roundsTo_roundResult (Nat.pos_of_ne_zero hy) (signBit a) (signBit b) (m * 2 ^ 149)
  rw [← Bool.xor_false (signBit a), ← signedMag_mul, Bool.xor_false, signedMag_unit] at h
  simpa only [fdiv, daz_preserve, hm, hn, if_neg hy] using h

/-- R12: a division by zero is an infinity of the combined sign, or invalid where the dividend is a zero too. -/
theorem fdiv_zero_divisor (hy : y = 0) :
    fdiv .preserve a b = if x = 0 then f32NaN else infinity (signBit a ^^ signBit b) := by
  obtain ⟨m, hm, rfl⟩ := realOf_eq_some_iff.1 ha
  obtain ⟨n, hn, rfl⟩ := realOf_eq_some_iff.1 hb
  rw [signedMag_eq_zero] at hy
  simp only [fdiv, daz_preserve, hm, hn, if_pos hy, withSign_infinity, signedMag_eq_zero]

end

/-- Settles O57: each operator is one rounding of its exact result under the exact result's sign. -/
theorem operatorsRoundToNearestEven : Obligations.OperatorsRoundToNearestEven := by
  unfold Obligations.OperatorsRoundToNearestEven
  intro a b x y ha hb
  refine ⟨fadd_roundsTo ha hb, fsub_roundsTo ha hb, fmul_roundsTo ha hb, fdiv_roundsTo ha hb,
    fun hy hx => ?_, fun hy hx => ?_⟩
  · rw [fdiv_zero_divisor ha hb hy, if_neg hx]
  · rw [fdiv_zero_divisor ha hb hy, if_pos hx]
    rfl

end Sys2Proof.Proofs
end

section
/-! PROOFS. The 16-bit sample (R46, R214). -/

namespace Sys2Proof.Proofs

open Sys2Proof.Machine Sys2Proof.Claims

/-- The place of `1.0` and of `-1.0` in the order. -/
theorem orderKey_one (m : SubnormalMode) :
    orderKey m f32NegOne = some (-2 ^ 149) ∧ orderKey m f32One = some (2 ^ 149) := by
  cases m <;> decide

/-- A value in [-1, 1] is finite, and no larger than `1.0` after the operand rule. -/
theorem unpack_daz_of_unit_range {m : SubnormalMode} {w : Word} (h : inRange m f32NegOne w f32One) :
    ∃ s x, unpack (daz m w) = .fin s x ∧ x ≤ 2 ^ 149 := by
  obtain ⟨hneg, hone⟩ := orderKey_one m
  obtain ⟨l, k, hl, hk, hlo⟩ := fle_iff.1 h.1
  obtain ⟨k', u, hk', hu, hhi⟩ := fle_iff.1 h.2
  cases hneg.symm.trans hl
  cases hone.symm.trans hu
  cases hk.symm.trans hk'
  rw [orderKey] at hk
  cases hw : unpack (daz m w) with
  | nan => rw [hw] at hk; cases hk
  | inf s =>
    rw [hw] at hk
    cases hk
    cases s <;> simp only [signedMag, Bool.false_eq_true, if_true, if_false] at hlo hhi <;> omega
  | fin s x =>
    rw [hw] at hk
    cases hk
    refine ⟨s, x, rfl, ?_⟩
    cases s <;> simp only [signedMag, Bool.false_eq_true, if_true, if_false] at hlo hhi <;> omega

/-- The magnitude of 32767.0, the largest `PCM_SCALE` (R6). -/
theorem patternMag_max_scale : patternMag 0x46FFFE00 = 32767 * 2 ^ 149 := by decide

/-- A legal scale is positive, and no larger than 32767.0 after the operand rule (R6). -/
theorem unpack_daz_legal_scale {p : Params} (hp : p.Legal) (m : SubnormalMode) :
    ∃ y, unpack (daz m p.pcmScale) = .fin false y ∧ y ≤ 32767 * 2 ^ 149 := by
  obtain ⟨-, -, -, -, -, -, hmax⟩ := hp
  have hw : p.pcmScale = withSign false p.pcmScale.toNat := by
    simp [withSign]
  have hu := unpack_withSign false (show p.pcmScale.toNat < 0x7F800000 by omega)
  rw [← hw] at hu
  obtain ⟨y, hy, hle⟩ := unpack_daz_fin (m := m) hu
  exact ⟨y, hy, hle.trans ((patternMag_mono hmax).trans_eq patternMag_max_scale)⟩

/-- The scaled output is finite and at most 32767.0 in magnitude: the rounding cannot pass a representable
bound (R10, R214). -/
theorem scaled_output_bounded {p : Params} {o : Word} (hp : p.Legal)
    (ho : inRange p.subnormal f32NegOne o f32One) :
    ∃ s P, P < 0x7F800000 ∧ patternMag P ≤ 32767 * 2 ^ 149 ∧
      fmul p.subnormal o p.pcmScale = withSign s P := by
  obtain ⟨s, x, hx, hxle⟩ := unpack_daz_of_unit_range ho
  obtain ⟨y, hy, hyle⟩ := unpack_daz_legal_scale hp p.subnormal
  have hprod : x * y ≤ patternMag 0x46FFFE00 * 2 ^ 149 := by
    rw [patternMag_max_scale, Nat.mul_comm]
    exact Nat.mul_le_mul hyle hxle
  obtain ⟨P, hP, hr⟩ := roundResult_le (m := p.subnormal) (neg := s ^^ false) (by omega) (by omega) hprod
  refine ⟨s ^^ false, P, by omega, (patternMag_mono hP).trans_eq patternMag_max_scale, ?_⟩
  simp only [fmul, hx, hy, hr]

theorem clamp16_of_bounded {q : Int} (hlo : -32768 ≤ q) (hhi : q ≤ 32767) : clamp16 q = q := by
  rw [clamp16, if_neg (by omega), if_neg (by omega)]

/-- Truncation of a finite pattern (R15): the whole units of its magnitude, under its sign. -/
theorem truncToInt_withSign (s : Bool) {P : Nat} (h : P < 0x7F800000) :
    truncToInt (withSign s P) = signedMag s (patternMag P / 2 ^ 149) := by
  rw [truncToInt, unpack_withSign s h]

/-- Settles O37: the product of an output in [-1, 1] and a legal scale rounds to at most 32767.0, so its
integer part passes the clamp and fits 16 bits. -/
theorem pcmSaturationNeverActs : Obligations.PcmSaturationNeverActs := by
  unfold Obligations.PcmSaturationNeverActs
  intro p o hp ho
  obtain ⟨s, P, hfin, hP, hmul⟩ := scaled_output_bounded hp ho
  have hdiv : patternMag P / 2 ^ 149 ≤ 32767 := by omega
  have hrange : -32767 ≤ signedMag s (patternMag P / 2 ^ 149) ∧
      signedMag s (patternMag P / 2 ^ 149) ≤ 32767 := by
    cases s <;> simp only [signedMag, Bool.false_eq_true, if_true, if_false] <;> omega
  have hq : (pcm16 p o).toInt = signedMag s (patternMag P / 2 ^ 149) := by
    rw [pcm16, hmul, truncToInt_withSign s hfin, clamp16_of_bounded (by omega) hrange.2,
      BitVec.toInt_ofInt, Int.bmod_eq_of_le (by omega) (by omega)]
  refine ⟨_, hmul ▸ realOf_withSign s hfin, ?_⟩
  dsimp only
  rw [hq, hmul, truncToInt_withSign s hfin]
  refine ⟨hrange, rfl, ?_⟩
  cases s <;> simp only [signedMag, Bool.false_eq_true, if_true, if_false] <;> omega

end Sys2Proof.Proofs
end

section
/-! PROOFS. What no command writes (R18, R41). -/

namespace Sys2Proof.Proofs

open Sys2Proof.Machine Sys2Proof.Claims

/-- The two states agree outside the core's units and registers: on `DATA`, the configuration, the inputs to
come and the words the host has read. -/
def SameHostSide (s t : State) : Prop :=
  t.data = s.data ∧ t.cfg = s.cfg ∧ t.inputs = s.inputs ∧ t.readLog = s.readLog

theorem SameHostSide.trans {s t u : State} (h : SameHostSide s t) (k : SameHostSide t u) :
    SameHostSide s u :=
  ⟨k.1.trans h.1, k.2.1.trans h.2.1, k.2.2.1.trans h.2.2.1, k.2.2.2.trans h.2.2.2⟩

theorem sameHostSide_setResult (s : State) (v : Word) : SameHostSide s (s.setResult v) :=
  ⟨rfl, rfl, rfl, rfl⟩

theorem sameHostSide_raiseIllegal (s : State) : SameHostSide s s.raiseIllegal := ⟨rfl, rfl, rfl, rfl⟩

theorem sameHostSide_setRev (s : State) (c : Channel) (u : RevUnit) : SameHostSide s (s.setRev c u) := by
  simp [SameHostSide]

theorem sameHostSide_memWrite (s : State) (sp : Space) (i : Nat) (v : Word) :
    SameHostSide s (s.memWrite sp i v) := by
  cases sp with
  | revBuf c => exact sameHostSide_setRev s c _
  | _ => exact ⟨rfl, rfl, rfl, rfl⟩

theorem sameHostSide_memWrites (sp : Space) (v : Word) (is : List Nat) (s : State) :
    SameHostSide s (is.foldl (fun t i => t.memWrite sp i v) s) := by
  induction is generalizing s with
  | nil => exact ⟨rfl, rfl, rfl, rfl⟩
  | cons i is ih => exact (sameHostSide_memWrite s sp i v).trans (ih _)

/-- A coefficient write is one memory write (R232). -/
theorem exists_memWrite_of_writeElement {s t : State} {v : Word} {e : Element}
    (h : s.writeElement v e = some t) : ∃ sp i, t = s.memWrite sp i v := by
  cases e with
  | firH k =>
    rw [State.writeElement] at h
    split at h
    · exact ⟨_, _, (Option.some.inj h).symm⟩
    · cases h
  | iirC j => exact ⟨_, _, (Option.some.inj h).symm⟩
  | _ => cases h

theorem sameHostSide_iirStep (x : Word) (s : State) : SameHostSide s (iirStep x s).1 := by
  rw [iirStep_frame]; exact ⟨rfl, rfl, rfl, rfl⟩

/-- The host side is no command's to write. -/
theorem exec_sameHostSide {i : Instr} {s t : State} (h : exec i s = .next t) : SameHostSide s t := by
  cases i with
  | rd e =>
    simp only [exec, execRd] at h
    split at h
    · cases h; exact sameHostSide_setResult s _
    · cases h; exact sameHostSide_raiseIllegal s
  | wr e =>
    simp only [exec, execWr] at h
    split at h
    · rename_i u hu
      obtain ⟨sp, i, rfl⟩ := exists_memWrite_of_writeElement hu
      cases h
      exact sameHostSide_memWrite s sp i _
    · cases h; exact sameHostSide_raiseIllegal s
  | iirProc =>
    cases h
    exact (sameHostSide_iirStep _ s).trans (sameHostSide_setResult _ _)
  | revProc c =>
    cases h
    exact (sameHostSide_setRev s c _).trans (sameHostSide_setResult _ _)
  | revFb c => cases h; exact sameHostSide_setRev s c _
  | revMix c => cases h; exact sameHostSide_setRev s c _
  | iirReset => cases h; exact sameHostSide_memWrites .iirW f32Zero _ s
  | _ => cases h; exact ⟨rfl, rfl, rfl, rfl⟩

/-- Settles O47, by the operations each command is made of. -/
theorem commandsNeverWriteData : Obligations.CommandsNeverWriteData :=
  fun _ _ _ h => exec_sameHostSide h

end Sys2Proof.Proofs
end

section
/-! PROOFS. The host port's accesses (R61, R62), and what a host write of `STATUS` leaves (R43). -/

namespace Sys2Proof.Proofs

open Sys2Proof.Machine Sys2Proof.Claims

theorem step_of_inputs {s : State} {i : Input} {rest : List Input} (h : s.inputs = i :: rest) :
    step s = takeInput i { s with inputs := rest } := by rw [step, h]

theorem portRegOf_eq_cmd_iff (r : Nat) : portRegOf r = .cmd ↔ r = 0 := by
  unfold portRegOf
  split <;> simp_all

/-- `CMD` is selected at the byte offsets 0 to 3 (R61, R62). -/
theorem portSelect_eq_cmd_iff (offset : Int) :
    portSelect offset = some .cmd ↔ 0 ≤ offset ∧ offset ≤ 3 := by
  unfold portSelect
  split
  · rw [Option.some_inj, portRegOf_eq_cmd_iff]; omega
  · simp only [reduceCtorEq, false_iff]; omega

/-- `STATUS` is selected at the byte offsets 0x0C to 0x0F (R61, R62). -/
theorem portSelect_status {offset : Int} (hlo : 0x0C ≤ offset) (hhi : offset ≤ 0x0F) :
    portSelect offset = some .status := by
  rw [portSelect, if_pos (by omega), show offset.toNat / 4 = 3 by omega]; rfl

/-- A write of a register other than `CMD` answers, and reaches `DATA` and `STATUS` at most (R61). -/
theorem portWrite_of_ne_cmd {r : PortReg} (h : r ≠ .cmd) (w : Word) (s : State) :
    ∃ d st, portWrite r w s = .next { s with data := d, status := st } := by
  cases r with
  | cmd => exact absurd rfl h
  | _ => exact ⟨_, _, rfl⟩

/-- A host access that is no write of `CMD` answers, and reaches `DATA`, `STATUS` and the words the host has
read at most (R61). -/
theorem portAccess_of_not_cmd {a : PortAccess}
    (h : ∀ offset w, a = .write offset w → ¬ (0 ≤ offset ∧ offset ≤ 3)) (s : State) :
    ∃ d st l, portAccess a s = .next { s with data := d, status := st, readLog := l } := by
  cases a with
  | write offset w =>
    have hcmd := h offset w rfl
    rw [← portSelect_eq_cmd_iff] at hcmd
    cases hsel : portSelect offset with
    | none => exact ⟨s.data, s.status, s.readLog, by rw [portAccess, hsel]⟩
    | some r =>
      obtain ⟨d, st, hw⟩ := portWrite_of_ne_cmd (fun hr => hcmd (hsel.trans (congrArg some hr))) w s
      exact ⟨d, st, s.readLog, by rw [portAccess, hsel]; exact hw⟩
  | read offset =>
    cases hsel : portSelect offset with
    | none => exact ⟨s.data, s.status, s.readLog, by rw [portAccess, hsel]⟩
    | some r => exact ⟨s.data, s.status, _, by rw [portAccess, hsel]⟩

/-- A write of `STATUS` keeps every reserved bit, and of bit 0 what the written bit 0 does not clear. -/
theorem writeStatus_getLsbD (s : State) (v : Word) (n : Nat) :
    (s.writeStatus v).status.getLsbD n = (s.status.getLsbD n && !(v.getLsbD n && decide (n = 0))) := by
  by_cases hn : n < 32
  · simp [hn]
  · simp [BitVec.getLsbD_of_ge _ _ (Nat.le_of_not_lt hn)]

theorem readStatus_eq (s : State) : s.readStatus = if s.ill then 1 else 0 := by
  rw [State.readStatus, State.ill]
  refine BitVec.and_one_eq_setWidth_ofBool_getLsbD.trans ?_
  cases s.status.getLsbD 0 <;> rfl

/-- Settles O52, by the bits of the word a write of `STATUS` leaves. -/
theorem statusWriteOneClearsIll : Obligations.StatusWriteOneClearsIll := by
  unfold Obligations.StatusWriteOneClearsIll
  intro s offset v rest hin hlo hhi
  refine ⟨({ s with inputs := rest } : State).writeStatus v, ?_, ?_, fun n hn => ?_,
    readStatus_eq _, rfl⟩
  · rw [step_of_inputs hin, takeInput, portAccess, portSelect_status hlo hhi]; rfl
  · rw [State.ill, writeStatus_getLsbD]; simp [State.ill]
  · rw [writeStatus_getLsbD]; simp [show n ≠ 0 by omega]

end Sys2Proof.Proofs
end

section
/-! PROOFS. What commands leave as it was: `RESULT` (R86), `STATUS` (R43, R281), and the units
(R47, R63). -/

namespace Sys2Proof.Proofs

open Sys2Proof.Machine Sys2Proof.Claims

theorem memWrite_status (s : State) (sp : Space) (i : Nat) (v : Word) :
    (s.memWrite sp i v).status = s.status := by
  cases sp with
  | revBuf c => exact s.setRev_status _ c
  | _ => rfl

/-- What a coefficient write can do: store one tap or one IIR coefficient (R232). -/
theorem writeElement_cases {s t : State} {v : Word} {e : Element} (h : s.writeElement v e = some t) :
    (∃ k, t = s.memWrite .firH k v) ∨ ∃ j, t = s.memWrite .iirC j v := by
  cases e with
  | firH k =>
    rw [State.writeElement] at h
    split at h
    · cases h; exact .inl ⟨_, rfl⟩
    · cases h
  | iirC j => cases h; exact .inr ⟨_, rfl⟩
  | _ => cases h

/-- A WR-mapped element is stored to (R64, R232). -/
theorem writeElement_of_mapped {s : State} {e : Element} (h : (e.mapped s.cfg && e.writable) = true)
    (v : Word) : ∃ t, s.writeElement v e = some t := by
  obtain ⟨hmap, hwr⟩ := (Bool.and_eq_true ..).mp h
  cases e with
  | firH k => exact ⟨_, if_pos (by simpa [Element.mapped] using hmap)⟩
  | iirC j => exact ⟨_, rfl⟩
  | _ => cases hwr

/-- What `WR` can do: raise the exception, or store one coefficient (R232). -/
theorem execWr_cases {s t : State} {e : Element} (h : exec (.wr e) s = .next t) :
    t = s.raiseIllegal ∨ (∃ k, t = s.memWrite .firH k s.data) ∨
    ∃ j, t = s.memWrite .iirC j s.data := by
  simp only [exec, execWr] at h
  split at h
  · rename_i u hu
    cases h
    exact .inr (writeElement_cases hu)
  · cases h; exact .inl rfl

/-- What `RD` can do: raise the exception, or deliver the element in `RESULT` (R231). -/
theorem execRd_cases {s t : State} {e : Element} (h : exec (.rd e) s = .next t) :
    (e.mapped s.cfg = false ∧ t = s.raiseIllegal) ∨
    (e.mapped s.cfg = true ∧ t = s.setResult (s.readElement e)) := by
  simp only [exec, execRd] at h
  split at h
  · rename_i hm; cases h; exact .inr ⟨hm, rfl⟩
  · rename_i hm; cases h; exact .inl ⟨by simpa using hm, rfl⟩

/-- `WR` reaches the coefficients and `STATUS` at most (R232, R281). -/
theorem execWr_frame {s t : State} {e : Element} (h : exec (.wr e) s = .next t) :
    ∃ b c st, t =
      { s with fir := { s.fir with h := b }, iir := { s.iir with c := c }, status := st } := by
  obtain rfl | ⟨k, rfl⟩ | ⟨j, rfl⟩ := execWr_cases h
  · exact ⟨_, _, _, rfl⟩
  · exact ⟨_, _, _, rfl⟩
  · exact ⟨_, _, _, rfl⟩

/-- `RD` reaches `RESULT` and `STATUS` at most (R231, R281). -/
theorem execRd_frame {s t : State} {e : Element} (h : exec (.rd e) s = .next t) :
    ∃ v st, t = { s with result := v, status := st } := by
  obtain ⟨-, rfl⟩ | ⟨-, rfl⟩ := execRd_cases h
  · exact ⟨_, _, rfl⟩
  · exact ⟨_, _, rfl⟩

/-- `IIR_PROC` reaches the IIR history and `RESULT` (R130). -/
theorem execIirProc_frame {s t : State} (h : exec .iirProc s = .next t) :
    ∃ w v, t = { s with iir := { s.iir with w := w }, result := v } := by
  cases h
  refine ⟨(iirStep s.operand s).1.iir.w, (iirStep s.operand s).2, ?_⟩
  exact congrArg (State.setResult · (iirStep s.operand s).2) (iirStep_frame s.operand s)

/-- Writes of the IIR history reach the IIR history (R63). -/
theorem memWrites_iirW_frame (v : Word) (is : List Nat) (s : State) :
    ∃ w, is.foldl (fun t i => t.memWrite .iirW i v) s = { s with iir := { s.iir with w := w } } := by
  induction is generalizing s with
  | nil => exact ⟨_, rfl⟩
  | cons i is ih =>
    obtain ⟨w, hw⟩ := ih (s.memWrite .iirW i v)
    exact ⟨w, hw⟩

/-- `IIR_RESET` reaches the IIR history (R136). -/
theorem execIirReset_frame {s t : State} (h : exec .iirReset s = .next t) :
    ∃ w, t = { s with iir := { s.iir with w := w } } := by
  cases h
  exact memWrites_iirW_frame f32Zero _ s

theorem exec_result {i : Instr} {s t : State} (hi : writesResult i = false) (h : exec i s = .next t) :
    t.result = s.result := by
  cases i with
  | wr e => obtain ⟨_, _, _, rfl⟩ := execWr_frame h; rfl
  | iirReset => obtain ⟨_, rfl⟩ := execIirReset_frame h; rfl
  | revFb c | revMix c => cases h; exact s.setRev_result _ c
  | rd _ | firProc | iirProc | envTick | revProc _ | pipeStep => cases hi
  | _ => cases h; rfl

/-- A word that decodes to no command raises the exception (R281). -/
theorem runCommand_of_illegal {s : State} {w : Word} (hw : ∀ i, decode s.cfg w ≠ .ok i) :
    runCommand w s = .next s.raiseIllegal := by
  unfold runCommand
  split
  · rename_i i hi; exact absurd hi (hw i)
  · rfl

/-- Settles O46, by the frame of each thing that is no command writing `RESULT`. -/
theorem resultIsWrittenOnlyByItsCommands : Obligations.ResultIsWrittenOnlyByItsCommands := by
  unfold Obligations.ResultIsWrittenOnlyByItsCommands
  refine ⟨fun i s t hi h => exec_result hi h, fun s t w hw h => ?_, fun s t x rest hin h => ?_,
    fun s t a rest hin ha h => ?_⟩
  · rw [runCommand_of_illegal hw] at h
    cases h; rfl
  · rw [step_of_inputs hin] at h
    cases h; rfl
  · obtain ⟨d, st, l, hacc⟩ := portAccess_of_not_cmd ha { s with inputs := rest }
    rw [step_of_inputs hin, takeInput, hacc] at h
    cases h; rfl

/-- Settles O48: `STATUS` is reached by the exception only, and a well-formed command does not raise it. -/
theorem legalCommandsLeaveStatus : Obligations.LegalCommandsLeaveStatus := by
  unfold Obligations.LegalCommandsLeaveStatus
  intro i s t hwf h
  cases i with
  | rd e =>
    obtain ⟨hm, -⟩ | ⟨-, rfl⟩ := execRd_cases h
    · exact absurd (hm.symm.trans hwf) Bool.false_ne_true
    · rfl
  | wr e =>
    obtain ⟨u, hu⟩ := writeElement_of_mapped hwf s.operand
    rw [exec, execWr, hu] at h
    obtain ⟨sp, i, rfl⟩ := exists_memWrite_of_writeElement hu
    cases h
    exact memWrite_status s sp i _
  | iirProc => obtain ⟨_, _, rfl⟩ := execIirProc_frame h; rfl
  | iirReset => obtain ⟨_, rfl⟩ := execIirReset_frame h; rfl
  | revProc c | revFb c | revMix c => cases h; exact s.setRev_status _ c
  | _ => cases h; rfl

/-! One frame per unit: the commands that do not write it (R47, R63). -/

section
variable {i : Instr} {s t : State} (h : exec i s = .next t)
include h

theorem exec_fir (hi : writesFir i = false) : t.fir = s.fir := by
  cases i with
  | rd e => obtain ⟨_, _, rfl⟩ := execRd_frame h; rfl
  | iirProc => obtain ⟨_, _, rfl⟩ := execIirProc_frame h; rfl
  | iirReset => obtain ⟨_, rfl⟩ := execIirReset_frame h; rfl
  | revProc c | revFb c | revMix c => cases h; exact s.setRev_fir _ c
  | wr _ | firProc | pipeStep => cases hi
  | _ => cases h; rfl

theorem exec_iir (hi : writesIir i = false) : t.iir = s.iir := by
  cases i with
  | rd e => obtain ⟨_, _, rfl⟩ := execRd_frame h; rfl
  | revProc c | revFb c | revMix c => cases h; exact s.setRev_iir _ c
  | wr _ | iirProc | iirReset => cases hi
  | _ => cases h; rfl

theorem exec_env (hi : writesEnv i = false) : t.env = s.env := by
  cases i with
  | rd e => obtain ⟨_, _, rfl⟩ := execRd_frame h; rfl
  | wr e => obtain ⟨_, _, _, rfl⟩ := execWr_frame h; rfl
  | iirProc => obtain ⟨_, _, rfl⟩ := execIirProc_frame h; rfl
  | iirReset => obtain ⟨_, rfl⟩ := execIirReset_frame h; rfl
  | revProc c | revFb c | revMix c => cases h; exact s.setRev_env _ c
  | envOn | envOff | envTick | envAtk | envDec | envSus | envRel | pipeStep => cases hi
  | _ => cases h; rfl

/-- A `REV_*` command leaves the other channel's reverb (R199). -/
theorem exec_rev (c : Channel) (hi : writesRev c i = false) : t.rev c = s.rev c := by
  cases i with
  | rd e => obtain ⟨_, _, rfl⟩ := execRd_frame h; cases c <;> rfl
  | wr e => obtain ⟨_, _, _, rfl⟩ := execWr_frame h; cases c <;> rfl
  | iirProc => obtain ⟨_, _, rfl⟩ := execIirProc_frame h; cases c <;> rfl
  | iirReset => obtain ⟨_, rfl⟩ := execIirReset_frame h; cases c <;> rfl
  | revProc d | revFb d | revMix d => cases h; exact s.rev_setRev_other _ (Ne.symm (of_decide_eq_false hi))
  | pipeStep => cases hi
  | _ => cases h; cases c <;> rfl

theorem exec_outputs (hi : writesOutputs i = false) :
    t.outL = s.outL ∧ t.outR = s.outR ∧ t.outPcm = s.outPcm := by
  cases i with
  | rd e => obtain ⟨_, _, rfl⟩ := execRd_frame h; exact ⟨rfl, rfl, rfl⟩
  | wr e => obtain ⟨_, _, _, rfl⟩ := execWr_frame h; exact ⟨rfl, rfl, rfl⟩
  | revProc c | revFb c | revMix c =>
    cases h
    exact ⟨s.setRev_outL _ c, s.setRev_outR _ c, s.setRev_outPcm _ c⟩
  | iirProc => obtain ⟨_, _, rfl⟩ := execIirProc_frame h; exact ⟨rfl, rfl, rfl⟩
  | iirReset => obtain ⟨_, rfl⟩ := execIirReset_frame h; exact ⟨rfl, rfl, rfl⟩
  | pipeStep => cases hi
  | _ => cases h; exact ⟨rfl, rfl, rfl⟩

end

/-- Settles O49, by the frame of each unit. -/
theorem unitsAreWrittenOnlyByTheirCommands : Obligations.UnitsAreWrittenOnlyByTheirCommands := by
  unfold Obligations.UnitsAreWrittenOnlyByTheirCommands
  intro i s t h
  exact ⟨exec_fir h, exec_iir h, exec_env h, exec_rev h, exec_outputs h⟩

end Sys2Proof.Proofs
end

section
/-! PROOFS. The value ranges each unit's step keeps (R27, R30, R35). -/

namespace Sys2Proof.Proofs

open Sys2Proof.Machine Sys2Proof.Claims

/-! `sat` to each pair of bounds the state is kept in (R13). -/

section
variable (m : SubnormalMode) (v : Word)

theorem sat_inRange_unit : inRange m f32Zero (sat m v f32Zero f32One) f32One := by
  obtain ⟨hunit, -⟩ := bounds_ordered m
  exact sat_inRange v hunit

theorem sat_inRange_gain : inRange m f32Zero (sat m v f32Zero f32Gain) f32Gain := by
  obtain ⟨-, hgain, -⟩ := bounds_ordered m
  exact sat_inRange v hgain

theorem sat_inRange_one : inRange m f32NegOne (sat m v f32NegOne f32One) f32One := by
  obtain ⟨-, -, hone, -⟩ := bounds_ordered m
  exact sat_inRange v hone

theorem sat_inRange_ten : inRange m f32NegTen (sat m v f32NegTen f32Ten) f32Ten := by
  obtain ⟨-, -, -, -, hten⟩ := bounds_ordered m
  exact sat_inRange v hten

end

/-! The IIR history stays within 10 (R134). -/

section
variable {m : SubnormalMode}

theorem biquadHistory_inRange (na1 na2 w1 w2 v : Word) :
    inRange m f32NegTen (biquadHistory m na1 na2 w1 w2 v) f32Ten :=
  sat_inRange_ten ..

theorem biquadOutput_inRange (b0 b1 b2 w w1 w2 : Word) :
    inRange m f32NegTen (biquadOutput m b0 b1 b2 w w1 w2) f32Ten :=
  sat_inRange_ten ..

theorem zero_inRange_ten : inRange m f32NegTen f32Zero f32Ten := by
  unfold inRange; cases m <;> decide

theorem memRead_iirW_inRange {s : State} (h : s.iir.Bounded m) {i : Nat} (hi : i < 4) :
    inRange m f32NegTen (s.memRead .iirW i) f32Ten := by
  simpa [State.memRead, hi] using h ⟨i, hi⟩

/-- A history write of a value in the range keeps the range. -/
theorem memWrite_iirW_bounded {s : State} (h : s.iir.Bounded m) {v : Word}
    (hv : inRange m f32NegTen v f32Ten) (i : Nat) : (s.memWrite .iirW i v).iir.Bounded m := by
  intro j
  have hj := h j
  by_cases hij : i = j.val
  · simpa [Vector.getElem_setIfInBounds, hij] using hv
  · simpa [Vector.getElem_setIfInBounds, hij] using hj

/-- A section's new history is its old newest value and a saturated one (R131). -/
theorem iirSection_bounded {s : State} (h : s.iir.Bounded m) (hm : s.cfg.subnormal = m) {sec : Nat}
    (hsec : sec < 2) (v : Word) :
    (iirSection sec v s).1.iir.Bounded m ∧ inRange m f32NegTen (iirSection sec v s).2 f32Ten := by
  subst hm
  have hold := memRead_iirW_inRange h (i := 2 * sec) (by omega)
  exact ⟨memWrite_iirW_bounded (memWrite_iirW_bounded h hold _) (biquadHistory_inRange ..) _,
    biquadOutput_inRange ..⟩

theorem iirStep_bounded {s : State} (h : s.iir.Bounded s.cfg.subnormal) (x : Word) :
    (iirStep x s).1.iir.Bounded s.cfg.subnormal ∧
      inRange s.cfg.subnormal f32NegTen (iirStep x s).2 f32Ten :=
  iirSection_bounded (iirSection_bounded h rfl (by omega) _).1 rfl (by omega) _

end

/-- Settles O12: both sections write saturated values, and the old newest value that was in the range. -/
theorem iirStaysWithinTen : Obligations.IirStaysWithinTen := by
  unfold Obligations.IirStaysWithinTen
  intro s h
  obtain ⟨hw, hy⟩ := iirStep_bounded h s.operand
  exact ⟨_, rfl, hw, hy⟩

/-- The final clamp of a tick (R157). -/
theorem envTick_level_inRange (m : SubnormalMode) (e : EnvUnit) :
    inRange m f32Zero (envTick m e).level f32One :=
  sat_inRange_unit ..

/-- Settles O17, by the final clamp. -/
theorem envTickLevelStaysInUnitInterval : Obligations.EnvTickLevelStaysInUnitInterval := by
  unfold Obligations.EnvTickLevelStaysInUnitInterval
  intro s
  exact ⟨_, rfl, rfl, envTick_level_inRange s.cfg.subnormal s.env⟩

theorem mixed_inRange (m : SubnormalMode) (x gain d : Word) :
    inRange m f32NegOne (mixed m x gain d) f32One :=
  sat_inRange_one ..

/-- The output of a reverb is saturated (R193). -/
theorem revStep_inRange (c : Channel) (x : Word) (s : State) :
    inRange s.cfg.subnormal f32NegOne (revStep c x s).2 f32One :=
  mixed_inRange ..

/-- A reverb's step stores one saturated value (R193). -/
theorem revUnitStep_buf_inRange {m : SubnormalMode} {u : RevUnit} (len delay : Nat) (x : Word)
    (h : ∀ v ∈ u.buf, inRange m f32NegOne v f32One) :
    ∀ v ∈ (revUnitStep m len delay x u).1.buf, inRange m f32NegOne v f32One := by
  intro v hv
  obtain hold | rfl := List.mem_or_eq_of_mem_set hv
  · exact h v hold
  · exact mixed_inRange ..

/-- Settles O28: the stored value and the output are saturated, whatever they are computed from. -/
theorem revProcStaysWithinOne : Obligations.RevProcStaysWithinOne := by
  unfold Obligations.RevProcStaysWithinOne
  intro s c h
  refine ⟨_, rfl, ?_, revStep_inRange c _ s⟩
  rw [State.setResult_rev, revStep, State.rev_setRev_same]
  exact revUnitStep_buf_inRange _ _ _ h

end Sys2Proof.Proofs
end

section
/-! PROOFS. The chain step by its units (R210, R211), and the canonical form of the memory under commands
(R63). -/

namespace Sys2Proof.Proofs

open Sys2Proof.Machine Sys2Proof.Claims

/-- The envelope's tick in the chain. -/
def tickEnv (s : State) : State := { s with env := envTick s.cfg.subnormal s.env }

/-- The two outputs, and the pair of samples derived from them (R46). -/
def setOutputs (l r : Word) (s : State) : State :=
  { s with outL := l, outR := r, outPcm := packPcm s.cfg l r }

/-- The chain step after its FIR step, whose sum is `y`. -/
def chainTail (y : Word) (s : State) : State :=
  let x := fmul s.cfg.subnormal y (tickEnv s).env.level
  let l := revStep .left x (tickEnv s)
  let r := revStep .right x l.1
  setOutputs l.2 r.2 r.1

@[simp] theorem tickEnv_cfg (s : State) : (tickEnv s).cfg = s.cfg := rfl

@[simp] theorem setOutputs_cfg (l r : Word) (s : State) : (setOutputs l r s).cfg = s.cfg := rfl

@[simp] theorem revStep_cfg (c : Channel) (x : Word) (s : State) : (revStep c x s).1.cfg = s.cfg :=
  s.setRev_cfg _ c

/-- The chain is the FIR step, and then the other units on its sum (R210). -/
theorem chainStep_eq_tail (x : Word) (s : State) :
    chainStep x s = chainTail (firStep x s).2 (firStep x s).1 := by
  unfold chainStep chainTail setOutputs
  dsimp only
  rw [revStep_cfg, revStep_cfg]
  rfl

theorem chainTail_cfg (y : Word) (s : State) : (chainTail y s).cfg = s.cfg := by
  unfold chainTail
  dsimp only
  rw [setOutputs_cfg, revStep_cfg, revStep_cfg, tickEnv_cfg]

/-! The canonical form. -/

theorem setRev_wf {s : State} (hw : Memory.wf s = true) (c : Channel) {u : RevUnit}
    (hlen : u.buf.length = s.cfg.revLen) (hwi : u.wi < s.cfg.revLen) : Memory.wf (s.setRev c u) = true := by
  rw [Memory.wf_iff] at hw ⊢
  obtain ⟨hh, hring, hpos, hlen0, hwi0, hlen1, hwi1⟩ := hw
  cases c with
  | left => exact ⟨hh, hring, hpos, hlen, hwi, hlen1, hwi1⟩
  | right => exact ⟨hh, hring, hpos, hlen0, hwi0, hlen, hwi⟩

theorem rev_wf {s : State} (hw : Memory.wf s = true) (c : Channel) :
    (s.rev c).buf.length = s.cfg.revLen ∧ (s.rev c).wi < s.cfg.revLen := by
  obtain ⟨-, -, -, hlen0, hwi0, hlen1, hwi1⟩ := Memory.wf_iff.1 hw
  cases c with
  | left => exact ⟨hlen0, hwi0⟩
  | right => exact ⟨hlen1, hwi1⟩

theorem revStep_wf {s : State} (hw : Memory.wf s = true) (c : Channel) (x : Word) :
    Memory.wf (revStep c x s).1 = true := by
  obtain ⟨hlen, hwi⟩ := rev_wf hw c
  obtain ⟨hlen', hwi'⟩ := revUnitStep_wf (m := s.cfg.subnormal) (delay := revDelayOf s.cfg c) x hlen hwi
  exact setRev_wf hw c hlen' hwi'

theorem tickEnv_wf {s : State} (hw : Memory.wf s = true) : Memory.wf (tickEnv s) = true := hw

theorem setOutputs_wf {s : State} (hw : Memory.wf s = true) (l r : Word) :
    Memory.wf (setOutputs l r s) = true := hw

theorem chainTail_wf {s : State} (hw : Memory.wf s = true) (y : Word) :
    Memory.wf (chainTail y s) = true :=
  setOutputs_wf (revStep_wf (revStep_wf (tickEnv_wf hw) .left _) .right _) _ _

theorem setEnv_wf {s : State} (hw : Memory.wf s = true) (e : EnvUnit) :
    Memory.wf { s with env := e } = true := hw

theorem setResult_wf {s : State} (hw : Memory.wf s = true) (v : Word) :
    Memory.wf (s.setResult v) = true := hw

theorem firStep_wf {s : State} (hw : Memory.wf s = true) (x : Word) :
    Memory.wf (firStep x s).1 = true := by
  rw [Memory.wf_iff] at hw ⊢
  obtain ⟨hh, hring, hpos, hrevs⟩ := hw
  obtain ⟨hh', hring', hpos'⟩ := firPush_wf x hh hring hpos
  exact ⟨hh', hring', hpos', hrevs⟩

/-- Every command keeps the canonical form of the memory. -/
theorem exec_wf {i : Instr} {s t : State} (hw : Memory.wf s = true) (h : exec i s = .next t) :
    Memory.wf t = true := by
  cases i with
  | rd e => obtain ⟨_, _, rfl⟩ := execRd_frame h; exact hw
  | wr e =>
    obtain rfl | ⟨k, rfl⟩ | ⟨j, rfl⟩ := execWr_cases h
    · exact hw
    · exact s.memWrite_wf hw _ _ _
    · exact s.memWrite_wf hw _ _ _
  | firProc => cases h; exact setResult_wf (firStep_wf hw _) _
  | iirProc => obtain ⟨_, _, rfl⟩ := execIirProc_frame h; exact hw
  | iirReset => obtain ⟨_, rfl⟩ := execIirReset_frame h; exact hw
  | revProc c => cases h; exact setResult_wf (revStep_wf hw c _) _
  | revFb c | revMix c => cases h; exact setRev_wf hw c (rev_wf hw c).1 (rev_wf hw c).2
  | pipeStep => cases h; exact setResult_wf (chainStep_wf _ hw) _
  | nop => cases h; exact hw
  | envOn | envOff | envAtk | envDec | envSus | envRel => cases h; exact setEnv_wf hw _
  | envTick => cases h; exact setResult_wf (tickEnv_wf hw) _

end Sys2Proof.Proofs
end

section
/-! PROOFS. The invariant of the core under every step (R27-R46): one rule a state write, and a command is a
composition of them. -/

namespace Sys2Proof.Proofs

open Sys2Proof.Machine Sys2Proof.Claims

/-! The derived steps depend on the parameters alone (R33, R172). -/

theorem recomputeIncrements_withLevelPhase {p : Params} {e : EnvUnit} (h : recomputeIncrements p e = e)
    (l : Word) (ph : Phase) :
    recomputeIncrements p { e with level := l, phase := ph } = { e with level := l, phase := ph } :=
  congrArg (fun f : EnvUnit => { f with level := l, phase := ph }) h

/-! What each write of a unit has to bring for the invariant. `RESULT`, `DATA`, the inputs and the words the
host has read are free. -/

section
variable {s : State} (h : s.Inv)
include h

theorem inv_wf : Memory.wf s = true := by
  obtain ⟨-, hwf, -⟩ := h
  exact hwf

theorem inv_iir : s.iir.Bounded s.cfg.subnormal := by
  obtain ⟨-, -, ⟨hiir, -⟩, -⟩ := h
  exact hiir

theorem inv_env : s.env.Bounded s.cfg.subnormal ∧ recomputeIncrements s.cfg s.env = s.env := by
  obtain ⟨-, -, ⟨-, henv, -⟩, hd, -⟩ := h
  exact ⟨henv, hd⟩

theorem inv_rev (c : Channel) : (s.rev c).Bounded s.cfg.subnormal := by
  obtain ⟨-, -, ⟨-, -, hrev0, hrev1, -⟩, -⟩ := h
  cases c with
  | left => exact hrev0
  | right => exact hrev1

theorem inv_status : s.status &&& 0xFFFFFFFE = 0 := by
  obtain ⟨-, -, -, -, -, hst⟩ := h
  exact hst

theorem inv_setEnv {e : EnvUnit} (hb : e.Bounded s.cfg.subnormal)
    (hd : recomputeIncrements s.cfg e = e) : ({ s with env := e } : State).Inv := by
  obtain ⟨hlegal, hwf, ⟨hiir, -, hrest⟩, -, hport⟩ := h
  exact ⟨hlegal, hwf, ⟨hiir, hb, hrest⟩, hd, hport⟩

theorem inv_setLevelPhase {l : Word} (hl : inRange s.cfg.subnormal f32Zero l f32One) (ph : Phase) :
    ({ s with env := { s.env with level := l, phase := ph } } : State).Inv := by
  obtain ⟨⟨-, hsus⟩, hd⟩ := inv_env h
  exact inv_setEnv h ⟨hl, hsus⟩ (recomputeIncrements_withLevelPhase hd l ph)

theorem inv_withEnvParams {e : EnvUnit} (hb : e.Bounded s.cfg.subnormal) : (withEnvParams s e).Inv :=
  inv_setEnv h hb (recomputeIncrements_twice e s.cfg)

theorem inv_setIir {u : IirUnit} (hb : u.Bounded s.cfg.subnormal) : ({ s with iir := u } : State).Inv := by
  obtain ⟨hlegal, hwf, ⟨-, hrest⟩, hd, hport⟩ := h
  exact ⟨hlegal, hwf, ⟨hb, hrest⟩, hd, hport⟩

theorem inv_setFir {u : FirUnit} (hw : Memory.wf { s with fir := u } = true) :
    ({ s with fir := u } : State).Inv := by
  obtain ⟨hlegal, -, hrest⟩ := h
  exact ⟨hlegal, hw, hrest⟩

theorem inv_setRev (c : Channel) {u : RevUnit} (hlen : u.buf.length = s.cfg.revLen)
    (hwi : u.wi < s.cfg.revLen) (hb : u.Bounded s.cfg.subnormal) : (s.setRev c u).Inv := by
  have hw' := setRev_wf (inv_wf h) c hlen hwi
  obtain ⟨hlegal, -, ⟨hiir, henv, hrev0, hrev1, hout⟩, hd, hport⟩ := h
  cases c with
  | left => exact ⟨hlegal, hw', ⟨hiir, henv, hb, hrev1, hout⟩, hd, hport⟩
  | right => exact ⟨hlegal, hw', ⟨hiir, henv, hrev0, hb, hout⟩, hd, hport⟩

theorem inv_setOutputs {l r : Word} (hl : inRange s.cfg.subnormal f32NegOne l f32One)
    (hr : inRange s.cfg.subnormal f32NegOne r f32One) : (setOutputs l r s).Inv := by
  obtain ⟨hlegal, hwf, ⟨hiir, henv, hrev0, hrev1, -⟩, hd, -, hstatus⟩ := h
  exact ⟨hlegal, hwf, ⟨hiir, henv, hrev0, hrev1, hl, hr⟩, hd, rfl, hstatus⟩

theorem inv_setHostSide (d v : Word) (queue : List Input) (log : List Word) :
    ({ s with data := d, result := v, inputs := queue, readLog := log } : State).Inv := h

theorem inv_setResult (v : Word) : (s.setResult v).Inv := h

theorem inv_setStatus {st : Word} (hst : st &&& 0xFFFFFFFE = 0) :
    ({ s with status := st } : State).Inv := by
  obtain ⟨hlegal, hwf, hb, hd, hpcm, -⟩ := h
  exact ⟨hlegal, hwf, hb, hd, hpcm, hst⟩

/-- `ILL` is no reserved bit (R43, R281). -/
theorem inv_raiseIllegal : s.raiseIllegal.Inv := by
  refine inv_setStatus h ?_
  rw [BitVec.and_comm, BitVec.and_or_distrib_left, BitVec.and_comm, inv_status h]
  rfl

/-- A write of `STATUS` sets no bit (R43). -/
theorem inv_writeStatus (v : Word) : (s.writeStatus v).Inv := by
  refine inv_setStatus h ?_
  rw [BitVec.and_assoc, BitVec.and_comm (~~~_), ← BitVec.and_assoc, inv_status h]
  exact BitVec.zero_and

theorem inv_revStep (c : Channel) (x : Word) : (revStep c x s).1.Inv := by
  obtain ⟨hlen, hwi⟩ := rev_wf (inv_wf h) c
  obtain ⟨hbuf, hgains⟩ := inv_rev h c
  obtain ⟨hlen', hwi'⟩ := revUnitStep_wf (m := s.cfg.subnormal) (delay := revDelayOf s.cfg c) x hlen hwi
  exact inv_setRev h c hlen' hwi' ⟨revUnitStep_buf_inRange _ _ _ hbuf, hgains⟩

theorem inv_firStep (x : Word) : (firStep x s).1.Inv := inv_setFir h (firStep_wf (inv_wf h) x)

theorem inv_tickEnv : (tickEnv s).Inv := inv_setLevelPhase h (envTick_level_inRange ..) _

theorem inv_chainTail (y : Word) : (chainTail y s).Inv := by
  unfold chainTail
  refine inv_setOutputs (inv_revStep (inv_revStep (inv_tickEnv h) .left _) .right _) ?_ ?_
  · simpa using revStep_inRange .left _ (tickEnv s)
  · simpa using revStep_inRange .right _ (revStep .left _ (tickEnv s)).1

theorem inv_chainStep (x : Word) : (chainStep x s).Inv := by
  rw [chainStep_eq_tail]
  exact inv_chainTail (inv_firStep h x) _

theorem inv_memWrites_iirW {v : Word} (hv : inRange s.cfg.subnormal f32NegTen v f32Ten) (is : List Nat) :
    (is.foldl (fun t i => t.memWrite .iirW i v) s).Inv := by
  induction is generalizing s with
  | nil => exact h
  | cons i is ih => exact ih (inv_setIir h (memWrite_iirW_bounded (inv_iir h) hv i)) hv

theorem inv_iirProc {t : State} (ht : exec .iirProc s = .next t) : t.Inv := by
  cases ht
  rw [iirStep_frame]
  exact inv_setResult (inv_setIir h (iirStep_bounded (inv_iir h) _).1) _

/-- Every command keeps the invariant. -/
theorem exec_inv {i : Instr} {t : State} (ht : exec i s = .next t) : t.Inv := by
  obtain ⟨⟨hlevel, hsus⟩, -⟩ := inv_env h
  cases i with
  | nop => cases ht; exact h
  | rd e =>
    obtain ⟨-, rfl⟩ | ⟨-, rfl⟩ := execRd_cases ht
    · exact inv_raiseIllegal h
    · exact inv_setResult h _
  | wr e =>
    have hwf := exec_wf (inv_wf h) ht
    obtain rfl | ⟨k, rfl⟩ | ⟨j, rfl⟩ := execWr_cases ht
    · exact inv_raiseIllegal h
    · exact inv_setFir h hwf
    · exact inv_setIir h (inv_iir h)
  | firProc => cases ht; exact inv_setResult (inv_firStep h _) _
  | iirProc => exact inv_iirProc h ht
  | iirReset => cases ht; exact inv_memWrites_iirW h zero_inRange_ten _
  | envOn | envOff => cases ht; exact inv_setLevelPhase h hlevel _
  | envTick => cases ht; exact inv_setResult (inv_tickEnv h) _
  | envAtk | envDec | envRel => cases ht; exact inv_withEnvParams h ⟨hlevel, hsus⟩
  | envSus => cases ht; exact inv_withEnvParams h ⟨hlevel, sat_inRange_unit ..⟩
  | revProc c => cases ht; exact inv_setResult (inv_revStep h c _) _
  | revFb c =>
    cases ht
    obtain ⟨hlen, hwi⟩ := rev_wf (inv_wf h) c
    obtain ⟨hbuf, -, hmix⟩ := inv_rev h c
    exact inv_setRev h c hlen hwi ⟨hbuf, sat_inRange_gain .., hmix⟩
  | revMix c =>
    cases ht
    obtain ⟨hlen, hwi⟩ := rev_wf (inv_wf h) c
    obtain ⟨hbuf, hfb, -⟩ := inv_rev h c
    exact inv_setRev h c hlen hwi ⟨hbuf, hfb, sat_inRange_unit ..⟩
  | pipeStep => cases ht; exact inv_setResult (inv_chainStep h _) _

end

/-! The reset state (R310). -/

/-- The output `+0.0` scales to `+0.0`, so its sample is 0 (R214). -/
theorem fmul_zero_legal_scale {p : Params} (hp : p.Legal) : fmul p.subnormal 0 p.pcmScale = 0 := by
  obtain ⟨y, hy, -⟩ := unpack_daz_legal_scale hp p.subnormal
  have hzero : unpack (daz p.subnormal 0) = .fin false 0 := by cases p.subnormal <;> decide
  simp only [fmul, hzero, hy, Nat.zero_mul]
  cases p.subnormal <;> decide

theorem packPcm_zero {p : Params} (hp : p.Legal) : packPcm p 0 0 = 0 := by
  rw [packPcm, pcm16, fmul_zero_legal_scale hp]
  decide

theorem resetFor_bounded (p : Params) : (State.resetFor p).Bounded := by
  have hten : inRange p.subnormal f32NegTen 0 f32Ten := zero_inRange_ten
  obtain ⟨hunit, hlevel, hgain⟩ : inRange p.subnormal f32NegOne 0 f32One ∧
      inRange p.subnormal f32Zero 0 f32One ∧ inRange p.subnormal f32Zero 0 f32Gain := by
    unfold inRange; cases p.subnormal <;> decide
  have hbuf : ∀ v ∈ List.replicate p.revLen (0 : Word), inRange p.subnormal f32NegOne v f32One :=
    fun v hv => List.eq_of_mem_replicate hv ▸ hunit
  refine ⟨fun j => ?_, ⟨hlevel, sat_inRange_unit ..⟩, ⟨hbuf, hgain, hlevel⟩,
    ⟨hbuf, hgain, hlevel⟩, hunit, hunit⟩
  simpa [State.resetFor] using hten

/-- The state after reset meets the invariant under every legal configuration. -/
theorem resetFor_inv {p : Params} (hp : p.Legal) : (State.resetFor p).Inv :=
  ⟨hp, resetFor_wf hp, resetFor_bounded p, rfl, (packPcm_zero hp).symm, BitVec.zero_and⟩

/-! The step. -/

/-- Everything a step can do to the state with its input taken (R61, R70, R212, R281, R311). -/
inductive StepEffect (s : State) : State → Prop
  | hold : StepEffect s s
  | command {i : Instr} {t : State} : exec i s = .next t → StepEffect s t
  | illegal : StepEffect s s.raiseIllegal
  | storeData (w : Word) : StepEffect s { s with data := w }
  | clearStatus (w : Word) : StepEffect s (s.writeStatus w)
  | logRead (r : PortReg) : StepEffect s { s with readLog := s.readLog ++ [s.portRead r] }
  | chain (x : Word) : StepEffect s (chainStep x s)
  | coincident (a : PortAccess) (x : Word) :
      StepEffect s { chainStep x s with inputs := .host a :: s.inputs }
  | reset : StepEffect s (resetCore s)

theorem portWrite_effect {r : PortReg} {w : Word} {s t : State} (h : portWrite r w s = .next t) :
    StepEffect s t := by
  cases r with
  | cmd =>
    simp only [portWrite, runCommand] at h
    split at h
    · exact .command h
    · cases h; exact .illegal
  | data => cases h; exact .storeData w
  | status => cases h; exact .clearStatus w
  | _ => cases h; exact .hold

theorem portAccess_effect {a : PortAccess} {s t : State} (h : portAccess a s = .next t) :
    StepEffect s t := by
  cases a with
  | write offset w =>
    simp only [portAccess] at h
    split at h
    · exact portWrite_effect h
    · cases h; exact .hold
  | read offset =>
    simp only [portAccess] at h
    split at h
    · cases h; exact .logRead _
    · cases h; exact .hold

theorem takeInput_effect {i : Input} {s t : State} (h : takeInput i s = .next t) : StepEffect s t := by
  cases i with
  | host a => exact portAccess_effect h
  | pulse x => cases h; exact .chain x
  | coincident a x => cases h; exact .coincident a x
  | reset => cases h; exact .reset

theorem step_effect {s t : State} (h : step s = .next t) :
    ∃ rest, StepEffect { s with inputs := rest } t := by
  unfold step at h
  split at h
  · cases h; exact ⟨s.inputs, .hold⟩
  · exact ⟨_, takeInput_effect h⟩

theorem stepEffect_inv {s t : State} (h : s.Inv) (ht : StepEffect s t) : t.Inv := by
  cases ht with
  | hold => exact h
  | command hexec => exact exec_inv h hexec
  | illegal => exact inv_raiseIllegal h
  | storeData w => exact h
  | clearStatus w => exact inv_writeStatus h w
  | logRead r => exact h
  | chain x => exact inv_chainStep h x
  | coincident a x => exact inv_setHostSide (inv_chainStep h x) _ _ _ _
  | reset =>
    obtain ⟨hlegal, -⟩ := h
    exact inv_setHostSide (resetFor_inv hlegal) _ _ s.inputs s.readLog

/-- Settles O44, by what a step can do: each unit's write brings that unit's part of the invariant. -/
theorem everyStepKeepsTheInvariant : Obligations.EveryStepKeepsTheInvariant := by
  unfold Obligations.EveryStepKeepsTheInvariant
  intro s t h hstep
  obtain ⟨rest, heffect⟩ := step_effect hstep
  exact stepEffect_inv (s := { s with inputs := rest }) h heffect

end Sys2Proof.Proofs
end

section
/-! PROOFS. The two FIR realizations step alike (R25, R113): what reads the history through `FIR_X` alone
commutes with replacing its store by any other store of the same `FIR_X`. -/

namespace Sys2Proof.Proofs

open Sys2Proof.Machine Sys2Proof.Claims

/-- The state with another realization of the FIR history: its kind, its store and its index (R25). -/
def withHistory (s : State) (kind : FirRealization) (ring : List Word) (pos : Nat) : State :=
  { s with
    cfg := { s.cfg with realization := kind }
    fir := { s.fir with ring := ring, pos := pos } }

theorem withHistory_self (s : State) : withHistory s s.cfg.realization s.fir.ring s.fir.pos = s := rfl

section
variable (s : State) (kind : FirRealization) (ring : List Word) (pos : Nat)

theorem withHistory_env : (withHistory s kind ring pos).env = s.env := rfl

theorem withHistory_subnormal :
    (withHistory s kind ring pos).cfg.subnormal = s.cfg.subnormal := rfl

end

/-- Two states with one view: the second is the first with another realization of the same `FIR_X`. -/
theorem sameView_iff {s t : State} : SameView s t ↔
    s.cfg.Legal ∧ Memory.wf s = true ∧ Memory.wf t = true ∧
    (∃ kind ring pos, t = withHistory s kind ring pos) ∧
    ∀ k, k < s.cfg.firN → t.firX k = s.firX k := by
  unfold SameView
  constructor
  · rintro ⟨hlegal, hs, ht, heq, hx⟩
    refine ⟨hlegal, hs, ht, ⟨t.cfg.realization, t.fir.ring, t.fir.pos, ?_⟩, hx⟩
    rw [← heq]; rfl
  · rintro ⟨hlegal, hs, ht, ⟨kind, ring, pos, rfl⟩, hx⟩
    exact ⟨hlegal, hs, ht, rfl, hx⟩

/-- `FIR_X` depends on the number of taps, the realization, its store and its index (R25). -/
theorem firX_congr {s t : State} (hcfg : t.cfg = s.cfg) (hring : t.fir.ring = s.fir.ring)
    (hpos : t.fir.pos = s.fir.pos) (k : Nat) : t.firX k = s.firX k := by
  simp only [State.firX, State.memRead, hcfg, hring, hpos]

/-- A part of a step that keeps the configuration and the canonical form, and does not look at how the
history is held. -/
structure HistoryBlind (run : State → Host.Outcome State Fault Refusal) : Prop where
  commutes : ∀ {s u}, run s = .next u → ∀ kind ring pos,
    run (withHistory s kind ring pos) = .next (withHistory u kind ring pos)
  cfg : ∀ {s u}, run s = .next u → u.cfg = s.cfg
  wf : ∀ {s u}, Memory.wf s = true → run s = .next u → Memory.wf u = true

/-- What does not look at how the history is held leaves it as it is. -/
theorem HistoryBlind.history {run} (h : HistoryBlind run) {s u : State} (hs : run s = .next u) :
    u = withHistory u s.cfg.realization s.fir.ring s.fir.pos := by
  have hself := h.commutes hs s.cfg.realization s.fir.ring s.fir.pos
  rw [withHistory_self, hs] at hself
  exact Host.Outcome.next.inj hself

/-- Both runs answer, with states of one view. -/
def AnswerAlike (o o' : Host.Outcome State Fault Refusal) : Prop :=
  ∃ s t, o = .next s ∧ o' = .next t ∧ SameView s t

theorem HistoryBlind.answerAlike {run} (h : HistoryBlind run) {s t u : State} (hs : run s = .next u)
    (hv : SameView s t) : AnswerAlike (run s) (run t) := by
  obtain ⟨hlegal, hws, hwt, ⟨kind, ring, pos, rfl⟩, hx⟩ := sameView_iff.1 hv
  have ht := h.commutes hs kind ring pos
  have hcfg := h.cfg hs
  have hhist := h.history hs
  refine ⟨u, _, hs, ht,
    sameView_iff.2 ⟨hcfg ▸ hlegal, h.wf hws hs, h.wf hwt ht, ⟨_, _, _, rfl⟩, fun k hk => ?_⟩⟩
  have hu : u.firX k = s.firX k :=
    firX_congr hcfg (congrArg (·.fir.ring) hhist) (congrArg (·.fir.pos) hhist) k
  rw [hu, ← hx k (hcfg ▸ hk)]
  exact firX_congr (h.cfg ht) rfl rfl k

/-- A state update that does not look at how the history is held keeps the view. -/
theorem sameView_map {f : State → State}
    (hf : ∀ s kind ring pos, f (withHistory s kind ring pos) = withHistory (f s) kind ring pos)
    (hcfg : ∀ s, (f s).cfg = s.cfg) (hwf : ∀ s, Memory.wf s = true → Memory.wf (f s) = true)
    {s t : State} (hv : SameView s t) : SameView (f s) (f t) := by
  have hblind : HistoryBlind fun s => .next (f s) :=
    { commutes := fun h kind ring pos => by cases h; rw [hf]
      cfg := fun h => by cases h; exact hcfg _
      wf := fun hw h => by cases h; exact hwf _ hw }
  obtain ⟨u, u', hu, hu', huv⟩ := hblind.answerAlike rfl hv
  cases hu; cases hu'
  exact huv

section
variable {s t : State} (hv : SameView s t)
include hv

theorem sameView_setResult (v : Word) : SameView (s.setResult v) (t.setResult v) :=
  sameView_map (f := (State.setResult · v)) (fun _ _ _ _ => rfl) (fun _ => rfl) (fun _ h => h) hv

theorem sameView_raiseIllegal : SameView s.raiseIllegal t.raiseIllegal :=
  sameView_map (f := State.raiseIllegal) (fun _ _ _ _ => rfl) (fun _ => rfl) (fun _ h => h) hv

theorem sameView_setInputs (queue : List Input) :
    SameView { s with inputs := queue } { t with inputs := queue } :=
  sameView_map (f := fun s => { s with inputs := queue })
    (fun _ _ _ _ => rfl) (fun _ => rfl) (fun _ h => h) hv

theorem sameView_operand : t.operand = s.operand := by
  obtain ⟨-, -, -, ⟨_, _, _, rfl⟩, -⟩ := sameView_iff.1 hv
  rfl

theorem sameView_outPcm : t.outPcm = s.outPcm := by
  obtain ⟨-, -, -, ⟨_, _, _, rfl⟩, -⟩ := sameView_iff.1 hv
  rfl

theorem sameView_inputs : t.inputs = s.inputs := by
  obtain ⟨-, -, -, ⟨_, _, _, rfl⟩, -⟩ := sameView_iff.1 hv
  rfl

/-- Decoding does not depend on the realization (R282). -/
theorem sameView_decode (w : Word) : decode t.cfg w = decode s.cfg w := by
  obtain ⟨-, -, -, ⟨_, _, _, rfl⟩, -⟩ := sameView_iff.1 hv
  rfl

end

/-! The FIR's own step, where the realizations differ. -/

theorem firSum_congr {s t : State} (hv : SameView s t) : firSum t = firSum s := by
  obtain ⟨-, -, -, ⟨kind, ring, pos, rfl⟩, hx⟩ := sameView_iff.1 hv
  refine List.foldl_ext _ _ _ fun acc k hk => ?_
  rw [hx k (List.mem_range.1 hk)]
  rfl

/-- A FIR step takes the sample into the history however it is held, and nothing else differs (R113). -/
theorem firStep_withHistory (s : State) (kind : FirRealization) (ring : List Word) (pos : Nat) (x : Word) :
    ∃ ring' pos', (firStep x (withHistory s kind ring pos)).1 =
      withHistory (firStep x s).1 kind ring' pos' := by
  let t := withHistory s kind ring pos
  have htaps : (firPush t.cfg x t.fir).h = (firPush s.cfg x s.fir).h := by
    rw [firPush_h, firPush_h]; rfl
  exact ⟨(firPush t.cfg x t.fir).ring, (firPush t.cfg x t.fir).pos,
    congrArg (fun b => ({ t with fir := { firPush t.cfg x t.fir with h := b } } : State)) htaps⟩

theorem sameView_firStep {s t : State} (hv : SameView s t) (x : Word) :
    SameView (firStep x s).1 (firStep x t).1 := by
  obtain ⟨hlegal, hws, hwt, ⟨kind, ring, pos, rfl⟩, hx⟩ := sameView_iff.1 hv
  obtain ⟨ring', pos', hpush⟩ := firStep_withHistory s kind ring pos x
  refine sameView_iff.2 ⟨hlegal, firStep_wf hws x, firStep_wf hwt x, ⟨kind, ring', pos', hpush⟩,
    fun k hk => ?_⟩
  cases k with
  | zero => exact (firX_push_zero hwt x).trans (firX_push_zero hws x).symm
  | succ k =>
    have hold := hx k (Nat.lt_of_succ_lt hk)
    exact (firX_push_succ hwt x hk).trans (hold.trans (firX_push_succ hws x hk).symm)

/-! The other parts of the chain and the other commands do not look at how the history is held. -/

/-- The commands that read the FIR history. -/
def readsHistory : Instr → Bool
  | .rd (.firX _) | .firProc | .pipeStep => true
  | _ => false

section
variable (s : State) (kind : FirRealization) (ring : List Word) (pos : Nat)

theorem tickEnv_withHistory :
    tickEnv (withHistory s kind ring pos) = withHistory (tickEnv s) kind ring pos := rfl

theorem revStep_withHistory (c : Channel) (x : Word) :
    revStep c x (withHistory s kind ring pos) =
      (withHistory (revStep c x s).1 kind ring pos, (revStep c x s).2) := by
  cases c <;> rfl

theorem setOutputs_withHistory (l r : Word) :
    setOutputs l r (withHistory s kind ring pos) = withHistory (setOutputs l r s) kind ring pos := rfl

theorem chainTail_withHistory (y : Word) :
    chainTail y (withHistory s kind ring pos) = withHistory (chainTail y s) kind ring pos := by
  unfold chainTail
  dsimp only
  rw [tickEnv_withHistory, withHistory_subnormal, withHistory_env, revStep_withHistory,
    revStep_withHistory, setOutputs_withHistory]

theorem iirStep_withHistory (x : Word) :
    iirStep x (withHistory s kind ring pos) =
      (withHistory (iirStep x s).1 kind ring pos, (iirStep x s).2) := by
  have hsec : ∀ sec v s, iirSection sec v (withHistory s kind ring pos) =
      (withHistory (iirSection sec v s).1 kind ring pos, (iirSection sec v s).2) := fun _ _ _ => rfl
  simp only [iirStep, hsec]
  rfl

theorem memWrites_iirW_withHistory (v : Word) (is : List Nat) :
    is.foldl (fun t i => t.memWrite .iirW i v) (withHistory s kind ring pos) =
      withHistory (is.foldl (fun t i => t.memWrite .iirW i v) s) kind ring pos := by
  induction is generalizing s with
  | nil => rfl
  | cons i is ih => exact ih (s.memWrite .iirW i v)

theorem readElement_withHistory {e : Element} (he : readsHistory (.rd e) = false) :
    (withHistory s kind ring pos).readElement e = s.readElement e := by
  cases e with
  | firX k => cases he
  | revWi c | revDelay c | revFb c | revMix c | revBuf c i => cases c <;> rfl
  | _ => rfl

theorem execRd_withHistory {e : Element} (he : readsHistory (.rd e) = false) {u : State}
    (h : exec (.rd e) s = .next u) :
    exec (.rd e) (withHistory s kind ring pos) = .next (withHistory u kind ring pos) := by
  have hmapped : e.mapped (withHistory s kind ring pos).cfg = e.mapped s.cfg := rfl
  rw [exec, execRd, hmapped, readElement_withHistory _ _ _ _ he]
  obtain ⟨hm, rfl⟩ | ⟨hm, rfl⟩ := execRd_cases h
  · rw [hm]; rfl
  · rw [hm]; rfl

theorem writeElement_withHistory (v : Word) (e : Element) :
    (withHistory s kind ring pos).writeElement v e =
      (s.writeElement v e).map (withHistory · kind ring pos) := by
  cases e with
  | firH k =>
    have hfirN : (withHistory s kind ring pos).cfg.firN = s.cfg.firN := rfl
    simp only [State.writeElement, hfirN]
    split
    · rfl
    · rfl
  | _ => rfl

theorem execWr_withHistory {e : Element} {u : State} (h : exec (.wr e) s = .next u) :
    exec (.wr e) (withHistory s kind ring pos) = .next (withHistory u kind ring pos) := by
  have hoperand : (withHistory s kind ring pos).operand = s.operand := rfl
  simp only [exec, execWr, hoperand, writeElement_withHistory] at h ⊢
  cases hw : s.writeElement s.operand e with
  | none => rw [hw] at h; cases h; rfl
  | some t => rw [hw] at h; cases h; rfl

/-- The other commands do not look at how the history is held. -/
theorem exec_withHistory {i : Instr} (hi : readsHistory i = false) {u : State} (h : exec i s = .next u) :
    exec i (withHistory s kind ring pos) = .next (withHistory u kind ring pos) := by
  cases i with
  | rd e => exact execRd_withHistory s kind ring pos hi h
  | wr e => exact execWr_withHistory s kind ring pos h
  | iirProc =>
    cases h
    exact congrArg (fun r => done (r.1.setResult r.2)) (iirStep_withHistory s kind ring pos s.operand)
  | iirReset => cases h; exact congrArg done (memWrites_iirW_withHistory s kind ring pos f32Zero _)
  | revProc c | revFb c | revMix c => cases h; cases c <;> rfl
  | firProc | pipeStep => cases hi
  | _ => cases h; rfl

end

theorem sameView_chainStep {s t : State} (hv : SameView s t) (x : Word) :
    SameView (chainStep x s) (chainStep x t) := by
  have hpush := sameView_firStep hv x
  have hsum : (firStep x t).2 = (firStep x s).2 := firSum_congr hpush
  rw [chainStep_eq_tail, chainStep_eq_tail, hsum]
  exact sameView_map (fun s kind ring pos => chainTail_withHistory s kind ring pos _)
    (chainTail_cfg _) (fun _ hw => chainTail_wf hw _) hpush

theorem exec_blind {i : Instr} (hi : readsHistory i = false) : HistoryBlind (exec i) where
  commutes h kind ring pos := exec_withHistory _ kind ring pos hi h
  cfg h := by
    obtain ⟨-, hcfg, -⟩ := exec_sameHostSide h
    exact hcfg
  wf := exec_wf

/-- Every command answers. -/
theorem exec_answers (i : Instr) (s : State) : ∃ t, exec i s = .next t := by
  cases i with
  | rd e =>
    simp only [exec, execRd]
    split
    · exact ⟨_, rfl⟩
    · exact ⟨_, rfl⟩
  | wr e =>
    simp only [exec, execWr]
    split
    · exact ⟨_, rfl⟩
    · exact ⟨_, rfl⟩
  | _ => exact ⟨_, rfl⟩

/-- An `RD` of the history delivers `FIR_X` (R25, R231). -/
theorem execRd_firX_alike {s t : State} (hv : SameView s t) (k : BitVec 12) :
    AnswerAlike (exec (.rd (.firX k)) s) (exec (.rd (.firX k)) t) := by
  obtain ⟨-, -, -, ⟨kind, ring, pos, rfl⟩, hx⟩ := sameView_iff.1 hv
  by_cases hk : k.toNat < s.cfg.firN
  · refine ⟨_, _, if_pos (decide_eq_true hk), if_pos (decide_eq_true hk), ?_⟩
    have hread : (withHistory s kind ring pos).readElement (.firX k) = s.readElement (.firX k) :=
      hx k.toNat hk
    rw [hread]
    exact sameView_setResult hv _
  · have hm : ¬ decide (k.toNat < s.cfg.firN) = true := by simpa using hk
    exact ⟨_, _, if_neg hm, if_neg hm, sameView_raiseIllegal hv⟩

theorem exec_alike {s t : State} (hv : SameView s t) (i : Instr) : AnswerAlike (exec i s) (exec i t) := by
  cases hi : readsHistory i with
  | false =>
    obtain ⟨u, hu⟩ := exec_answers i s
    exact (exec_blind hi).answerAlike hu hv
  | true =>
    cases i with
    | rd e =>
      cases e with
      | firX k => exact execRd_firX_alike hv k
      | _ => cases hi
    | firProc =>
      have hpush := sameView_firStep hv s.operand
      have hsum : (firStep s.operand t).2 = (firStep s.operand s).2 := firSum_congr hpush
      refine ⟨(firStep s.operand s).1.setResult (firStep s.operand s).2,
        (firStep s.operand t).1.setResult (firStep s.operand t).2, rfl, ?_, ?_⟩
      · rw [← sameView_operand hv]; rfl
      · rw [hsum]
        exact sameView_setResult hpush _
    | pipeStep =>
      have hchain := sameView_chainStep hv s.operand
      refine ⟨(chainStep s.operand s).setResult (chainStep s.operand s).outPcm,
        (chainStep s.operand t).setResult (chainStep s.operand t).outPcm, rfl, ?_, ?_⟩
      · rw [← sameView_operand hv]; rfl
      · rw [sameView_outPcm hchain]
        exact sameView_setResult hchain _
    | _ => cases hi

/-! The host port and the step. -/

theorem runCommand_alike {s t : State} (hv : SameView s t) (w : Word) :
    AnswerAlike (runCommand w s) (runCommand w t) := by
  unfold runCommand
  rw [sameView_decode hv]
  cases decode s.cfg w with
  | ok i => exact exec_alike hv i
  | error e => exact ⟨_, _, rfl, rfl, sameView_raiseIllegal hv⟩

theorem portWrite_alike {s t : State} (hv : SameView s t) (r : PortReg) (w : Word) :
    AnswerAlike (portWrite r w s) (portWrite r w t) := by
  cases r with
  | cmd => exact runCommand_alike hv w
  | data =>
    exact ⟨_, _, rfl, rfl, sameView_map (f := fun s => { s with data := w })
      (fun _ _ _ _ => rfl) (fun _ => rfl) (fun _ h => h) hv⟩
  | status =>
    exact ⟨_, _, rfl, rfl, sameView_map (f := (State.writeStatus · w))
      (fun _ _ _ _ => rfl) (fun _ => rfl) (fun _ h => h) hv⟩
  | _ => exact ⟨_, _, rfl, rfl, hv⟩

theorem portAccess_alike {s t : State} (hv : SameView s t) (a : PortAccess) :
    AnswerAlike (portAccess a s) (portAccess a t) := by
  cases a with
  | write offset w =>
    simp only [portAccess]
    cases portSelect offset with
    | none => exact ⟨_, _, rfl, rfl, hv⟩
    | some r => exact portWrite_alike hv r w
  | read offset =>
    simp only [portAccess]
    cases portSelect offset with
    | none => exact ⟨_, _, rfl, rfl, hv⟩
    | some r =>
      exact ⟨_, _, rfl, rfl, sameView_map
        (f := fun s => { s with readLog := s.readLog ++ [s.portRead r] })
        (fun _ _ _ _ => by cases r <;> rfl) (fun _ => rfl) (fun _ h => h) hv⟩

theorem resetFor_firX (p : Params) (k : Nat) : (State.resetFor p).firX k = 0 := by
  simp only [State.firX, State.memRead, State.resetFor, List.getD_eq_getElem?_getD,
    List.getElem?_replicate]
  split <;> rfl

/-- The reset history is zero however it is held (R310). -/
theorem sameView_resetCore {s t : State} (hv : SameView s t) : SameView (resetCore s) (resetCore t) := by
  obtain ⟨hlegal, -, -, ⟨kind, ring, pos, rfl⟩, -⟩ := sameView_iff.1 hv
  let p := (withHistory s kind ring pos).cfg
  exact sameView_iff.2 ⟨hlegal, resetFor_wf hlegal, resetFor_wf (p := p) hlegal,
    ⟨kind, List.replicate s.cfg.firN 0, 0, rfl⟩,
    fun k _ => (resetFor_firX p k).trans (resetFor_firX s.cfg k).symm⟩

theorem takeInput_alike {s t : State} (hv : SameView s t) (i : Input) :
    AnswerAlike (takeInput i s) (takeInput i t) := by
  cases i with
  | host a => exact portAccess_alike hv a
  | pulse x => exact ⟨_, _, rfl, rfl, sameView_chainStep hv x⟩
  | coincident a x =>
    refine ⟨_, _, rfl, rfl, ?_⟩
    rw [sameView_inputs hv]
    exact sameView_setInputs (sameView_chainStep hv x) _
  | reset => exact ⟨_, _, rfl, rfl, sameView_resetCore hv⟩

/-- Settles O9, by a simulation: every part of a step either does not look at how the history is held, or
reads it through `FIR_X`, and a pushed sample moves `FIR_X` alike in both realizations. -/
theorem firRealizationsCannotBeToldApart : Obligations.FirRealizationsCannotBeToldApart := by
  unfold Obligations.FirRealizationsCannotBeToldApart
  intro s t hv
  change AnswerAlike (step s) (step t)
  unfold step
  rw [sameView_inputs hv]
  cases s.inputs with
  | nil => exact ⟨_, _, rfl, rfl, hv⟩
  | cons i rest => exact takeInput_alike (sameView_setInputs hv rest) i

end Sys2Proof.Proofs
end

section
/-! PROOFS. The host port by byte address (R61, R62, R66): the lanes of a word, what a read or a write of
each register does, the command written to `CMD`, and the order of a coincident pulse and access (R70). -/

namespace Sys2Proof.Proofs

open Sys2Proof.Machine Sys2Proof.Claims

theorem byteLane_getLsbD (w : Word) (b : Fin 4) {i : Nat} (hi : i < 8) :
    (byteLane w b).getLsbD i = w.getLsbD (8 * b.val + i) := by
  rw [byteLane, BitVec.getLsbD_extractLsb', decide_eq_true hi, Bool.true_and]

/-- The lanes weigh 1, 2^8, 2^16 and 2^24 in address order: little-endian (R66). -/
theorem wordOfLanes_toNat (b0 b1 b2 b3 : Byte) : (wordOfLanes b0 b1 b2 b3).toNat =
    b0.toNat + 2 ^ 8 * b1.toNat + 2 ^ 16 * b2.toNat + 2 ^ 24 * b3.toNat := by
  simp only [wordOfLanes, BitVec.toNat_append]
  rw [← Nat.shiftLeft_add_eq_or_of_lt b2.isLt, ← Nat.shiftLeft_add_eq_or_of_lt b1.isLt,
    ← Nat.shiftLeft_add_eq_or_of_lt b0.isLt]
  simp only [Nat.shiftLeft_eq]
  omega

theorem wordOfLanes_byteLane (w : Word) :
    wordOfLanes (byteLane w 0) (byteLane w 1) (byteLane w 2) (byteLane w 3) = w := by
  have hw := w.isLt
  apply BitVec.eq_of_toNat_eq
  rw [wordOfLanes_toNat]
  simp only [byteLane, BitVec.extractLsb'_toNat, Nat.shiftRight_eq_div_pow, Fin.coe_ofNat_eq_mod,
    Nat.reduceMod, Nat.reduceMul, Nat.reducePow]
  omega

/-- Settles O43, by the value of a word as the weighted sum of its lanes. -/
theorem byteLanesCarryTheWord : Obligations.ByteLanesCarryTheWord := by
  unfold Obligations.ByteLanesCarryTheWord
  refine ⟨fun w b i hi => byteLane_getLsbD w b hi, wordOfLanes_toNat, fun p w rest =>
    ⟨wordOfLanes_byteLane w, ?_⟩⟩
  rw [decodeBytes, wordOfLanes_byteLane]

/-- Byte `n` of the block selects register `n / 4` (R61, R62). -/
theorem portSelect_busOffset (p : Params) {n : Nat} (hn : n < 0x20) :
    portSelect (busOffset p (p.base + n)) = some (portRegOf (n / 4)) := by
  have hoffset : busOffset p (p.base + n) = n := by rw [busOffset]; omega
  rw [hoffset, portSelect, if_pos (by omega), Int.toNat_natCast]

theorem portSelect_busOffset_outside {p : Params} {addr : Nat}
    (h : addr < p.base ∨ p.base + 0x20 ≤ addr) : portSelect (busOffset p addr) = none := by
  rw [portSelect, busOffset, if_neg (by omega)]

/-- A write of any register but `CMD`, `DATA` and `STATUS` is ignored (R61). -/
theorem portWrite_ignored {r : Nat} (hr : r = 2 ∨ 4 ≤ r) (w : Word) (s : State) :
    portWrite (portRegOf r) w s = .next s := by
  match r with
  | 0 | 1 | 3 => omega
  | 2 | 4 | 5 | 6 | _ + 7 => rfl

theorem runCommand_of_decode {s : State} {w : Word} {i : Instr} (h : decode s.cfg w = .ok i) :
    runCommand w s = exec i s := by rw [runCommand, h]

theorem step_write {s : State} {offset : Int} {w : Word} {rest : List Input} {r : PortReg}
    (hin : s.inputs = .host (.write offset w) :: rest) (hsel : portSelect offset = some r) :
    step s = portWrite r w { s with inputs := rest } := by
  rw [step_of_inputs hin, takeInput, portAccess, hsel]

/-- Settles O1: the offset selects `CMD`, and the word written there runs as the command it decodes to. -/
theorem stepRunsCommandWrittenToCmd : Obligations.StepRunsCommandWrittenToCmd := by
  unfold Obligations.StepRunsCommandWrittenToCmd
  intro s offset w rest i hin hlo hhi hdec
  rw [step_write hin ((portSelect_eq_cmd_iff offset).2 ⟨hlo, hhi⟩), portWrite]
  exact runCommand_of_decode hdec

/-- Settles O50, by the register each byte of the block selects. -/
theorem portReadsReturnTheirRegister : Obligations.PortReadsReturnTheirRegister := by
  unfold Obligations.PortReadsReturnTheirRegister
  intro s addr rest hin
  rw [step_of_inputs hin, takeInput, portAccess]
  constructor
  · rintro n rfl hn
    rw [portSelect_busOffset _ hn]
    match n / 4 with
    | 0 | 1 | 2 | 3 | 4 | 5 | 6 | _ + 7 => rfl
  · intro hout
    rw [portSelect_busOffset_outside hout]

/-- Settles O51, by the register each byte of the block selects. -/
theorem portWritesOutsideCmdAndStatus : Obligations.PortWritesOutsideCmdAndStatus := by
  unfold Obligations.PortWritesOutsideCmdAndStatus
  intro s addr w rest hin
  refine ⟨?_, ?_, ?_⟩
  · rintro n rfl hdata
    rw [step_write hin (portSelect_busOffset _ (by omega)), hdata]
    rfl
  · rintro n rfl hreg
    rw [step_write hin (portSelect_busOffset _ (by omega))]
    exact portWrite_ignored (by omega) _ _
  · intro hout
    rw [step_of_inputs hin, takeInput, portAccess, portSelect_busOffset_outside hout]

/-- The chain does not look at the inputs to come, and leaves them as they are (R212). -/
theorem chainStep_setInputs (x : Word) (s : State) (queue : List Input) :
    chainStep x { s with inputs := queue } = { chainStep x s with inputs := queue } := by
  rw [chainStep_eq, chainStep_eq]
  rfl

/-- Settles O53: a pulse does not look at the inputs to come, so it leaves the same state whether the
access is queued behind it at once or when it is done. -/
theorem coincidentPulseGoesFirst : Obligations.CoincidentPulseGoesFirst := by
  unfold Obligations.CoincidentPulseGoesFirst
  intro s a x rest hin
  refine ⟨_, step_of_inputs hin, ?_, rfl⟩
  rw [step_of_inputs rfl, takeInput, ← chainStep_setInputs]

end Sys2Proof.Proofs
end

section
/-! PROOFS. The command encoding (R64, R81, R83, R84): the element of an index, the commands of a row, and
the round trips between a word and its command. -/

namespace Sys2Proof.Proofs

open Sys2Proof.Machine Sys2Proof.Claims

/-- A fixed element stands in the table of R64 at its own index. -/
theorem elementIndex_of_mem_fixedElements :
    ∀ entry ∈ fixedElements, elementIndex entry.2 = entry.1 := by decide

/-- An offset cut to the width that holds it, added to its window's base again, gives the index. -/
theorem window_index {idx : BitVec 16} {base width : Nat} (hlo : base ≤ idx.toNat)
    (hhi : idx.toNat - base < 2 ^ width) :
    BitVec.ofNat 16 (base + (BitVec.ofNat width (idx.toNat - base)).toNat) = idx := by
  rw [BitVec.toNat_ofNat, Nat.mod_eq_of_lt hhi, Nat.add_sub_cancel' hlo, BitVec.ofNat_toNat,
    BitVec.setWidth_eq]

/-- The element whose window holds an index lies at that index (R64): the converse of
`elementAt_elementIndex`. -/
theorem elementIndex_of_elementAt {idx : BitVec 16} {e : Element} (h : elementAt idx = some e) :
    elementIndex e = idx := by
  simp only [elementAt] at h
  split_ifs at h with hfirH hfirX hiirC hiirW hfixed hleft hright
  · cases h
    have := window_index (idx := idx) (base := 0) (width := 12) (by omega) (by omega)
    simpa [elementIndex]
  · cases h
    exact window_index (by omega) (by omega)
  · cases h
    rw [elementIndex, Nat.add_sub_cancel' hiirC.1, BitVec.ofNat_toNat, BitVec.setWidth_eq]
  · cases h
    rw [elementIndex, Nat.add_sub_cancel' hiirW.1, BitVec.ofNat_toNat, BitVec.setWidth_eq]
  · obtain ⟨before, after, hlist, -⟩ := List.lookup_eq_some_iff.1 h
    exact elementIndex_of_mem_fixedElements (idx, e) (by simp [hlist])
  · cases h
    exact window_index (base := 0x8000) (by omega) (by omega)
  · cases h
    exact window_index (base := 0xA000) (by omega) (by omega)

theorem elementAt_eq_some_iff {idx : BitVec 16} {e : Element} :
    elementAt idx = some e ↔ elementIndex e = idx :=
  ⟨elementIndex_of_elementAt, fun h => h ▸ elementAt_elementIndex e⟩

theorem decodeRead_eq_some_iff {p : Params} {idx : BitVec 16} {e : Element} :
    decodeRead p idx = some e ↔ elementIndex e = idx ∧ (Instr.rd e).wf p = true := by
  rw [decodeRead, Option.filter_eq_some_iff, elementAt_eq_some_iff, Instr.wf]

theorem decodeWrite_eq_some_iff {p : Params} {idx : BitVec 16} {e : Element} :
    decodeWrite p idx = some e ↔ elementIndex e = idx ∧ (Instr.wr e).wf p = true := by
  rw [decodeWrite, Option.filter_eq_some_iff, elementAt_eq_some_iff, Instr.wf]

theorem decode_encode {p : Params} {i : Instr} (h : i.wf p = true) : decode p (encode i) = .ok i := by
  cases i with
  | rd e =>
    have hread := decodeRead_eq_some_iff.2 ⟨rfl, h⟩
    simp [decode, encode, opcodeOf, chOf, idxOf, rowOf, hread]
  | wr e =>
    have hwrite := decodeWrite_eq_some_iff.2 ⟨rfl, h⟩
    simp [decode, encode, opcodeOf, chOf, idxOf, rowOf, hwrite]
  | revProc c | revFb c | revMix c => cases c <;> rfl
  | _ => rfl

/-- Settles O41: the row of the command's operation code takes its fields back apart, and the window of
its index holds its element. -/
theorem decodeOfEncodeIsTheCommand : Obligations.DecodeOfEncodeIsTheCommand :=
  fun _ _ h => decode_encode h

theorem channelOf_eq_some {ch : BitVec 8} {c : Channel} (h : channelOf ch = some c) :
    ch = BitVec.ofNat 8 (channelNumber c) := by
  unfold channelOf at h
  split at h <;> cases h
  · exact (BitVec.toNat_eq_nat.1 ‹_›).2
  · exact (BitVec.toNat_eq_nat.1 ‹_›).2

/-- What the opcode map says of each shape of row: the words of the commands it names (R84). -/
inductive RowWords : BitVec 8 → RowShape → Prop
  | plain {op : BitVec 8} {i : Instr} (henc : encode i = cmdWord op 0 0) (hwf : ∀ p, i.wf p = true) :
      RowWords op (.plain i)
  | read : RowWords 0x01 .read
  | write : RowWords 0x02 .write
  | channel {op : BitVec 8} {f : Channel → Instr}
      (henc : ∀ c, encode (f c) = cmdWord op (BitVec.ofNat 8 (channelNumber c)) 0)
      (hwf : ∀ c p, (f c).wf p = true) : RowWords op (.channel f)

theorem rowWords_of_rowOf {op : BitVec 8} {r : RowShape} (h : rowOf op = some r) : RowWords op r := by
  unfold rowOf at h
  split at h
  case h_18 => cases h
  all_goals
    cases h
    obtain rfl := (BitVec.toNat_eq_nat.1 ‹_›).2
  case h_2 => exact .read
  case h_3 => exact .write
  case h_14 | h_15 | h_16 => exact .channel (fun _ => rfl) fun _ _ => rfl
  all_goals exact .plain rfl fun _ => rfl

/-- Field by field, what the decoder accepts the encoder gives back. -/
theorem encode_of_decode {p : Params} {op ch : BitVec 8} {idx : BitVec 16} {i : Instr}
    (h : decode p (cmdWord op ch idx) = .ok i) : encode i = cmdWord op ch idx ∧ i.wf p = true := by
  simp only [decode, opField_cmdWord, chField_cmdWord, idxField_cmdWord] at h
  cases hrow : rowOf op with
  | none => simp [hrow] at h
  | some r =>
    rw [hrow] at h
    cases rowWords_of_rowOf hrow with
    | plain henc hwf =>
      dsimp only at h
      split_ifs at h with hch hidx
      cases h
      rw [not_not.1 hch, not_not.1 hidx]
      exact ⟨henc, hwf p⟩
    | read =>
      dsimp only at h
      split_ifs at h with hch
      rw [not_not.1 hch]
      split at h
      case h_1 he =>
        cases h
        obtain ⟨rfl, hwf⟩ := decodeRead_eq_some_iff.1 he
        exact ⟨rfl, hwf⟩
      case h_2 => cases h
    | write =>
      dsimp only at h
      split_ifs at h with hch
      rw [not_not.1 hch]
      split at h
      case h_1 he =>
        cases h
        obtain ⟨rfl, hwf⟩ := decodeWrite_eq_some_iff.1 he
        exact ⟨rfl, hwf⟩
      case h_2 => cases h
    | channel henc hwf =>
      dsimp only at h
      split at h
      case h_1 => cases h
      case h_2 hc =>
        split_ifs at h with hidx
        cases h
        rw [channelOf_eq_some hc, not_not.1 hidx]
        exact ⟨henc _, hwf _ p⟩

/-- Settles O42, by the fields of the word. -/
theorem encodeOfDecodeIsTheWord : Obligations.EncodeOfDecodeIsTheWord := by
  unfold Obligations.EncodeOfDecodeIsTheWord
  intro p w i h
  rw [← cmdWord_fields w] at h ⊢
  exact encode_of_decode h

theorem decode_eq_ok_iff {p : Params} {w : Word} {i : Instr} :
    decode p w = .ok i ↔ encode i = w ∧ i.wf p = true :=
  ⟨encodeOfDecodeIsTheWord p w i, fun ⟨henc, hwf⟩ => henc ▸ decode_encode hwf⟩

/-- Settles O2: each word is its command's encoding, and `4 ≤ FIR_N` maps `FIR_H[3]`. -/
theorem handEncodedWordsDecode : Obligations.HandEncodedWordsDecode := by
  unfold Obligations.HandEncodedWordsDecode
  intro p _ hfir
  have htap : (Instr.wr (.firH 3)).wf p = true := by
    simp [Instr.wf, Element.mapped, Element.writable]; omega
  exact ⟨decode_encode htap, rfl, rfl, rfl, rfl, rfl, rfl, rfl⟩

end Sys2Proof.Proofs
end

section
/-! PROOFS. Legality by number (R64, R87): the indices `RD` and `WR` map, the words that are legal, what an
illegal one does (R281), and what the accesses a command emits do (R90, R92). -/

namespace Sys2Proof.Proofs

open Sys2Proof.Machine Sys2Proof.Claims

/-- The table of fixed elements has an entry at every index of its five windows (R64). -/
theorem lookup_fixedElements_ne_none {idx : BitVec 16}
    (h : (0x3000 ≤ idx.toNat ∧ idx.toNat ≤ 0x3009) ∨ (0x4000 ≤ idx.toNat ∧ idx.toNat ≤ 0x4003) ∨
      (0x4010 ≤ idx.toNat ∧ idx.toNat ≤ 0x4013) ∨ (0x5000 ≤ idx.toNat ∧ idx.toNat ≤ 0x5002) ∨
      (0x6000 ≤ idx.toNat ∧ idx.toNat ≤ 0x6002)) : fixedElements.lookup idx ≠ none := by
  rw [Ne, List.lookup_eq_none_iff]
  simp only [fixedElements, List.cons_append, List.nil_append, List.forall_mem_cons, bne_iff_ne, ne_eq,
    ← BitVec.toNat_inj, BitVec.reduceToNat]
  omega

/-- Every RD-mapped index is the index of an element. -/
theorem exists_element_of_readMapped {p : Params} (hp : p.Legal) {idx : BitVec 16}
    (h : readMapped p idx.toNat) : ∃ e, elementIndex e = idx := by
  obtain ⟨⟨-, hfir⟩, ⟨-, hrev⟩, -⟩ := hp
  suffices elementAt idx ≠ none by
    simpa only [elementAt_eq_some_iff] using Option.ne_none_iff_exists'.1 this
  unfold readMapped at h
  simp only [elementAt]
  split_ifs with hfirH hfirX hiirC hiirW hfixed hleft hright
  · exact Option.some_ne_none _
  · exact Option.some_ne_none _
  · exact Option.some_ne_none _
  · exact Option.some_ne_none _
  · exact lookup_fixedElements_ne_none (by omega)
  · exact Option.some_ne_none _
  · exact Option.some_ne_none _
  · omega

/-- `RD` maps an element's index exactly where it maps the element (R64). -/
theorem readMapped_elementIndex {p : Params} (hp : p.Legal) (e : Element) :
    readMapped p (elementIndex e).toNat ↔ e.mapped p = true := by
  obtain ⟨⟨-, hfir⟩, ⟨-, hrev⟩, -⟩ := hp
  cases e with
  | firH k | firX k =>
    have := k.isLt
    simp only [readMapped, elementIndex, Element.mapped, BitVec.toNat_ofNat, decide_eq_true_eq]
    omega
  | iirC j | iirW j =>
    have := j.isLt
    simp only [readMapped, elementIndex, Element.mapped, BitVec.toNat_ofNat, iff_true]
    omega
  | revBuf c i =>
    have := i.isLt
    cases c <;>
      simp only [readMapped, elementIndex, Element.mapped, channelNumber, BitVec.toNat_ofNat,
        decide_eq_true_eq] <;>
      omega
  | revWi c | revDelay c | revFb c | revMix c =>
    cases c <;> simp [readMapped, elementIndex, Element.mapped, channelNumber]
  | _ => simp [readMapped, elementIndex, Element.mapped]

/-- The elements with a WR column "yes" are those of the windows of `FIR_H` and `IIR_C` (R64). -/
theorem writable_iff_index (e : Element) : e.writable = true ↔ (elementIndex e).toNat < 0x1000 ∨
    (0x2000 ≤ (elementIndex e).toNat ∧ (elementIndex e).toNat < 0x200A) := by
  cases e with
  | firH k | firX k =>
    have := k.isLt
    simp only [elementIndex, Element.writable, BitVec.toNat_ofNat, Bool.false_eq_true, true_iff,
      false_iff]
    omega
  | iirC j | iirW j => revert j; decide
  | revBuf c i =>
    have := i.isLt
    cases c <;>
      simp only [elementIndex, Element.writable, channelNumber, BitVec.toNat_ofNat, Bool.false_eq_true,
        false_iff] <;>
      omega
  | revWi c | revDelay c | revFb c | revMix c => cases c <;> decide
  | _ => decide

theorem writeMapped_iff {p : Params} (hp : p.Legal) (n : Nat) : writeMapped p n ↔
    readMapped p n ∧ (n < 0x1000 ∨ (0x2000 ≤ n ∧ n < 0x200A)) := by
  obtain ⟨⟨-, hfir⟩, -⟩ := hp
  unfold writeMapped readMapped
  omega

/-- `WR` maps an element's index exactly where it maps the element (R64). -/
theorem writeMapped_elementIndex {p : Params} (hp : p.Legal) (e : Element) :
    writeMapped p (elementIndex e).toNat ↔ (Instr.wr e).wf p = true := by
  rw [writeMapped_iff hp, readMapped_elementIndex hp, ← writable_iff_index, Instr.wf, Bool.and_eq_true]

/-- The encoding of a well-formed command has the fields of its row (R84). -/
theorem legalWord_encode {p : Params} (hp : p.Legal) {i : Instr} (h : i.wf p = true) :
    legalWord p (encode i) := by
  simp only [legalWord, encode, opField_cmdWord, chField_cmdWord, idxField_cmdWord]
  cases i with
  | rd e => exact .inr (.inl ⟨rfl, rfl, (readMapped_elementIndex hp e).2 h⟩)
  | wr e => exact .inr (.inr (.inl ⟨rfl, rfl, (writeMapped_elementIndex hp e).2 h⟩))
  | revProc c | revFb c | revMix c => cases c <;> exact .inr (.inr (.inr (by decide)))
  | _ => exact .inl (by decide)

/-- Each operation code of a row with `CH = 0` and `IDX = 0` has its command (R84). -/
theorem exists_encode_of_plain {op : BitVec 8} (h : op ∈ plainOpcodes) :
    ∃ i : Instr, encode i = cmdWord op 0 0 ∧ ∀ p, i.wf p = true := by
  obtain ⟨i, hrow⟩ : ∃ i, rowOf op = some (.plain i) := by fin_cases h <;> exact ⟨_, rfl⟩
  cases rowWords_of_rowOf hrow with
  | plain henc hwf => exact ⟨i, henc, hwf⟩

/-- Each operation code of a `REV_*` row has a command for either channel (R84). -/
theorem exists_encode_of_channel {op ch : BitVec 8} (h : op ∈ [(0x40 : BitVec 8), 0x41, 0x42])
    (hch : ch = 0 ∨ ch = 1) : ∃ i : Instr, encode i = cmdWord op ch 0 ∧ ∀ p, i.wf p = true := by
  obtain ⟨f, hrow⟩ : ∃ f, rowOf op = some (.channel f) := by fin_cases h <;> exact ⟨_, rfl⟩
  cases rowWords_of_rowOf hrow with
  | channel henc hwf =>
    obtain rfl | rfl := hch
    · exact ⟨f .left, henc .left, hwf .left⟩
    · exact ⟨f .right, henc .right, hwf .right⟩

/-- A word with the fields of a row is the encoding of a well-formed command (R84). -/
theorem exists_encode_of_legalWord {p : Params} (hp : p.Legal) {w : Word} (h : legalWord p w) :
    ∃ i : Instr, encode i = w ∧ i.wf p = true := by
  rw [← cmdWord_fields w]
  obtain ⟨hop, hch, hidx⟩ | ⟨hop, hch, hread⟩ | ⟨hop, hch, hwrite⟩ | ⟨hop, hch, hidx⟩ := h
  · obtain ⟨i, henc, hwf⟩ := exists_encode_of_plain hop
    exact ⟨i, by rw [henc, hch, hidx], hwf p⟩
  · obtain ⟨e, he⟩ := exists_element_of_readMapped hp hread
    refine ⟨.rd e, by rw [hop, hch, ← he]; rfl, ?_⟩
    rwa [← he, readMapped_elementIndex hp] at hread
  · obtain ⟨e, he⟩ := exists_element_of_readMapped hp ((writeMapped_iff hp _).1 hwrite).1
    refine ⟨.wr e, by rw [hop, hch, ← he]; rfl, ?_⟩
    rwa [← he, writeMapped_elementIndex hp] at hwrite
  · obtain ⟨i, henc, hwf⟩ := exists_encode_of_channel hop hch
    exact ⟨i, by rw [henc, hidx], hwf p⟩

/-- Settles O39: the words that decode are the encodings of the well-formed commands, and so are those with
the fields of a row. -/
theorem decodingAcceptsExactlyTheTable : Obligations.DecodingAcceptsExactlyTheTable := by
  unfold Obligations.DecodingAcceptsExactlyTheTable
  intro p w hp
  simp only [decode_eq_ok_iff]
  exact ⟨fun ⟨i, henc, hwf⟩ => henc ▸ legalWord_encode hp hwf, exists_encode_of_legalWord hp⟩

/-- Settles O38: a word that is not legal decodes to nothing, and raises the exception. -/
theorem illegalWordOnlySetsIll : Obligations.IllegalWordOnlySetsIll := by
  unfold Obligations.IllegalWordOnlySetsIll
  intro s offset w rest hin hlo hhi hlegal hw
  have hdec : ∀ i, decode s.cfg w ≠ .ok i := fun i hi =>
    hw ((decodingAcceptsExactlyTheTable _ _ hlegal).1 ⟨i, hi⟩)
  refine ⟨({ s with inputs := rest } : State).raiseIllegal, ?_, ?_, rfl, rfl⟩
  · rw [step_write hin ((portSelect_eq_cmd_iff offset).2 ⟨hlo, hhi⟩)]
    exact runCommand_of_illegal hdec
  · simp [State.ill, State.raiseIllegal]

/-- A write of a well-formed command's encoding to `CMD` is one step, that command's. -/
theorem step_write_encode {s : State} {i : Instr} {rest : List Input} (hwf : i.wf s.cfg = true)
    (hin : s.inputs = .host (.write 0x00 (encode i)) :: rest) :
    step s = exec i { s with inputs := rest } :=
  stepRunsCommandWrittenToCmd s 0 _ rest i hin (by decide) (by decide) (decode_encode hwf)

/-- Settles O58: the write of `CMD` runs the command, after the write of `DATA` where there is one. -/
theorem emittedAccessesRunTheCommand : Obligations.EmittedAccessesRunTheCommand := by
  unfold Obligations.EmittedAccessesRunTheCommand
  intro s i d rest hwf hin
  unfold emitCommand at hin ⊢
  obtain ⟨t, ht⟩ := exec_answers i { s with inputs := rest, data := if usesData i then d else s.data }
  refine ⟨t, ht, ?_⟩
  cases hd : usesData i with
  | true =>
    rw [hd] at hin ht
    refine ⟨_, step_write hin rfl, t, ?_, rfl⟩
    rw [← ht]
    exact step_write_encode hwf rfl
  | false =>
    rw [hd] at hin ht
    refine ⟨t, ?_, rfl⟩
    rw [← ht]
    exact step_write_encode hwf hin

end Sys2Proof.Proofs
end

section
/-! PROOFS. `FIR_PROC`: its history, its sum and its frame (R110, R112), and a sum of zeros (R116). -/

namespace Sys2Proof.Proofs

open Sys2Proof.Machine Sys2Proof.Claims

/-- The history after a sample is taken: the sample, then the old history one place on (R110). -/
theorem firX_firStep {s : State} (hw : Memory.wf s = true) (x : Word) {k : Nat} (hk : k < s.cfg.firN) :
    (firStep x s).1.firX k = if k = 0 then x else s.firX (k - 1) := by
  cases k with
  | zero => exact firX_push_zero hw x
  | succ k => exact firX_push_succ hw x hk

/-- A step leaves the taps, so `h[k]` meets the sample that the push left at `k` (R110). -/
theorem firStep_sum {s : State} (hw : Memory.wf s = true) (x : Word) :
    (firStep x s).2 = (List.range s.cfg.firN).foldl
      (fun acc k => fadd s.cfg.subnormal acc
        (fmul s.cfg.subnormal (s.memRead .firH k) (if k = 0 then x else s.firX (k - 1)))) 0x00000000 := by
  refine List.foldl_ext _ _ _ fun acc k hk => ?_
  have htap : (firStep x s).1.memRead .firH k = s.memRead .firH k :=
    congrArg (·.getD k 0) (firPush_h s.cfg x s.fir)
  exact congrArg (fadd s.cfg.subnormal acc)
    (congrArg₂ (fmul s.cfg.subnormal) htap (firX_firStep hw x (List.mem_range.1 hk)))

theorem exec_firProc (s : State) :
    exec .firProc s = .next ((firStep s.data s).1.setResult (firStep s.data s).2) := rfl

/-- Settles O8: the state after the FIR step with its sum in `RESULT`. -/
theorem firProcConvolvesTheHistory : Obligations.FirProcConvolvesTheHistory := by
  unfold Obligations.FirProcConvolvesTheHistory
  refine ⟨fun p => decode_encode (i := .firProc) rfl, fun s _ hw => ⟨_, exec_firProc s, ?_⟩⟩
  exact ⟨firX_push_zero hw s.data, fun k hk => firX_push_succ hw s.data hk, firStep_sum hw s.data,
    firPush_h s.cfg s.data s.fir, rfl⟩

/-- A zero of either sign added to `+0.0` leaves `+0.0`, in both modes (R10, R116). -/
theorem fadd_zero_of_isZero (m : SubnormalMode) {w : Word} (h : isZero w) : fadd m 0x00000000 w = 0x00000000 := by
  rcases h with rfl | rfl <;> cases m <;> decide

/-- Settles O10: the sum starts at `+0.0`, and every product leaves it there. -/
theorem firOfZeroProductsIsPositiveZero : Obligations.FirOfZeroProductsIsPositiveZero := by
  unfold Obligations.FirOfZeroProductsIsPositiveZero
  intro s _ hw hzero
  refine ⟨_, exec_firProc s, (firStep_sum hw s.data).trans ?_⟩
  refine List.foldlRecOn (motive := (· = 0x00000000)) _ _ rfl fun acc hacc k hk => ?_
  rw [hacc]
  exact fadd_zero_of_isZero _ (hzero k (List.mem_range.1 hk))

end Sys2Proof.Proofs
end

section
/-! PROOFS. The IIR cascade: each section's arithmetic and history shift (R130, R131), the reset of the
history (R136), and the chain that leaves the unit alone (R139, R215). -/

namespace Sys2Proof.Proofs

open Sys2Proof.Machine Sys2Proof.Claims

theorem memRead_iirC (s : State) {i : Nat} (hi : i < 10) : s.memRead .iirC i = s.iir.c[i] := by
  simp [State.memRead, hi]

theorem memRead_iirW (s : State) {i : Nat} (hi : i < 4) : s.memRead .iirW i = s.iir.w[i] := by
  simp [State.memRead, hi]

/-- Four words make the vector that lists them. -/
theorem eq_vector_four {w : Vector Word 4} {a b c d : Word} (ha : w[0] = a) (hb : w[1] = b)
    (hc : w[2] = c) (hd : w[3] = d) : w = #v[a, b, c, d] := by
  refine Vector.ext fun i hi => ?_
  match i with
  | 0 => exact ha
  | 1 => exact hb
  | 2 => exact hc
  | 3 => exact hd

/-- A section answers from its five coefficients and its own pair of the history, and shifts that pair
(R131). -/
theorem iirSection_eq {sec : Nat} (hsec : sec < 2) (v : Word) (s : State) :
    let w1 := s.iir.w[2 * sec]
    let w2 := s.iir.w[2 * sec + 1]
    let w := biquadHistory s.cfg.subnormal s.iir.c[5 * sec + 3] s.iir.c[5 * sec + 4] w1 w2 v
    iirSection sec v s =
      ({ s with
          iir := { s.iir with w := (s.iir.w.setIfInBounds (2 * sec + 1) w1).setIfInBounds (2 * sec) w } },
        biquadOutput s.cfg.subnormal s.iir.c[5 * sec] s.iir.c[5 * sec + 1] s.iir.c[5 * sec + 2] w w1 w2) := by
  simp (disch := omega) only [iirSection, memRead_iirC, memRead_iirW]
  rfl

theorem exec_iirProc (s : State) :
    exec .iirProc s = .next ((iirStep s.data s).1.setResult (iirStep s.data s).2) := rfl

/-- Settles O11: section 0 on the clamped input, then section 1 on its output; neither reaches the pair of
the other. -/
theorem iirProcRunsTheCascade : Obligations.IirProcRunsTheCascade := by
  unfold Obligations.IirProcRunsTheCascade
  refine ⟨fun p => decode_encode (i := .iirProc) rfl, fun s => ?_⟩
  rw [exec_iirProc, iirStep, iirSection_eq (by omega), iirSection_eq (by omega)]
  simp only [Vector.getElem_setIfInBounds, Nat.reduceMul, Nat.reduceAdd]
  rw [← eq_vector_four]
  · rfl
  all_goals simp [biquadHistory, biquadOutput, f32NegTwo, f32Two, f32NegTen, f32Ten]

/-- `IIR_RESET` stores `+0.0` in each of the four history values (R136). -/
theorem exec_iirReset (s : State) :
    exec .iirReset s = .next { s with iir := { s.iir with w := #v[0, 0, 0, 0] } } := by
  rw [← eq_vector_four]
  · rfl
  all_goals simp [f32Zero]

/-- Settles O13: a second reset stores the same zeros. -/
theorem iirResetZeroesTheHistory : Obligations.IirResetZeroesTheHistory := by
  unfold Obligations.IirResetZeroesTheHistory
  refine ⟨fun p => decode_encode (i := .iirReset) rfl, fun s => ⟨_, exec_iirReset s, rfl, rfl, rfl, ?_⟩⟩
  rw [exec_iirReset]

/-- The chain does not look at the IIR, and leaves it as it is (R139, R215). -/
theorem chainStep_setIir (x : Word) (s : State) (u : IirUnit) :
    chainStep x { s with iir := u } = { chainStep x s with iir := u } := by
  rw [chainStep_eq, chainStep_eq]
  rfl

/-- Settles O35: a pulse is one chain step, and a chain step commutes with replacing the IIR. -/
theorem chainIgnoresTheIir : Obligations.ChainIgnoresTheIir := by
  unfold Obligations.ChainIgnoresTheIir
  intro s u x rest hin
  refine ⟨_, step_of_inputs hin, ?_, ?_⟩
  · rw [chainStep_eq]
  · rw [step_of_inputs (s := { s with iir := u }) hin, takeInput, ← chainStep_setIir]

end Sys2Proof.Proofs
end

section
/-! PROOFS. The envelope's events and the tick by its phase arms (R150-R161): what each command of the unit
answers, and the phases a step can reach. -/

namespace Sys2Proof.Proofs

open Sys2Proof.Machine Sys2Proof.Claims

theorem exec_envOn (s : State) :
    exec .envOn s = .next { s with env := { s.env with phase := .attack } } := rfl

theorem exec_envOff (s : State) :
    exec .envOff s = .next { s with env := { s.env with phase := noteOffPhase s.env.phase } } := rfl

/-- A tick is its phase arm and the final clamp, and `RESULT` takes the level (R154, R157). -/
theorem exec_envTick {s : State} {l : Word} {ph : Phase} (h : envArm s.cfg.subnormal s.env = (l, ph)) :
    exec .envTick s = .next { s with
      env := { s.env with level := sat s.cfg.subnormal l f32Zero f32One, phase := ph }
      result := sat s.cfg.subnormal l f32Zero f32One } := by
  change Host.Outcome.next (State.setResult _ (envTick s.cfg.subnormal s.env).level) = _
  rw [envTick, h]
  rfl

/-! The arms, one equation a phase (R155). -/

section
variable {m : SubnormalMode} {e : EnvUnit}

theorem envArm_attack (h : e.phase = .attack) : envArm m e =
    if fle m f32One (fadd m e.level e.attackInc) then (f32One, .decay)
    else (fadd m e.level e.attackInc, .attack) := by
  rw [envArm, h]

theorem envArm_decay (h : e.phase = .decay) : envArm m e =
    if fle m (fsub m e.level e.decayDec) e.sustain then (e.sustain, .sustain)
    else (fsub m e.level e.decayDec, .decay) := by
  rw [envArm, h]

theorem envArm_sustain (h : e.phase = .sustain) : envArm m e = (e.sustain, .sustain) := by
  rw [envArm, h]

theorem envArm_release (h : e.phase = .release) : envArm m e =
    if fle m (fsub m e.level e.releaseDec) f32Zero then (f32Zero, .init)
    else (fsub m e.level e.releaseDec, .release) := by
  rw [envArm, h]

theorem envArm_silent (h : e.phase = .init ∨ e.phase = .noteOff) : envArm m e = (f32Zero, e.phase) := by
  rcases h with h | h <;> rw [envArm, h]

end

/-- The arm of the tick meets the table row by row (R155, R156). -/
theorem phaseArm_envArm (m : SubnormalMode) (e : EnvUnit) :
    PhaseArm m e (envArm m e).1 (envArm m e).2 := by
  refine ⟨fun h => ?_, fun h hle => ?_, fun h hle => ?_, fun h hle => ?_, fun h hle => ?_, fun h => ?_,
    fun h hle => ?_, fun h hle => ?_⟩
  · rw [envArm_silent h]; exact ⟨rfl, rfl⟩
  · rw [envArm_attack h, f32One, if_pos hle]; exact ⟨rfl, rfl⟩
  · rw [envArm_attack h, f32One, if_neg (ne_true_of_eq_false hle)]; exact ⟨rfl, rfl⟩
  · rw [envArm_decay h, if_pos hle]; exact ⟨rfl, rfl⟩
  · rw [envArm_decay h, if_neg (ne_true_of_eq_false hle)]; exact ⟨rfl, rfl⟩
  · rw [envArm_sustain h]; exact ⟨rfl, rfl⟩
  · rw [envArm_release h, f32Zero, if_pos hle]; exact ⟨rfl, rfl⟩
  · rw [envArm_release h, f32Zero, if_neg (ne_true_of_eq_false hle)]; exact ⟨rfl, rfl⟩

/-- Settles O16: the model's own arm is the table's. -/
theorem envTickRunsOnePhaseArm : Obligations.EnvTickRunsOnePhaseArm := by
  unfold Obligations.EnvTickRunsOnePhaseArm
  exact ⟨fun p => decode_encode (i := .envTick) rfl,
    fun s => ⟨_, _, phaseArm_envArm _ _, exec_envTick rfl⟩⟩

/-- Settles O14, by the command's equation. -/
theorem noteOnEntersAttack : Obligations.NoteOnEntersAttack := by
  unfold Obligations.NoteOnEntersAttack
  exact ⟨fun p => decode_encode (i := .envOn) rfl, exec_envOn⟩

/-- Settles O15: the phases split as the note-off's own cases do. -/
theorem noteOffEntersRelease : Obligations.NoteOffEntersRelease := by
  unfold Obligations.NoteOffEntersRelease
  refine ⟨fun p => decode_encode (i := .envOff) rfl, fun s => ⟨fun h => ?_, fun h => ?_⟩⟩
  · have hkeep : noteOffPhase s.env.phase = s.env.phase := by rcases h with h | h <;> rw [h] <;> rfl
    rw [exec_envOff, hkeep]
  · have hrelease : noteOffPhase s.env.phase = .release := by
      simp only [List.mem_cons, List.not_mem_nil, or_false] at h
      rcases h with h | h | h | h <;> rw [h] <;> rfl
    rw [exec_envOff, hrelease]

/-! No event enters NoteOff (R161). -/

theorem noteOffPhase_ne_noteOff {ph : Phase} (h : ph ≠ .noteOff) : noteOffPhase ph ≠ .noteOff := by
  cases ph with
  | noteOff => exact absurd rfl h
  | _ => exact nofun

theorem envTick_ne_noteOff (m : SubnormalMode) {e : EnvUnit} (h : e.phase ≠ .noteOff) :
    (envTick m e).phase ≠ .noteOff := by
  change (envArm m e).2 ≠ .noteOff
  cases hph : e.phase with
  | init => rw [envArm_silent (.inl hph)]; exact h
  | noteOff => exact absurd hph h
  | attack => rw [envArm_attack hph]; split <;> exact nofun
  | decay => rw [envArm_decay hph]; split <;> exact nofun
  | sustain => rw [envArm_sustain hph]; exact nofun
  | release => rw [envArm_release hph]; split <;> exact nofun

theorem exec_ne_noteOff {i : Instr} {s t : State} (hs : s.env.phase ≠ .noteOff) (h : exec i s = .next t) :
    t.env.phase ≠ .noteOff := by
  cases i with
  | envOn => cases h; exact nofun
  | envOff => cases h; exact noteOffPhase_ne_noteOff hs
  | envTick | pipeStep => cases h; exact envTick_ne_noteOff _ hs
  | envAtk | envDec | envSus | envRel => cases h; exact hs
  | _ => rw [exec_env h rfl]; exact hs

theorem stepEffect_ne_noteOff {s t : State} (hs : s.env.phase ≠ .noteOff) (h : StepEffect s t) :
    t.env.phase ≠ .noteOff := by
  cases h with
  | command hexec => exact exec_ne_noteOff hs hexec
  | chain x | coincident a x => exact envTick_ne_noteOff _ hs
  | reset => exact nofun
  | _ => exact hs

/-- Settles O18, by what a step can do. -/
theorem noStepEntersNoteOff : Obligations.NoStepEntersNoteOff := by
  unfold Obligations.NoStepEntersNoteOff
  intro s t hs hstep
  obtain ⟨rest, heffect⟩ := step_effect hstep
  exact stepEffect_ne_noteOff (s := { s with inputs := rest }) hs heffect

/-- Settles O19: the stored sustain passes the saturation of the command and the clamp of the tick. -/
theorem sustainFollowsTheParameter : Obligations.SustainFollowsTheParameter := by
  unfold Obligations.SustainFollowsTheParameter
  intro s hphase hrange hdaz
  have hsat : sat s.cfg.subnormal s.data f32Zero f32One = s.data := (sat_of_inRange hrange).trans hdaz.symm
  refine ⟨_, _, rfl, exec_envTick (envArm_sustain hphase), ?_, rfl⟩
  exact (congrArg (sat s.cfg.subnormal · f32Zero f32One) hsat).trans hsat

end Sys2Proof.Proofs
end

section
/-! PROOFS. Ticks that round back to the level they start from (R158, R160, R163): the magnitudes that round
to one pattern, a sum too small to leave its larger operand, and the phase arms on such sums. -/

namespace Sys2Proof.Proofs

open Sys2Proof.Machine Sys2Proof.Claims

/-- A larger pattern is a strictly larger magnitude. -/
theorem patternMag_lt {p q : Nat} (h : p < q) : patternMag p < patternMag q :=
  Nat.lt_of_le_of_ne (patternMag_mono h.le) fun he => h.ne (patternMag_inj he)

/-- A magnitude between the midpoints on either side of a pattern rounds to it, as does a midpoint where
the pattern is even (R10). -/
theorem roundPattern_of_between {n P : Nat}
    (hlo : ∀ Q, Q + 1 = P → patternMag Q + patternMag P < 2 * n ∨
      (patternMag Q + patternMag P = 2 * n ∧ P % 2 = 0))
    (hhi : 2 * n < patternMag P + patternMag (P + 1) ∨
      (2 * n = patternMag P + patternMag (P + 1) ∧ P % 2 = 0)) :
    roundPattern n 1 = P := by
  obtain ⟨hnear, heven⟩ := roundPattern_nearest (den := 1) Nat.one_pos (num := n) P
  simp only [Nat.cast_one, mul_one] at hnear heven
  generalize roundPattern n 1 = R at hnear heven ⊢
  rcases Nat.lt_trichotomy R P with hlt | heq | hgt
  · have hmag := patternMag_lt hlt
    have hmono : patternMag R ≤ patternMag (P - 1) := patternMag_mono (by omega)
    have hbelow := hlo (P - 1) (by omega)
    have hnext : R = P - 1 := patternMag_inj (by omega)
    have hodd := heven (by omega) hmag.ne'
    omega
  · exact heq
  · have hmag := patternMag_lt hgt
    have hmono : patternMag (P + 1) ≤ patternMag R := patternMag_mono hgt
    have hnext : R = P + 1 := patternMag_inj (by omega)
    have hodd := heven (by omega) hmag.ne
    omega

/-- A sum in either mode is one rounding of its operands after the operand rule (R10, R11). -/
theorem fadd_eq_daz_roundResult {m : SubnormalMode} {a b : Word} {x y : Int}
    (ha : realOf (daz m a) = some x) (hb : realOf (daz m b) = some y) :
    fadd m a b =
      daz m (roundResult .preserve (sumSign (x + y) (signBit a) (signBit b)) (x + y).natAbs 1) := by
  have h := fadd_preserve_fin ha hb
  rw [signBit_daz, signBit_daz] at h
  cases m with
  | preserve => exact h
  | flush => rw [fadd_flush, h]

/-- A sum whose exact magnitude rounds to the pattern of its first operand is that operand. -/
theorem fadd_eq_left {m : SubnormalMode} {p : Nat} {b : Word} {y : Int} (hp : p < 0x7F800000)
    (hdaz : daz m (withSign false p) = withSign false p) (hb : realOf (daz m b) = some y)
    (hpos : 0 ≤ patternMag p + y) (hround : roundPattern (patternMag p + y).natAbs 1 = p) :
    fadd m (withSign false p) b = withSign false p := by
  have ha : realOf (daz m (withSign false p)) = some (patternMag p : Int) := by
    rw [hdaz, realOf_withSign _ hp]; rfl
  have hsign : sumSign (patternMag p + y) false (signBit b) = false := by
    simp [sumSign, hpos]
  rw [fadd_eq_daz_roundResult ha hb, signBit_withSign _ (by omega), hsign]
  unfold roundResult
  rw [hround, if_neg (by omega), if_neg (by simp), hdaz]

/-- The operand rule takes a value of at least 0 no further from 0 (R11). -/
theorem realOf_daz_of_nonneg (m : SubnormalMode) {w : Word} {y : Int} (h : realOf w = some y) (hy : 0 ≤ y) :
    ∃ z, realOf (daz m w) = some z ∧ 0 ≤ z ∧ z ≤ y := by
  obtain ⟨x, hx, rfl⟩ := realOf_eq_some_iff.1 h
  obtain ⟨x', hx', hle⟩ := unpack_daz_fin (m := m) hx
  refine ⟨signedMag (signBit w) x', realOf_eq_some_iff.2 ⟨x', ?_⟩, ?_⟩
  · rw [signBit_daz]; exact ⟨hx', rfl⟩
  · cases hs : signBit w <;>
      simp only [hs, signedMag, Bool.false_eq_true, if_true, if_false] at hy ⊢ <;> omega

/-- The subtrahend of `fsub`, its sign turned, has the negated value. -/
theorem realOf_daz_xor {m : SubnormalMode} {w : Word} {y : Int} (h : realOf (daz m w) = some y) :
    realOf (daz m (w ^^^ 0x80000000)) = some (-y) := by
  rw [daz_xor]; exact realOf_xor h

/-- A step of at least 0 and below half a unit in the last place, or of half a unit above an even pattern,
is lost in the sum (R163). -/
theorem roundPattern_add_small {p : Nat} {y : Int} (hy : 0 ≤ y)
    (hsmall : 2 * y < ulpOf (withSign false p) ∨
      (2 * y = ulpOf (withSign false p) ∧ fracField (withSign false p) % 2 = 0))
    (hp : p < 0x7F800000) : roundPattern (patternMag p + y).natAbs 1 = p := by
  have hulp : ulpOf (withSign false p) = ((2 ^ (max (p / 2 ^ 23) 1 - 1) : Nat) : Int) := by
    rw [ulpOf, expField_withSign _ (by omega)]; push_cast; rfl
  rw [hulp, fracField_withSign _ (by omega)] at hsmall
  have hsucc := patternMag_succ p
  generalize 2 ^ (max (p / 2 ^ 23) 1 - 1) = ulp at *
  refine roundPattern_of_between (fun Q hQ => .inl ?_) ?_
  · have hlower : patternMag Q < patternMag p := patternMag_lt (by omega)
    omega
  · omega

/-! What the comparisons with `0.0` and `1.0` say of a value: a pattern of a finite value, its sign, and that
the operand rule leaves it (R11, R30). -/

theorem orderKey_zero (m : SubnormalMode) : orderKey m f32Zero = some 0 := by cases m <;> decide

theorem exists_pattern_of_fle_one {m : SubnormalMode} {w : Word} (hs : signBit w = false)
    (hle : fle m w f32One = true) : ∃ p < 0x7F800000, w = withSign false p := by
  obtain ⟨k, u, hk, hu, hku⟩ := fle_iff.1 hle
  have hlt : w.toNat % 2 ^ 31 < 2 ^ 31 := Nat.mod_lt _ (by omega)
  have hw : w = withSign false (w.toNat % 2 ^ 31) := by rw [← hs, withSign_low]
  have hnan := isNaN_of_orderKey hk
  generalize w.toNat % 2 ^ 31 = p at hlt hw
  subst hw
  refine ⟨p, ?_, rfl⟩
  rcases Nat.lt_trichotomy p 0x7F800000 with hfin | rfl | hbig
  · exact hfin
  · rw [withSign_infinity, orderKey_infinity] at hk
    cases hk
    cases (orderKey_one m).2.symm.trans hu
    simp only [signedMag, Bool.false_eq_true, if_false] at hku
    omega
  · have hyes : isNaN (withSign false p) = true := by
      rw [isNaN_iff, expField_withSign _ hlt, fracField_withSign _ hlt]; omega
    rw [hyes] at hnan
    cases hnan

theorem fle_zero_of_signBit {m : SubnormalMode} {w : Word} (hs : signBit w = false)
    (hle : fle m w f32One = true) : fle m f32Zero w = true := by
  obtain ⟨p, hp, rfl⟩ := exists_pattern_of_fle_one hs hle
  obtain ⟨y, -, hy⟩ := orderKey_withSign (m := m) (neg := false) hp
  rw [fle_of_orderKey (orderKey_zero m) hy]
  simp [signedMag]

theorem signedMag_pos {s : Bool} {a : Nat} (h : 0 < signedMag s a) : s = false := by
  cases s with
  | false => rfl
  | true => simp only [signedMag, if_true] at h; omega

/-- The sign of an infinity is its sign bit (R9). -/
theorem unpack_inf_sign {w : Word} {s : Bool} (h : unpack w = .inf s) : s = signBit w := by
  unfold unpack at h
  split at h
  · split at h <;> cases h; rfl
  · split at h <;> cases h

theorem signBit_of_flt_zero {m : SubnormalMode} {w : Word} (h : flt m f32Zero w = true) :
    signBit w = false := by
  obtain ⟨z, k, hz, hk, hlt⟩ := flt_iff.1 h
  cases (orderKey_zero m).symm.trans hz
  rw [orderKey] at hk
  rw [← signBit_daz m]
  cases hw : unpack (daz m w) with
  | nan => rw [hw] at hk; cases hk
  | inf s => rw [hw] at hk; cases hk; rw [← unpack_inf_sign hw]; exact signedMag_pos hlt
  | fin s x => rw [hw] at hk; cases hk; rw [← unpack_fin_sign hw]; exact signedMag_pos hlt

/-- The operand rule does not act on a value that it leaves above 0 (R11). -/
theorem daz_of_flt_zero {m : SubnormalMode} {w : Word} (h : flt m f32Zero w = true) : daz m w = w := by
  cases m with
  | preserve => rfl
  | flush =>
    refine if_neg fun hexp => ?_
    have hflush : daz .flush w = f32Zero := by
      rw [daz, if_pos hexp, signBit_of_flt_zero h]; rfl
    obtain ⟨z, k, hz, hk, hlt⟩ := flt_iff.1 h
    rw [← orderKey_daz, hflush, hz] at hk
    cases hk
    omega

theorem fle_eq_false_of_flt {m : SubnormalMode} {a b : Word} (h : flt m a b = true) : fle m b a = false := by
  obtain ⟨x, y, hx, hy, hlt⟩ := flt_iff.1 h
  rw [fle_of_orderKey hy hx]
  simpa using hlt

theorem fle_of_flt {m : SubnormalMode} {a b : Word} (h : flt m a b = true) : fle m a b = true := by
  obtain ⟨x, y, hx, hy, hlt⟩ := flt_iff.1 h
  rw [fle_of_orderKey hx hy]
  simpa using hlt.le

/-- A tick whose arm gives back a level in [0, 1] changes the phase and `RESULT` only. -/
theorem exec_envTick_of_level_kept {s : State} {ph : Phase}
    (harm : envArm s.cfg.subnormal s.env = (s.env.level, ph))
    (hrange : inRange s.cfg.subnormal f32Zero s.env.level f32One)
    (hdaz : daz s.cfg.subnormal s.env.level = s.env.level) :
    exec .envTick s =
      .next { s with env := { s.env with phase := ph }, result := s.env.level } := by
  rw [exec_envTick harm, sat_of_inRange hrange, hdaz]

/-- A level to which a small step of at least 0 is added stays where it is (R163). -/
theorem fadd_small {m : SubnormalMode} {w b : Word} {y : Int} (hs : signBit w = false)
    (hle : fle m w f32One = true) (hdaz : daz m w = w) (hb : realOf (daz m b) = some y) (hy : 0 ≤ y)
    (hsmall : 2 * y < ulpOf w ∨ (2 * y = ulpOf w ∧ fracField w % 2 = 0)) : fadd m w b = w := by
  obtain ⟨p, hp, rfl⟩ := exists_pattern_of_fle_one hs hle
  exact fadd_eq_left hp hdaz hb (by omega) (roundPattern_add_small hy hsmall hp)

/-- Taking `+0.0` from a level leaves it. -/
theorem fsub_zero {m : SubnormalMode} {w : Word} (hs : signBit w = false) (hle : fle m w f32One = true)
    (hdaz : daz m w = w) : fsub m w 0x00000000 = w := by
  have hzero : realOf (daz m 0x80000000) = some 0 := by cases m <;> decide
  refine fadd_small hs hle hdaz hzero le_rfl (.inl ?_)
  rw [mul_zero, ulpOf]
  positivity

theorem one_inRange_unit (m : SubnormalMode) : inRange m f32Zero f32One f32One := by
  unfold inRange; cases m <;> decide

theorem daz_one (m : SubnormalMode) : daz m f32One = f32One := by cases m <;> decide

/-- From `1.0`, whose lower neighbour is 2^125 units away, a step of at most half that distance rounds back:
the pattern of `1.0` is even (R163). -/
theorem fsub_one_small {m : SubnormalMode} {b : Word} {y : Int} (hb : realOf (daz m b) = some y)
    (hy : 0 ≤ y) (hsmall : y ≤ 2 ^ 124) : fsub m f32One b = f32One := by
  have hone : patternMag 0x3F800000 = 2 ^ 149 := by decide
  have hlower : patternMag 0x3F7FFFFF = 2 ^ 149 - 2 ^ 125 := by decide
  have hupper : patternMag 0x3F800000 ≤ patternMag (0x3F800000 + 1) := patternMag_mono (by omega)
  refine fadd_eq_left (p := 0x3F800000) (by omega) (daz_one m) (realOf_daz_xor hb) (by omega) ?_
  refine roundPattern_of_between (fun Q hQ => ?_) (by omega)
  cases Nat.succ.inj hQ
  omega

/-- A tick whose arm gives back the level `1.0` changes the phase and `RESULT` only. -/
theorem exec_envTick_of_full_level_kept {s : State} {ph : Phase} (hlevel : s.env.level = f32One)
    (harm : envArm s.cfg.subnormal s.env = (s.env.level, ph)) :
    exec .envTick s = .next { s with env := { s.env with phase := ph }, result := f32One } := by
  have hrange : inRange s.cfg.subnormal f32Zero s.env.level f32One := by
    rw [hlevel]; exact one_inRange_unit _
  have hdaz : daz s.cfg.subnormal s.env.level = s.env.level := by
    rw [hlevel]; exact daz_one _
  rw [exec_envTick_of_level_kept harm hrange hdaz, hlevel]

/-- Settles O20: the level less `+0.0` is the level, which is the sustain already. -/
theorem decayAtFullSustainEndsAtOnce : Obligations.DecayAtFullSustainEndsAtOnce := by
  unfold Obligations.DecayAtFullSustainEndsAtOnce
  intro s hphase (hlevel : s.env.level = f32One) (hsustain : s.env.sustain = f32One) hstep
  obtain ⟨-, hle⟩ := one_inRange_unit s.cfg.subnormal
  have hkeep : fsub s.cfg.subnormal f32One 0x00000000 = f32One := fsub_zero rfl hle (daz_one _)
  have harm : envArm s.cfg.subnormal s.env = (s.env.level, .sustain) := by
    rw [envArm_decay hphase, hlevel, hstep, hkeep, hsustain, if_pos hle]
  exact exec_envTick_of_full_level_kept hlevel harm

/-- Settles O22: the level less `+0.0` is the level, which is above the end of the release. -/
theorem releaseWithZeroStepNeverEnds : Obligations.ReleaseWithZeroStepNeverEnds := by
  unfold Obligations.ReleaseWithZeroStepNeverEnds
  intro s hphase hstep hpos hle
  have hdaz := daz_of_flt_zero hpos
  have hkeep : fsub s.cfg.subnormal s.env.level s.env.releaseDec = s.env.level := by
    rw [hstep]; exact fsub_zero (signBit_of_flt_zero hpos) hle hdaz
  refine exec_envTick_of_level_kept ?_ ⟨fle_of_flt hpos, hle⟩ hdaz
  rw [envArm_release hphase, hkeep, if_neg (ne_true_of_eq_false (fle_eq_false_of_flt hpos)), hphase]

/-- An attack whose step is lost in the sum leaves the level and the phase (R163). -/
theorem exec_envTick_attack_stalls {s : State} {y : Int} (hphase : s.env.phase = .attack)
    (hs : signBit s.env.level = false) (hlt : flt s.cfg.subnormal s.env.level f32One = true)
    (hdaz : daz s.cfg.subnormal s.env.level = s.env.level) (hstep : realOf s.env.attackInc = some y)
    (hy : 0 ≤ y) (hsmall : 2 * y < ulpOf s.env.level ∨
      (2 * y = ulpOf s.env.level ∧ fracField s.env.level % 2 = 0)) :
    exec .envTick s = .next { s with result := s.env.level } := by
  have hle := fle_of_flt hlt
  obtain ⟨z, hz, hz0, hzy⟩ := realOf_daz_of_nonneg s.cfg.subnormal hstep hy
  have hkeep : fadd s.cfg.subnormal s.env.level s.env.attackInc = s.env.level :=
    fadd_small hs hle hdaz hz hz0 (by omega)
  refine exec_envTick_of_level_kept ?_ ⟨fle_zero_of_signBit hs hle, hle⟩ hdaz
  rw [envArm_attack hphase, hkeep, if_neg (ne_true_of_eq_false (fle_eq_false_of_flt hlt)), hphase]

/-- A decay from `1.0` whose step is lost in the difference leaves the level and the phase (R163). -/
theorem exec_envTick_decay_stalls {s : State} {y : Int} (hphase : s.env.phase = .decay)
    (hlevel : s.env.level = f32One) (hlt : flt s.cfg.subnormal s.env.sustain f32One = true)
    (hstep : realOf s.env.decayDec = some y) (hy : 0 ≤ y) (hsmall : y ≤ 2 ^ 124) :
    exec .envTick s = .next { s with result := f32One } := by
  obtain ⟨z, hz, hz0, hzy⟩ := realOf_daz_of_nonneg s.cfg.subnormal hstep hy
  have hkeep : fsub s.cfg.subnormal s.env.level s.env.decayDec = s.env.level := by
    rw [hlevel]; exact fsub_one_small hz hz0 (by omega)
  refine exec_envTick_of_full_level_kept hlevel ?_
  rw [← hlevel] at hlt
  rw [envArm_decay hphase, hkeep, if_neg (ne_true_of_eq_false (fle_eq_false_of_flt hlt)), hphase]

/-- The attack step of 1.0e6 ms at 44100 Hz (R163, R172). -/
theorem attackStep_longest {p : Params} (hfs : p.fs = 44100) : attackStep p 0x49742400 = 0x32C2C879 := by
  unfold attackStep samples
  rw [hfs]
  cases p.subnormal <;> decide

/-- Settles O21, by the attack and the decay whose steps are lost. -/
theorem attackStallsBelowHalfAnUlp : Obligations.AttackStallsBelowHalfAnUlp := by
  unfold Obligations.AttackStallsBelowHalfAnUlp
  refine ⟨fun s y => exec_envTick_attack_stalls, fun s y => exec_envTick_decay_stalls,
    fun p => attackStep_longest, fun s hphase hlevel hstep => ?_⟩
  have hlt : flt s.cfg.subnormal 0x3F000000 f32One = true := by cases s.cfg.subnormal <;> decide
  have hdaz : daz s.cfg.subnormal 0x3F000000 = 0x3F000000 := by cases s.cfg.subnormal <;> decide
  have hinc : realOf 0x32C2C879 = some (12765305 * 2 ^ 100) := by decide
  rw [← hlevel] at hlt hdaz ⊢
  rw [← hstep] at hinc
  refine exec_envTick_attack_stalls hphase ?_ hlt hdaz hinc (by omega) (.inl ?_)
  · rw [hlevel]; decide
  · rw [hlevel]; decide

end Sys2Proof.Proofs
end

section
/-! PROOFS. The envelope's parameter commands (R171, R172, R175-R178): each stores its parameter and recomputes
the three steps. -/

namespace Sys2Proof.Proofs

open Sys2Proof.Machine Sys2Proof.Claims

theorem samples_eq_sampleCount (p : Params) (t : Word) : samples p t = sampleCount p t := by
  unfold samples sampleCount
  simp only [Bool.or_eq_true]
  rfl

theorem recomputeIncrements_eq_stepsRecomputed (p : Params) (e : EnvUnit) :
    recomputeIncrements p e = stepsRecomputed p e := by
  simp only [recomputeIncrements, attackStep, decayStep, releaseStep, samples_eq_sampleCount]
  rfl

theorem withEnvParams_eq (s : State) (e : EnvUnit) :
    withEnvParams s e = { s with env := stepsRecomputed s.cfg e } := by
  rw [withEnvParams, recomputeIncrements_eq_stepsRecomputed]

/-- `ENV_SET_SUSTAIN` stores the saturated operand and recomputes the steps (R178). -/
theorem exec_envSus (s : State) : exec .envSus s = .next { s with
    env := stepsRecomputed s.cfg { s.env with sustain := sat s.cfg.subnormal s.data f32Zero f32One } } :=
  congrArg Host.Outcome.next (withEnvParams_eq s _)

theorem sat_nan_unit {m : SubnormalMode} {v : Word} (h : isNaN v = true) :
    sat m v f32Zero f32One = f32Zero := by
  rw [sat_nan h]
  cases m <;> decide

/-- Settles O24: the stored level is what `sat` gives above, below, at a NaN and between the bounds. -/
theorem sustainCommandSaturatesAndRecomputes : Obligations.SustainCommandSaturatesAndRecomputes := by
  unfold Obligations.SustainCommandSaturatesAndRecomputes
  refine ⟨fun p => decode_encode (i := .envSus) rfl, fun s => ⟨_, exec_envSus s, sat_inRange_unit _ _,
    fun habove => ?_, fun hbelow => ?_, sat_of_inRange⟩⟩
  · obtain ⟨hunit, -⟩ := bounds_ordered s.cfg.subnormal
    exact sat_above habove hunit
  · rcases hbelow with hlt | hnan
    · exact sat_below hlt
    · exact sat_nan_unit hnan

/-- Settles O23: each time command is a write of one parameter and the recomputation. -/
theorem timeCommandsStoreAndRecompute : Obligations.TimeCommandsStoreAndRecompute := by
  unfold Obligations.TimeCommandsStoreAndRecompute
  refine ⟨fun p => ⟨decode_encode (i := .envAtk) rfl, decode_encode (i := .envDec) rfl,
    decode_encode (i := .envRel) rfl⟩, fun s => ?_⟩
  have hstore := fun e => congrArg (Host.Outcome.next (φ := Fault) (ρ := Refusal)) (withEnvParams_eq s e)
  exact ⟨hstore _, hstore _, hstore _⟩

end Sys2Proof.Proofs
end

section
/-! PROOFS. The range of the steps (R174): a level in [0, 1] over a sample count of at least 1, and `1.0` less a
level in [0, 1]. -/

namespace Sys2Proof.Proofs

open Sys2Proof.Machine Sys2Proof.Claims

section
variable {m : SubnormalMode} {w : Word}

/-- The place in the order of a value in [0, 1]. -/
theorem inRange_unit_iff :
    inRange m f32Zero w f32One ↔ ∃ k, orderKey m w = some k ∧ 0 ≤ k ∧ k ≤ 2 ^ 149 := by
  obtain ⟨-, hone⟩ := orderKey_one m
  constructor
  · rintro ⟨hlo, hhi⟩
    obtain ⟨l, k, hl, hk, hlk⟩ := fle_iff.1 hlo
    obtain ⟨k', u, hk', hu, hku⟩ := fle_iff.1 hhi
    cases (orderKey_zero m).symm.trans hl
    cases hone.symm.trans hu
    cases hk.symm.trans hk'
    exact ⟨k, hk, hlk, hku⟩
  · rintro ⟨k, hk, hlo, hhi⟩
    exact ⟨fle_iff.2 ⟨0, k, orderKey_zero m, hk, hlo⟩, fle_iff.2 ⟨k, _, hk, hone, hhi⟩⟩

/-- A value in [0, 1] is finite. -/
theorem realOf_daz_of_inRange_unit (h : inRange m f32Zero w f32One) :
    ∃ v, realOf (daz m w) = some v ∧ 0 ≤ v ∧ v ≤ 2 ^ 149 := by
  obtain ⟨k, hk, hlo, hhi⟩ := inRange_unit_iff.1 h
  have hneg : fle m f32NegOne w = true := fle_iff.2 ⟨_, k, (orderKey_one m).1, hk, by omega⟩
  obtain ⟨s, x, hx, -⟩ := unpack_daz_of_unit_range ⟨hneg, h.2⟩
  rw [orderKey, hx] at hk
  obtain rfl := unpack_fin_sign hx
  exact ⟨k, realOf_eq_some_iff.2 ⟨x, hx, Option.some.inj hk⟩, hlo, hhi⟩

theorem eq_zero_of_signedMag_nonneg {x : Nat} (h : 0 ≤ signedMag true x) : x = 0 := by
  simp only [signedMag, if_true] at h; omega

theorem patternMag_one : patternMag 0x3F800000 = 2 ^ 149 := by decide

theorem zero_inRange_unit (s : Bool) : inRange m f32Zero (withSign s 0) f32One := by
  unfold inRange; cases m <;> cases s <;> decide

/-- A rounding of a quotient in [0, 1] is in [0, 1], whatever the modes it is rounded and compared in (R10). -/
theorem roundResult_inRange_unit (mode : SubnormalMode) {s : Bool} {num den : Nat} (hd : 0 < den)
    (hpos : 0 ≤ signedMag s num) (hle : num ≤ 2 ^ 149 * den) :
    inRange m f32Zero (roundResult mode s num den) f32One := by
  cases s with
  | false =>
    rw [← patternMag_one] at hle
    obtain ⟨p, hp, hr⟩ := roundResult_le (m := mode) (neg := false) hd (by omega) hle
    obtain ⟨y, hy, hk⟩ := orderKey_withSign (m := m) (neg := false) (p := p) (by omega)
    have hmag : patternMag p ≤ 2 ^ 149 := (patternMag_mono hp).trans_eq patternMag_one
    rw [hr, inRange_unit_iff]
    exact ⟨_, hk, Int.natCast_nonneg y, by simp only [signedMag, Bool.false_eq_true, if_false]; omega⟩
  | true =>
    obtain rfl := eq_zero_of_signedMag_nonneg hpos
    obtain ⟨p, hp, hr⟩ := roundResult_le (m := mode) (neg := true) (P := 0) hd (by omega) (Nat.zero_le _)
    rw [hr, Nat.le_zero.1 hp]
    exact zero_inRange_unit true

/-- `1.0` less a level in [0, 1] is in [0, 1]. -/
theorem fsub_one_inRange_unit (h : inRange m f32Zero w f32One) :
    inRange m f32Zero (fsub m f32One w) f32One := by
  obtain ⟨v, hv, hlo, hhi⟩ := realOf_daz_of_inRange_unit h
  have hone : realOf (daz m f32One) = some (2 ^ 149) := by cases m <;> decide
  rw [fsub, fadd_eq_daz_roundResult hone (realOf_daz_xor hv), inRange_unit_iff, orderKey_daz,
    ← inRange_unit_iff]
  refine roundResult_inRange_unit .preserve Nat.one_pos ?_ (by omega)
  rw [signedMag_sumSign]
  omega

/-- A level in [0, 1] over a count of at least 1, an infinite one among them, is in [0, 1]. -/
theorem fdiv_inRange_unit {n : Word} {k : Int} (h : inRange m f32Zero w f32One)
    (hk : orderKey m n = some k) (hge : 2 ^ 149 ≤ k) : inRange m f32Zero (fdiv m w n) f32One := by
  obtain ⟨v, hv, hlo, hhi⟩ := realOf_daz_of_inRange_unit h
  obtain ⟨x, hx, rfl⟩ := unpack_daz_of_realOf hv
  have hle : x ≤ 2 ^ 149 := by
    have hmag := natAbs_signedMag (signBit w) x
    omega
  rw [orderKey] at hk
  cases hn : unpack (daz m n) with
  | nan => rw [hn] at hk; cases hk
  | inf t =>
    simp only [fdiv, hx, hn]
    exact zero_inRange_unit _
  | fin t y =>
    rw [hn] at hk
    cases hk
    obtain rfl : t = false := signedMag_pos (by omega : 0 < signedMag t y)
    have hy : 2 ^ 149 ≤ y := by simp only [signedMag, Bool.false_eq_true, if_false] at hge; omega
    simp only [fdiv, hx, hn, if_neg (show ¬ y = 0 by omega), Bool.xor_false]
    refine roundResult_inRange_unit m (by omega) ?_ ?_
    · rw [← Bool.xor_false (signBit w), ← signedMag_mul, signedMag_unit]
      positivity
    · rw [Nat.mul_comm]; exact Nat.mul_le_mul_left _ (by omega)

end

/-- The guard leaves a sample count of at least 1 (R173). -/
theorem orderKey_samples (p : Params) (t : Word) :
    ∃ k, orderKey p.subnormal (samples p t) = some k ∧ 2 ^ 149 ≤ k := by
  obtain ⟨-, hone⟩ := orderKey_one p.subnormal
  unfold samples
  dsimp only
  split
  · exact ⟨_, hone, le_rfl⟩
  · rename_i hguard
    rw [Bool.or_eq_true, not_or, Bool.not_eq_true] at hguard
    obtain ⟨hnum, hlt⟩ := hguard
    obtain ⟨k, hk⟩ := orderKey_isSome (m := p.subnormal) hnum
    rw [flt_of_orderKey hk hone, decide_eq_true_eq] at hlt
    exact ⟨k, hk, by omega⟩

/-- Settles O26: each step is a level in [0, 1] over a sample count of at least 1. -/
theorem stepsLieInUnitInterval : Obligations.StepsLieInUnitInterval := by
  unfold Obligations.StepsLieInUnitInterval
  intro p sustain t hs
  obtain ⟨k, hk, hge⟩ := orderKey_samples p t
  exact ⟨fdiv_inRange_unit (one_inRange_unit _) hk hge, fdiv_inRange_unit (fsub_one_inRange_unit hs) hk hge,
    fdiv_inRange_unit hs hk hge⟩

end Sys2Proof.Proofs
end

section
/-! PROOFS. Short times (R171, R173): `f32(FS)` is exact, a short time gives a count of at most 1, and a division
by a count of exactly 1 leaves its dividend. -/

namespace Sys2Proof.Proofs

open Sys2Proof.Machine Sys2Proof.Claims

/-! The sample rate (R6, R15). -/

/-- A magnitude of 24 significant bits is a pattern's. -/
theorem exists_patternMag_eq {n k : Nat} (hdvd : 2 ^ k ∣ n) (hlo : 2 ^ 23 * 2 ^ k ≤ n)
    (hhi : n < 2 ^ 24 * 2 ^ k) : ∃ P, patternMag P = n ∧ (k + 1) * 2 ^ 23 ≤ P ∧ P < (k + 2) * 2 ^ 23 := by
  obtain ⟨q, rfl⟩ := hdvd
  have hpow : 0 < 2 ^ k := by positivity
  rw [Nat.mul_comm (2 ^ k) q] at *
  have hq : 2 ^ 23 ≤ q := Nat.le_of_mul_le_mul_right hlo hpow
  have hq' : q < 2 ^ 24 := Nat.lt_of_mul_lt_mul_right hhi
  exact ⟨k * 2 ^ 23 + q, (patternMag_neighbours (.inr ⟨hq, hq'⟩)).1, by omega, by omega⟩

/-- An exactly representable rate is the magnitude of a normal pattern. -/
theorem exists_pattern_of_exactRate {p : Params} (h : ExactRate p) :
    ∃ P, patternMag P = p.fs * 2 ^ 149 ∧ 2 ^ 23 ≤ P ∧ P < 0x7F800000 := by
  obtain ⟨hpos, hlt, hmod⟩ := h
  have hlow := Nat.log2_self_le (n := p.fs) (by omega)
  have hhigh := Nat.lt_log2_self (n := p.fs)
  have hbits : Nat.log2 p.fs < 128 := (Nat.log2_lt (by omega)).2 hlt
  generalize Nat.log2 p.fs = L at *
  have hdvd : 2 ^ (L + 126) ∣ p.fs * 2 ^ 149 := by
    have hfs : 2 ^ (L - 23) * 2 ^ 149 ∣ p.fs * 2 ^ 149 :=
      Nat.mul_dvd_mul_right (Nat.dvd_of_mod_eq_zero hmod) _
    rw [← Nat.pow_add] at hfs
    exact (Nat.pow_dvd_pow 2 (by omega)).trans hfs
  have elow : 2 ^ 23 * 2 ^ (L + 126) = 2 ^ L * 2 ^ 149 := by ring
  have ehigh : 2 ^ 24 * 2 ^ (L + 126) = 2 ^ (L + 1) * 2 ^ 149 := by ring
  obtain ⟨P, hP, hPlo, hPhi⟩ := exists_patternMag_eq hdvd (elow.trans_le (Nat.mul_le_mul_right _ hlow))
    ((Nat.mul_lt_mul_of_pos_right hhigh (by positivity)).trans_eq ehigh.symm)
  exact ⟨P, hP, by omega, by omega⟩

/-- `f32(FS)` of an exactly representable rate is the rate's own pattern. -/
theorem f32OfInt_of_exactRate {p : Params} (h : ExactRate p) :
    ∃ P, patternMag P = p.fs * 2 ^ 149 ∧ 2 ^ 23 ≤ P ∧ P < 0x7F800000 ∧
      f32OfInt p.fs = withSign false P := by
  obtain ⟨P, hP, hlo, hhi⟩ := exists_pattern_of_exactRate h
  have hround := roundPattern_exact Nat.one_pos P
  rw [Nat.mul_one, hP] at hround
  refine ⟨P, hP, hlo, hhi, ?_⟩
  have hsign : decide ((p.fs : Int) < 0) = false := by simp
  rw [f32OfInt, hsign, Int.natAbs_natCast, roundResult, hround]
  simp only [if_neg (show ¬ 0x7F800000 ≤ P by omega), reduceCtorEq, false_and, if_false]

theorem realOf_f32OfInt {p : Params} (h : ExactRate p) :
    realOf (f32OfInt p.fs) = some ((p.fs : Int) * 2 ^ 149) := by
  obtain ⟨P, hP, -, hhi, hfs⟩ := f32OfInt_of_exactRate h
  rw [hfs, realOf_withSign _ hhi, hP]
  simp [signedMag]

/-- The operand rule leaves the rate: its pattern is normal. -/
theorem unpack_daz_f32OfInt {p : Params} (h : ExactRate p) (m : SubnormalMode) :
    unpack (daz m (f32OfInt p.fs)) = .fin false (p.fs * 2 ^ 149) := by
  obtain ⟨P, hP, hlo, hhi, hfs⟩ := f32OfInt_of_exactRate h
  have hdaz : daz m (withSign false P) = withSign false P := by
    cases m with
    | preserve => rfl
    | flush => rw [daz, expField_withSign _ (by omega), if_neg (by omega)]
  rw [hfs, hdaz, unpack_withSign _ hhi, hP]

/-! The sign of a product or quotient by a positive value is that of the first operand (R10). -/

theorem signBit_roundResult (m : SubnormalMode) (neg : Bool) (num den : Nat) :
    signBit (roundResult m neg num den) = neg := by
  unfold roundResult
  dsimp only
  split
  · exact signBit_withSign _ (by omega)
  · split
    · exact signBit_withSign _ (by omega)
    · exact signBit_withSign _ (by omega)

section
variable {m : SubnormalMode} {a b : Word} {y : Nat} (ha : isNaN a = false)
  (hb : unpack (daz m b) = .fin false y) (hy : 0 < y)
include ha hb hy

theorem signBit_fmul_of_pos : signBit (fmul m a b) = signBit a := by
  rw [← isNaN_daz m] at ha
  rw [← signBit_daz m a]
  cases hu : unpack (daz m a) with
  | nan => simp [isNaN, hu] at ha
  | inf s =>
    simp only [fmul, hu, hb, if_neg hy.ne', Bool.xor_false, unpack_inf_sign hu]
    exact signBit_withSign _ (by omega)
  | fin s x =>
    simp only [fmul, hu, hb, Bool.xor_false, unpack_fin_sign hu]
    exact signBit_roundResult ..

theorem signBit_fdiv_of_pos : signBit (fdiv m a b) = signBit a := by
  rw [← isNaN_daz m] at ha
  rw [← signBit_daz m a]
  cases hu : unpack (daz m a) with
  | nan => simp [isNaN, hu] at ha
  | inf s =>
    simp only [fdiv, hu, hb, Bool.xor_false, unpack_inf_sign hu]
    exact signBit_withSign _ (by omega)
  | fin s x =>
    simp only [fdiv, hu, hb, if_neg hy.ne', Bool.xor_false, unpack_fin_sign hu]
    exact signBit_roundResult ..

end

/-! R173's three cases, kept from the time to the product and to the count. -/

/-- A value that is not above a positive finite pattern: a NaN, a negative value, or a pattern up to it. -/
def NotAbove (P : Nat) (w : Word) : Prop :=
  isNaN w = true ∨ signBit w = true ∨ ∃ p ≤ P, w = withSign false p

section
variable {m : SubnormalMode} {a b : Word} {y P Q : Nat}

/-- A product with a positive value is not above a pattern that bounds the exact product of a finite operand of
at least 0: rounding does not pass it (R10). -/
theorem fmul_notAbove (hb : unpack (daz m b) = .fin false y) (hy : 0 < y) (hP : P < 0x7F800000)
    (ha : isNaN a = true ∨ signBit a = true ∨
      ∃ x, unpack a = .fin false x ∧ x * y ≤ patternMag P * 2 ^ 149) : NotAbove P (fmul m a b) := by
  by_cases hnan : isNaN a = true
  · rw [fmul_of_nan (.inl hnan)]; exact .inl rfl
  rcases ha with hnum | hneg | ⟨x, hx, hle⟩
  · exact absurd hnum hnan
  · exact .inr (.inl ((signBit_fmul_of_pos (by simpa using hnan) hb hy).trans hneg))
  · obtain ⟨z, hz, hzx⟩ := unpack_daz_fin (m := m) hx
    simp only [fmul, hz, hb, Bool.xor_false]
    exact .inr (.inr (roundResult_le (by positivity) hP ((Nat.mul_le_mul_right y hzx).trans hle)))

/-- A quotient by a positive value is not above the quotient of a bound, where that is representable (R10). -/
theorem fdiv_notAbove (hb : unpack (daz m b) = .fin false y) (hy : 0 < y) (hP : P < 0x7F800000)
    (hQ : Q < 0x7F800000) (hle : patternMag P * 2 ^ 149 ≤ patternMag Q * y) (ha : NotAbove P a) :
    NotAbove Q (fdiv m a b) := by
  by_cases hnan : isNaN a = true
  · rw [fdiv_of_nan (.inl hnan)]; exact .inl rfl
  rcases ha with hnum | hneg | ⟨p, hp, rfl⟩
  · exact absurd hnum hnan
  · exact .inr (.inl ((signBit_fdiv_of_pos (by simpa using hnan) hb hy).trans hneg))
  · obtain ⟨z, hz, hzp⟩ := unpack_daz_fin (m := m) (unpack_withSign false (Nat.lt_of_le_of_lt hp hP))
    simp only [fdiv, hz, hb, if_neg hy.ne', Bool.xor_false]
    have hz' : z * 2 ^ 149 ≤ patternMag P * 2 ^ 149 :=
      Nat.mul_le_mul_right _ (hzp.trans (patternMag_mono hp))
    exact .inr (.inr (roundResult_le hy hQ (hz'.trans hle)))

/-- A negative value has no place above 0. -/
theorem orderKey_nonpos_of_signBit {k : Int} (hs : signBit a = true) (hk : orderKey m a = some k) :
    k ≤ 0 := by
  by_contra hpos
  have hlt : flt m f32Zero a = true := flt_iff.2 ⟨0, k, orderKey_zero m, hk, by omega⟩
  rw [signBit_of_flt_zero hlt] at hs
  cases hs

/-- The guard takes a count not above `1.0` to `1.0` (R173). -/
theorem guard_of_notAbove_one (h : NotAbove 0x3F800000 a) :
    (if isNaN a || flt m a f32One then f32One else a) = f32One := by
  obtain ⟨-, hone⟩ := orderKey_one m
  by_cases hnan : isNaN a = true
  · rw [hnan, Bool.true_or, if_pos rfl]
  rcases h with hnum | hneg | ⟨p, hp, rfl⟩
  · exact absurd hnum hnan
  · obtain ⟨k, hk⟩ := orderKey_isSome (m := m) (by simpa using hnan)
    have hle := orderKey_nonpos_of_signBit hneg hk
    have hlt : flt m a f32One = true := flt_iff.2 ⟨k, _, hk, hone, by omega⟩
    rw [hlt, Bool.or_true, if_pos rfl]
  · rcases Nat.lt_or_eq_of_le hp with hless | rfl
    · obtain ⟨y, hy, hk⟩ := orderKey_withSign (m := m) (neg := false) (p := p) (by omega)
      have hmag := patternMag_lt hless
      rw [patternMag_one] at hmag
      have hlt : flt m (withSign false p) f32One = true :=
        flt_iff.2 ⟨_, _, hk, hone, by simp only [signedMag, Bool.false_eq_true, if_false]; omega⟩
      rw [hlt, Bool.or_true, if_pos rfl]
    · exact ite_self _

end

/-- A short time by its pattern: a NaN, a negative time, or a magnitude of at most 1000 / `FS`. -/
theorem shortTime_cases {p : Params} {t : Word} (h : ShortTime p t) :
    isNaN t = true ∨ signBit t = true ∨
      ∃ x, unpack t = .fin false x ∧ x * (p.fs * 2 ^ 149) ≤ patternMag 0x447A0000 * 2 ^ 149 := by
  cases hs : signBit t with
  | true => exact .inr (.inl rfl)
  | false =>
    rcases h with hnan | hneg | ⟨v, hv, hle⟩
    · exact .inl hnan
    · rw [hs] at hneg; cases hneg
    · obtain ⟨x, hx, rfl⟩ := realOf_eq_some_iff.1 hv
      rw [hs] at hx hle
      have hmag : patternMag 0x447A0000 = 1000 * 2 ^ 149 := by decide
      have hle' : x * p.fs ≤ 1000 * 2 ^ 149 := by
        simp only [signedMag, Bool.false_eq_true, if_false] at hle
        exact_mod_cast hle
      refine .inr (.inr ⟨x, hx, ?_⟩)
      rw [hmag, ← Nat.mul_assoc]
      exact Nat.mul_le_mul_right _ hle'

/-- A short time counts as one sample (R173): neither rounding passes a representable bound. -/
theorem samples_of_shortTime {p : Params} {t : Word} (hp : ExactRate p) (ht : ShortTime p t) :
    samples p t = f32One := by
  have hfs := unpack_daz_f32OfInt hp p.subnormal
  have hpos : 0 < p.fs * 2 ^ 149 := Nat.mul_pos hp.1 (by positivity)
  have hthousand : unpack (daz p.subnormal f32Thousand) = .fin false (1000 * 2 ^ 149) := by
    cases p.subnormal <;> decide
  have hratio : patternMag 0x447A0000 * 2 ^ 149 ≤ patternMag 0x3F800000 * (1000 * 2 ^ 149) := by decide
  have hprod := fmul_notAbove hfs hpos (by omega) (shortTime_cases ht)
  exact guard_of_notAbove_one (fdiv_notAbove hthousand (by positivity) (by omega) (by omega) hratio hprod)

/-! Division by one. -/

theorem roundResult_eq_daz (m : SubnormalMode) (s : Bool) (num den : Nat) :
    roundResult m s num den = daz m (roundResult .preserve s num den) := by
  cases m with
  | preserve => rfl
  | flush => exact roundResult_flush s num den

/-- A finite value over `1.0` is the value after the operand rule. -/
theorem fdiv_one {m : SubnormalMode} {w : Word} {v : Int} (h : realOf (daz m w) = some v) :
    fdiv m w f32One = daz m w := by
  obtain ⟨q, hq, hw, -⟩ := exists_pattern_of_realOf h
  have hu := unpack_withSign (signBit (daz m w)) hq
  rw [← hw] at hu
  have hone : unpack (daz m f32One) = .fin false (2 ^ 149) := by cases m <;> decide
  have hexact : roundResult .preserve (signBit (daz m w)) (patternMag q * 2 ^ 149) (2 ^ 149) = daz m w := by
    rw [roundResult, roundPattern_exact (by positivity), if_neg (by omega), if_neg (by simp), ← hw]
  simp only [fdiv, hu, hone, if_neg (show ¬ 2 ^ 149 = 0 by omega), Bool.xor_false]
  rw [roundResult_eq_daz, hexact, daz_daz]

theorem fdiv_one_of_inRange_unit {m : SubnormalMode} {w : Word} (h : inRange m f32Zero w f32One)
    (hdaz : daz m w = w) : fdiv m w f32One = w := by
  obtain ⟨v, hv, -⟩ := realOf_daz_of_inRange_unit h
  rw [fdiv_one hv, hdaz]

/-- A difference has been through the flush already (R11). -/
theorem daz_fsub (m : SubnormalMode) (a b : Word) : daz m (fsub m a b) = fsub m a b := by
  cases m with
  | preserve => rfl
  | flush => rw [fsub_flush, daz_daz]

/-- Settles O25: a short time's count is `1.0`, and a division by `1.0` leaves the numerators of the steps. -/
theorem shortTimesCountAsOneSample : Obligations.ShortTimesCountAsOneSample := by
  unfold Obligations.ShortTimesCountAsOneSample
  refine ⟨samples_eq_sampleCount, fun p => realOf_f32OfInt, fun p t hp ht => ?_⟩
  have hcount := samples_of_shortTime hp ht
  refine ⟨hcount, ?_, fun sustain hs hdaz => ⟨?_, ?_⟩⟩
  · rw [attackStep, hcount]
    exact fdiv_one_of_inRange_unit (one_inRange_unit _) (daz_one _)
  · rw [decayStep, hcount]
    exact fdiv_one_of_inRange_unit (fsub_one_inRange_unit hs) (daz_fsub ..)
  · rw [releaseStep, hcount]
    exact fdiv_one_of_inRange_unit hs hdaz

end Sys2Proof.Proofs
end

section
/-! PROOFS. The reverb commands: the delay line's step (R190-R195), the saturated gain and mix (R196, R198),
and the write indices along a run of pulses (R194, R210). -/

namespace Sys2Proof.Proofs

open Sys2Proof.Machine Sys2Proof.Claims

/-- Replacing a reverb unit is undone by the two units as they were: nothing else changed (R199). -/
theorem setRev_frame (s : State) (c : Channel) (u : RevUnit) :
    { s.setRev c u with rev0 := s.rev0, rev1 := s.rev1 } = s := by
  cases c <;> rfl

/-- `REV_PROC` on `DATA` (R190). -/
theorem exec_revProc (s : State) (c : Channel) :
    exec (.revProc c) s =
      .next ((s.setRev c (revUnitOf s c s.data).1).setResult (revUnitOf s c s.data).2) := rfl

/-! The ring after a write at the write index (R63, R190). -/

theorem getD_set_same {buf : List Word} {i : Nat} (hi : i < buf.length) (v : Word) :
    (buf.set i v).getD i 0 = v := by
  rw [List.getD_eq_getElem?_getD, List.getElem?_set_self hi, Option.getD_some]

theorem getD_set_ne (buf : List Word) {i j : Nat} (h : j ≠ i) (v : Word) :
    (buf.set i v).getD j 0 = buf.getD j 0 := by
  rw [List.getD_eq_getElem?_getD, List.getElem?_set_ne h.symm, List.getD_eq_getElem?_getD]

/-- Settles O27: the state after the unit's step, with the write read back from the ring. -/
theorem revProcRunsTheDelayLine : Obligations.RevProcRunsTheDelayLine := by
  unfold Obligations.RevProcRunsTheDelayLine
  refine ⟨fun p => ⟨decode_encode (i := .revProc .left) rfl, decode_encode (i := .revProc .right) rfl⟩,
    fun s c hw => ⟨_, exec_revProc s c, ?_⟩⟩
  obtain ⟨hlen, hwi⟩ := rev_wf hw c
  simp only [State.memRead, State.setResult_rev, State.rev_setRev_same]
  exact ⟨rfl, getD_set_same (hlen ▸ hwi) _, fun j hj => getD_set_ne _ hj _, rfl, rfl, rfl,
    fun e he => s.rev_setRev_other _ he.symm,
    congrArg (fun t : State => { t with result := s.result }) (setRev_frame s c _)⟩

/-! The two offsets that read the slot about to be written (R192). -/

/-- An offset of the whole ring reads the slot that offset 0 reads (R192). -/
theorem subMod_self_len (a n : Nat) : subMod a n n = subMod a 0 n := by
  simp [subMod]

theorem delayedSample_len (len : Nat) (u : RevUnit) :
    delayedSample len len u = delayedSample len 0 u := by
  rw [delayedSample, delayedSample, subMod_self_len]

/-- Under one offset for both channels, the configuration enters `REV_PROC` by that offset alone (R37). -/
theorem exec_revProc_setDelays (s : State) (c : Channel) (delay : Nat) :
    let p : Params := { s.cfg with revDelay0 := delay, revDelay1 := delay }
    let r := revUnitStep s.cfg.subnormal s.cfg.revLen delay s.data (s.rev c)
    exec (.revProc c) { s with cfg := p } = .next { (s.setRev c r.1).setResult r.2 with cfg := p } := by
  cases c <;> rfl

/-- Settles O29: both offsets give the unit's step the same delayed sample. -/
theorem offsetZeroActsAsRevLen : Obligations.OffsetZeroActsAsRevLen := by
  unfold Obligations.OffsetZeroActsAsRevLen
  intro s c _
  have hstep : revUnitStep s.cfg.subnormal s.cfg.revLen s.cfg.revLen s.data (s.rev c) =
      revUnitStep s.cfg.subnormal s.cfg.revLen 0 s.data (s.rev c) := by
    simp only [revUnitStep, delayedSample_len]
  refine ⟨_, exec_revProc_setDelays s c 0, ?_⟩
  rw [← hstep]
  exact exec_revProc_setDelays s c s.cfg.revLen

/-! The parameter commands (R196, R198). -/

theorem exec_revFb (s : State) (c : Channel) :
    exec (.revFb c) s =
      .next (s.setRev c { s.rev c with fb := sat s.cfg.subnormal s.data f32Zero f32Gain }) := rfl

theorem exec_revMix (s : State) (c : Channel) :
    exec (.revMix c) s =
      .next (s.setRev c { s.rev c with mix := sat s.cfg.subnormal s.data f32Zero f32One }) := rfl

/-- Saturation to `[0, hi]`, operand by operand: above, below or NaN, and between the bounds (R13). -/
theorem sat_from_zero {m : SubnormalMode} {hi : Word} (h : fle m f32Zero hi = true) (v : Word) :
    inRange m f32Zero (sat m v f32Zero hi) hi ∧
    (flt m hi v = true → sat m v f32Zero hi = hi) ∧
    (flt m v f32Zero = true ∨ isNaN v = true → sat m v f32Zero hi = f32Zero) ∧
    (inRange m f32Zero v hi → sat m v f32Zero hi = daz m v) := by
  refine ⟨sat_inRange v h, fun habove => sat_above habove h, fun hbelow => ?_, sat_of_inRange⟩
  rcases hbelow with hlt | hnan
  · exact sat_below hlt
  · have hzero : inRange m f32Zero f32Zero hi := ⟨by cases m <;> decide, h⟩
    rw [sat_nan hnan, sat_of_inRange hzero]
    cases m <;> rfl

/-- Settles O30: the channel's unit with the saturated gain, the other unit and the frame kept. -/
theorem revSetFbSaturatesTheGain : Obligations.RevSetFbSaturatesTheGain := by
  unfold Obligations.RevSetFbSaturatesTheGain
  refine ⟨fun p => ⟨decode_encode (i := .revFb .left) rfl, decode_encode (i := .revFb .right) rfl⟩,
    fun s c => ⟨_, _, exec_revFb s c, s.rev_setRev_same _ c, rfl, ?_⟩⟩
  obtain ⟨-, hgain, -⟩ := bounds_ordered s.cfg.subnormal
  obtain ⟨hrange, habove, hbelow, hbetween⟩ := sat_from_zero hgain s.data
  exact ⟨hrange, habove, hbelow, hbetween, fun e he => s.rev_setRev_other _ he.symm, setRev_frame s c _⟩

/-- Settles O31: the channel's unit with the saturated mix, the other unit and the frame kept. -/
theorem revSetMixSaturatesTheMix : Obligations.RevSetMixSaturatesTheMix := by
  unfold Obligations.RevSetMixSaturatesTheMix
  refine ⟨fun p => ⟨decode_encode (i := .revMix .left) rfl, decode_encode (i := .revMix .right) rfl⟩,
    fun s c => ⟨_, _, exec_revMix s c, s.rev_setRev_same _ c, rfl, ?_⟩⟩
  obtain ⟨hunit, -⟩ := bounds_ordered s.cfg.subnormal
  obtain ⟨hrange, habove, hbelow, hbetween⟩ := sat_from_zero hunit s.data
  exact ⟨hrange, habove, hbelow, hbetween, fun e he => s.rev_setRev_other _ he.symm, setRev_frame s c _⟩

/-! The write indices along a run of pulses (R194, R210). -/

/-- A chain step advances each write index by one, modulo the ring's length (R194, R210). -/
theorem chainStep_wi (x : Word) (s : State) (c : Channel) :
    ((chainStep x s).rev c).wi = ((s.rev c).wi + 1) % s.cfg.revLen := by
  cases c <;> rfl

/-- A run of pulses advances each write index once a pulse; the inputs behind the pulses are left. -/
theorem reaches_after_pulses (xs : List Word) {s : State} {rest : List Input} (hw : Memory.wf s = true)
    (hin : s.inputs = xs.map .pulse ++ rest) :
    ∃ t, Reaches xs.length s t ∧ t.inputs = rest ∧
      ∀ c, (t.rev c).wi = ((s.rev c).wi + xs.length) % s.cfg.revLen := by
  induction xs generalizing s with
  | nil => exact ⟨s, rfl, hin, fun c => (Nat.mod_eq_of_lt (rev_wf hw c).2).symm⟩
  | cons x xs ih =>
    obtain ⟨t, hreach, hrest, hwi⟩ := ih (s := chainStep x { s with inputs := xs.map .pulse ++ rest })
      (chainStep_wf x hw) rfl
    refine ⟨t, ⟨_, step_of_inputs hin, hreach⟩, hrest, fun c => ?_⟩
    calc (t.rev c).wi
        = (((s.rev c).wi + 1) % s.cfg.revLen + xs.length) % s.cfg.revLen := by
          rw [hwi, chainStep_wi]
          cases c <;> rfl
      _ = ((s.rev c).wi + (x :: xs).length) % s.cfg.revLen := by
          rw [Nat.mod_add_mod, Nat.add_assoc, Nat.add_comm 1, List.length_cons]

/-- Settles O32: by the run of pulses, from any canonical state and from reset. -/
theorem writeIndexCountsChainSteps : Obligations.WriteIndexCountsChainSteps := by
  unfold Obligations.WriteIndexCountsChainSteps
  refine ⟨fun s xs rest hw hin => ?_, fun p xs hp => ?_⟩
  · obtain ⟨t, hreach, hrest, hwi⟩ := reaches_after_pulses xs hw hin
    exact ⟨t, hreach, hrest, hwi .left, hwi .right⟩
  · obtain ⟨t, hreach, -, hwi⟩ := reaches_after_pulses xs
      (s := { State.resetFor p with inputs := xs.map .pulse }) (resetFor_wf hp) (List.append_nil _).symm
    have hcount : ∀ c, (t.rev c).wi = xs.length % p.revLen := fun c => by
      rw [hwi c]
      cases c <;> exact congrArg (· % p.revLen) (Nat.zero_add _)
    exact ⟨t, hreach, hcount .left, hcount .right⟩

end Sys2Proof.Proofs
end

section
/-! PROOFS. The chain as the host's commands compose it (R210, R211, R217), and what a pulse leaves
(R212, R215). -/

namespace Sys2Proof.Proofs

open Sys2Proof.Machine Sys2Proof.Claims

/-- `PIPE_STEP` is the chain step on `DATA`, and `RESULT` takes the packed pair (R210). -/
theorem exec_pipeStep (s : State) :
    exec .pipeStep s = .next ((chainStep s.data s).setResult (chainStep s.data s).outPcm) := rfl

/-- `ENV_TICK` is the chain's tick, and `RESULT` takes its level (R154, R211). -/
theorem exec_envTick_eq_tickEnv (s : State) :
    exec .envTick s = .next ((tickEnv s).setResult (tickEnv s).env.level) := rfl

/-- Settles O33: each unit's command leaves in `RESULT` what the chain hands to the next unit. -/
theorem pipeStepComposesTheUnits : Obligations.PipeStepComposesTheUnits := by
  unfold Obligations.PipeStepComposesTheUnits
  refine ⟨fun p => decode_encode (i := .pipeStep) rfl, fun s => ⟨_, _, _, _, exec_firProc s,
    exec_envTick_eq_tickEnv _, exec_revProc _ .left, exec_revProc _ .right, ?_⟩⟩
  rw [exec_pipeStep, chainStep_eq]
  rfl

/-- The chain looks at neither `DATA` nor `RESULT`, and leaves both as they are (R212, R215). -/
theorem chainStep_setDataResult (x : Word) (s : State) (data result : Word) :
    chainStep x { s with data := data, result := result } =
      { chainStep x s with data := data, result := result } := by
  rw [chainStep_eq, chainStep_eq]
  rfl

/-- Settles O34: a chain step commutes with replacing `DATA` and the inputs, and `RESULT` is put back. -/
theorem pulseIsTheSameChain : Obligations.PulseIsTheSameChain := by
  unfold Obligations.PulseIsTheSameChain
  intro s x rest hin
  refine ⟨_, _, exec_pipeStep _, step_of_inputs hin, ?_, ?_, rfl, rfl, rfl⟩
  · exact chainStep_setDataResult x { s with data := x, inputs := rest } s.data s.result
  · rw [chainStep_eq]

/-- A tick moves the level and the phase alone (R154). -/
theorem envTick_frame (m : SubnormalMode) (e : EnvUnit) :
    { envTick m e with level := e.level, phase := e.phase } = e := rfl

/-- A chain step writes no reverb gain (R215). -/
theorem chainStep_rev_gains (x : Word) (s : State) (c : Channel) :
    ((chainStep x s).rev c).fb = (s.rev c).fb ∧ ((chainStep x s).rev c).mix = (s.rev c).mix := by
  rw [chainStep_eq]
  cases c with
  | left => exact ⟨rfl, rfl⟩
  | right => exact ⟨rfl, rfl⟩

/-- Settles O36: the FIR's push keeps the taps, the tick keeps the parameters and steps, the reverbs keep
their gains, and no other unit is written. -/
theorem pulseLeavesParametersAlone : Obligations.PulseLeavesParametersAlone := by
  unfold Obligations.PulseLeavesParametersAlone
  intro s x rest hin
  refine ⟨_, step_of_inputs hin, ?_⟩
  have hgains := chainStep_rev_gains x { s with inputs := rest }
  rw [chainStep_eq] at hgains ⊢
  exact ⟨rfl, firPush_h s.cfg x s.fir, rfl, envTick_frame _ _, hgains, rfl, rfl, rfl, rfl, rfl⟩

end Sys2Proof.Proofs
end

section
/-! PROOFS. The access commands (46_access.md, R230-R232): what `NOP`, `RD` and `WR` do, by the element and
by the index of R64 their word holds. -/

namespace Sys2Proof.Proofs

open Sys2Proof.Machine Sys2Proof.Claims

/-- Settles O5: `NOP` is the one command whose operation code is 0, and its word is 0. -/
theorem nopChangesNothing : Obligations.NopChangesNothing := by
  unfold Obligations.NopChangesNothing
  refine ⟨fun _ => rfl, fun _ => rfl, fun p w i hop hw hdec => ?_⟩
  obtain ⟨rfl, -⟩ := decode_eq_ok_iff.1 hdec
  rw [encode, opField_cmdWord] at hop
  cases i with
  | nop => exact hw rfl
  | _ => exact absurd hop (by simp [opcodeOf])

/-- Only the `REV_*` commands, from operation code 0x40 on, have a channel (R84). -/
theorem chOf_eq_zero {i : Instr} (h : (opcodeOf i).toNat < 0x40) : chOf i = 0 := by
  cases i with
  | revProc c | revFb c | revMix c => exact absurd h (by simp [opcodeOf])
  | _ => rfl

theorem runCommand_encode {s : State} {i : Instr} (h : i.wf s.cfg = true) :
    runCommand (encode i) s = exec i s :=
  runCommand_of_decode (decode_encode h)

/-- Below operation code 0x40 a nonzero `CH` is illegal, under any configuration (R84, R87). -/
theorem runCommand_of_ch_ne_zero {op ch : BitVec 8} (hop : op.toNat < 0x40) (hch : ch ≠ 0)
    (idx : BitVec 16) (s : State) : runCommand (cmdWord op ch idx) s = .next s.raiseIllegal := by
  refine runCommand_of_illegal fun i hdec => hch ?_
  have henc := (encode_of_decode hdec).1
  have hopi : opcodeOf i = op := by simpa [encode] using congrArg opField henc
  have hchi : chOf i = ch := by simpa [encode] using congrArg chField henc
  rw [← hchi]
  exact chOf_eq_zero (by rwa [hopi])

/-- A word that is not in the table of R84 raises the exception (R87, R281). -/
theorem runCommand_of_not_legalWord {s : State} {w : Word} (hp : s.cfg.Legal)
    (h : ¬ legalWord s.cfg w) : runCommand w s = .next s.raiseIllegal :=
  runCommand_of_illegal fun i hi => h ((decodingAcceptsExactlyTheTable _ _ hp).1 ⟨i, hi⟩)

theorem legalWord_read_iff (p : Params) (idx : BitVec 16) :
    legalWord p (cmdWord 0x01 0x00 idx) ↔ readMapped p idx.toNat := by
  simp [legalWord, plainOpcodes]

theorem legalWord_write_iff (p : Params) (idx : BitVec 16) :
    legalWord p (cmdWord 0x02 0x00 idx) ↔ writeMapped p idx.toNat := by
  simp [legalWord, plainOpcodes]

theorem exec_rd_of_mapped {s : State} {e : Element} (h : e.mapped s.cfg = true) :
    exec (.rd e) s = .next (s.setResult (s.readElement e)) := if_pos h

/-- A number that fits its width is held as it is. -/
theorem toNat_ofNat_of_lt {width n : Nat} (h : n < 2 ^ width) : (BitVec.ofNat width n).toNat = n :=
  (BitVec.toNat_ofNat n width).trans (Nat.mod_eq_of_lt h)

theorem zextWord_phaseNumber (ph : Phase) : zextWord (phaseNumber ph) = phaseWord ph := by
  cases ph <;> rfl

/-- The table by number holds, at the index of a mapped element, the word `RD` delivers for it (R64). -/
theorem tableRead_elementIndex {s : State} (hp : s.cfg.Legal) {e : Element}
    (h : e.mapped s.cfg = true) :
    tableRead s (elementIndex e).toNat = some (s.readElement e) := by
  obtain ⟨⟨-, hfir⟩, ⟨-, hrev⟩, -⟩ := hp
  cases e with
  | firH k =>
    have hk : k.toNat < s.cfg.firN := of_decide_eq_true h
    have hn : (elementIndex (.firH k)).toNat = k.toNat := toNat_ofNat_of_lt (by omega)
    rw [hn, tableRead, if_pos hk]
    rfl
  | firX k =>
    have hk : k.toNat < s.cfg.firN := of_decide_eq_true h
    have hn : (elementIndex (.firX k)).toNat = 0x1000 + k.toNat := toNat_ofNat_of_lt (by omega)
    rw [hn, tableRead, if_neg (by omega), if_pos (by omega), Nat.add_sub_cancel_left]
    rfl
  | iirC j =>
    have hn : (elementIndex (.iirC j)).toNat = 0x2000 + j.val := toNat_ofNat_of_lt (by omega)
    rw [hn, tableRead, if_neg (by omega), if_neg (by omega), if_pos (by omega), Nat.add_sub_cancel_left]
    rfl
  | iirW j =>
    have hn : (elementIndex (.iirW j)).toNat = 0x2010 + j.val := toNat_ofNat_of_lt (by omega)
    rw [hn, tableRead, if_neg (by omega), if_neg (by omega), if_neg (by omega), if_pos (by omega),
      Nat.add_sub_cancel_left]
    rfl
  | revBuf c i =>
    have hi : i.toNat < s.cfg.revLen := of_decide_eq_true h
    have hn : (elementIndex (.revBuf c i)).toNat = i.toNat + (0x8000 + 0x2000 * channelNumber c) := by
      cases c <;> simp only [elementIndex, channelNumber, BitVec.toNat_ofNat] <;> omega
    cases c <;>
    · rw [hn, channelNumber]
      simp (disch := omega) only [Nat.reduceMul, Nat.reduceAdd, tableRead, Nat.reduceEqDiff, if_false,
        if_neg, if_pos, Nat.add_sub_cancel]
      rfl
  | revWi c | revDelay c | revFb c | revMix c =>
    cases c <;>
    · simp only [elementIndex, channelNumber, BitVec.toNat_ofNat, Nat.reduceMul, Nat.reduceAdd,
        Nat.reducePow, Nat.reduceMod]
      rw [tableRead, if_neg (by omega), if_neg (by omega)]
      rfl
  | envPhase =>
    simp only [elementIndex, BitVec.reduceToNat]
    rw [tableRead, if_neg (by omega), if_neg (by omega)]
    exact congrArg some (zextWord_phaseNumber _).symm
  | _ =>
    simp only [elementIndex, BitVec.reduceToNat]
    rw [tableRead, if_neg (by omega), if_neg (by omega)]
    rfl

theorem tableRead_of_not_readMapped {s : State} {n : Nat} (h : ¬ readMapped s.cfg n) :
    tableRead s n = none := by
  unfold readMapped at h
  simp (disch := omega) only [tableRead, if_neg]

/-- Settles O6: the table by number and the elements by name agree at every mapped index, and every other
word is illegal. -/
theorem rdDeliversEveryMappedElement : Obligations.RdDeliversEveryMappedElement := by
  unfold Obligations.RdDeliversEveryMappedElement
  refine ⟨fun s e h => exec_rd_of_mapped h, fun s idx hp => ?_, fun s ch idx hch =>
    runCommand_of_ch_ne_zero (by decide) hch idx s, fun p hp hfs => ⟨?_, rfl⟩⟩
  · by_cases hread : readMapped s.cfg idx.toNat
    · obtain ⟨e, rfl⟩ := exists_element_of_readMapped hp hread
      have hmapped := (readMapped_elementIndex hp e).1 hread
      rw [tableRead_elementIndex hp hmapped]
      exact (runCommand_encode (i := .rd e) hmapped).trans (exec_rd_of_mapped hmapped)
    · rw [tableRead_of_not_readMapped hread]
      exact runCommand_of_not_legalWord hp (mt (legalWord_read_iff _ _).1 hread)
  · have hrate : (State.resetFor p).readElement .sampleRate = 0x472C4400 := by
      change f32OfInt p.fs = _
      rw [hfs]
      decide
    rw [← hrate]
    rfl

/-- A memory write of an element in range writes that element alone (R63). -/
theorem oneElementWritten_memWrite {s : State} (hw : Memory.wf s = true) (sp : Space) {i : Nat}
    (hi : i < spaceLength s.cfg sp) (v : Word) : OneElementWritten s (s.memWrite sp i v) sp i v := by
  refine ⟨State.memRead_memWrite_same hw sp hi v, fun sq j hj hne => ?_, ?_⟩
  · by_cases hsp : sp = sq
    · subst hsp
      exact State.memRead_memWrite_ne hw sp hi hj (fun hij => hne (by rw [hij])) v
    · exact State.memRead_memWrite_space hsp i j v
  · cases sp with
    | revBuf c => cases c <;> and_intros <;> rfl
    | _ => and_intros <;> rfl

theorem exec_wr_firH {s : State} {k : BitVec 12} (hk : k.toNat < s.cfg.firN) :
    exec (.wr (.firH k)) s = .next (s.memWrite .firH k.toNat s.data) := by
  rw [exec, execWr, State.writeElement, if_pos hk]
  rfl

theorem exec_wr_iirC (s : State) (j : Fin 10) :
    exec (.wr (.iirC j)) s = .next (s.memWrite .iirC j.val s.data) := rfl

theorem elementIndex_firH {idx : BitVec 16} (h : idx.toNat < 0x1000) :
    elementIndex (.firH (BitVec.ofNat 12 idx.toNat)) = idx :=
  elementIndex_of_elementAt (if_pos h)

theorem elementIndex_iirC {idx : BitVec 16} (h : 0x2000 ≤ idx.toNat ∧ idx.toNat < 0x200A) :
    elementIndex (.iirC ⟨idx.toNat - 0x2000, by omega⟩) = idx := by
  rw [elementIndex, Nat.add_sub_cancel' h.1, BitVec.ofNat_toNat, BitVec.setWidth_eq]

/-- `WR` of an index below `FIR_N` is a write of that tap (R64, R232). -/
theorem runCommand_wr_firH {s : State} (hp : s.cfg.Legal) {idx : BitVec 16} (h : idx.toNat < s.cfg.firN) :
    runCommand (cmdWord 0x02 0x00 idx) s = .next (s.memWrite .firH idx.toNat s.data) := by
  obtain ⟨⟨-, hfir⟩, -⟩ := hp
  have hk : (BitVec.ofNat 12 idx.toNat).toNat = idx.toNat := toNat_ofNat_of_lt (by omega)
  have hfirN : (BitVec.ofNat 12 idx.toNat).toNat < s.cfg.firN := by rwa [hk]
  have hrun := runCommand_encode (i := .wr (.firH (BitVec.ofNat 12 idx.toNat))) (s := s)
    (by simpa [Instr.wf, Element.mapped, Element.writable] using hfirN)
  rw [exec_wr_firH hfirN, hk] at hrun
  rw [← hrun, encode, idxOf, elementIndex_firH (by omega)]
  rfl

/-- `WR` of an index of the window of `IIR_C` is a write of that coefficient (R64, R232). -/
theorem runCommand_wr_iirC (s : State) {idx : BitVec 16} (h : 0x2000 ≤ idx.toNat ∧ idx.toNat < 0x200A) :
    runCommand (cmdWord 0x02 0x00 idx) s = .next (s.memWrite .iirC (idx.toNat - 0x2000) s.data) := by
  rw [← exec_wr_iirC s ⟨idx.toNat - 0x2000, by omega⟩, ← runCommand_encode rfl, encode, idxOf,
    elementIndex_iirC h]
  rfl

/-- Settles O7: a mapped index is one memory write of `DATA`, and every other word is illegal. -/
theorem wrStoresCoefficientBitForBit : Obligations.WrStoresCoefficientBitForBit := by
  unfold Obligations.WrStoresCoefficientBitForBit
  refine ⟨fun s k hw hk => ⟨_, exec_wr_firH hk, oneElementWritten_memWrite hw .firH hk _⟩,
    fun s j hw => ⟨_, exec_wr_iirC s j, oneElementWritten_memWrite hw .iirC j.isLt _⟩,
    fun s idx hp hw => ⟨fun hk => ?_, fun hj => ?_, fun hwrite => ?_⟩,
    fun s ch idx hch => runCommand_of_ch_ne_zero (by decide) hch idx s⟩
  · exact ⟨_, runCommand_wr_firH hp hk, oneElementWritten_memWrite hw .firH hk _⟩
  · have hlen : idx.toNat - 0x2000 < spaceLength s.cfg .iirC := by simp only [spaceLength]; omega
    exact ⟨_, runCommand_wr_iirC s hj, oneElementWritten_memWrite hw .iirC hlen _⟩
  · exact runCommand_of_not_legalWord hp (mt (legalWord_write_iff _ _).1 hwrite)

end Sys2Proof.Proofs
end

section
/-! PROOFS. Decoding and the configuration (R282), a step with no input and a step with any (R70, R280, R297),
and the state after reset (R310, R311). -/

namespace Sys2Proof.Proofs

open Sys2Proof.Machine Sys2Proof.Claims

/-- The mapping of R64 looks at the two array lengths only. -/
theorem mapped_congr {p q : Params} (hfir : p.firN = q.firN) (hrev : p.revLen = q.revLen) :
    Element.mapped p = Element.mapped q := by
  funext e
  cases e with
  | firH k | firX k => exact congrArg (fun n => decide (k.toNat < n)) hfir
  | revBuf c i => exact congrArg (fun n => decide (i.toNat < n)) hrev
  | _ => rfl

/-- Settles O40: the decoder looks at the configuration through the mapping of R64 only. -/
theorem legalityIgnoresOtherParameters : Obligations.LegalityIgnoresOtherParameters := by
  unfold Obligations.LegalityIgnoresOtherParameters
  intro p q w hfir hrev
  have hmapped := mapped_congr hfir hrev
  have hread : decodeRead p = decodeRead q := by unfold decodeRead; rw [hmapped]
  have hwrite : decodeWrite p = decodeWrite q := by unfold decodeWrite; rw [hmapped]
  rw [decode, hread, hwrite, decode]

theorem step_of_no_inputs {s : State} (h : s.inputs = []) : step s = .next s := by rw [step, h]

/-- Settles O54, by the step's equation. -/
theorem noInputHoldsAllState : Obligations.NoInputHoldsAllState := fun _ => step_of_no_inputs

/-- A write of `CMD` answers: with the command's own answer, or with the exception (R281). -/
theorem runCommand_answers (w : Word) (s : State) : ∃ t, runCommand w s = .next t := by
  unfold runCommand
  cases decode s.cfg w with
  | ok i => exact exec_answers i s
  | error e => exact ⟨_, rfl⟩

theorem portWrite_answers (r : PortReg) (w : Word) (s : State) : ∃ t, portWrite r w s = .next t := by
  cases r with
  | cmd => exact runCommand_answers w s
  | _ => exact ⟨_, rfl⟩

theorem portAccess_answers (a : PortAccess) (s : State) : ∃ t, portAccess a s = .next t := by
  cases a with
  | write offset w =>
    simp only [portAccess]
    cases portSelect offset with
    | none => exact ⟨_, rfl⟩
    | some r => exact portWrite_answers r w s
  | read offset =>
    simp only [portAccess]
    cases portSelect offset <;> exact ⟨_, rfl⟩

theorem takeInput_answers (i : Input) (s : State) : ∃ t, takeInput i s = .next t := by
  cases i with
  | host a => exact portAccess_answers a s
  | _ => exact ⟨_, rfl⟩

/-- Settles O45: an empty list of inputs holds the state, and every input answers. -/
theorem everyStepAnswersNext : Obligations.EveryStepAnswersNext := by
  unfold Obligations.EveryStepAnswersNext
  intro s
  cases h : s.inputs with
  | nil => exact ⟨s, step_of_no_inputs h⟩
  | cons i rest => exact step_of_inputs h ▸ takeInput_answers i _

theorem readElement_sampleRate {s : State} (h : s.cfg.fs = 44100) :
    s.readElement .sampleRate = 0x472C4400 := by
  rw [State.readElement, h]
  decide

/-- The reset state is R310's table under every configuration. -/
theorem resetTable_resetFor (p : Params) : ResetTable p (State.resetFor p) := by
  refine ⟨rfl, ⟨rfl, rfl, rfl, fun k _ => resetFor_firX p k⟩, ⟨fun j => ?_, fun j => ?_⟩,
    ⟨rfl, rfl, rfl, rfl, rfl, rfl⟩, ?_, readElement_sampleRate (s := State.resetFor p), fun c => ?_,
    rfl, rfl, rfl, BitVec.getLsbD_zero, rfl, rfl, rfl⟩
  · simp [State.resetFor]
  · simp [State.resetFor]
  · simp only [← samples_eq_sampleCount]
    exact ⟨rfl, rfl, rfl⟩
  · cases c <;> exact ⟨rfl, rfl, rfl, rfl⟩

/-- The table speaks of neither the inputs to come nor the words read, which are all a reset input keeps
(R311). -/
theorem resetTable_resetCore (s : State) : ResetTable s.cfg (resetCore s) := resetTable_resetFor s.cfg

/-- Settles O3: the reset input leaves the reset state, but for the inputs to come and the words read. -/
theorem resetLeavesTheListedValues : Obligations.ResetLeavesTheListedValues :=
  ⟨resetTable_resetFor _, fun s rest h =>
    ⟨resetCore { s with inputs := rest }, step_of_inputs h, resetTable_resetCore _, rfl, rfl⟩⟩

/-- Settles O4: this hardware's configuration is legal, whatever its OPEN parameters are. -/
theorem resetMeetsTheInvariant : Obligations.ResetMeetsTheInvariant := resetFor_inv Config.params_legal

end Sys2Proof.Proofs
end
